-- ==== Sys2Proof/Word.lean ====
section
/-! DEFINITION. The word types of the block (00_scope.md R6, R9). -/

namespace Sys2Proof

/-- A 32-bit quantity: a Sample, a PackedWord, a counter (00_scope.md R6, R9). -/
abbrev Word := BitVec 32

/-- An 8-bit quantity (00_scope.md R9). -/
abbrev Byte := BitVec 8

/-- A 64-bit quantity: a statistic or a sample offset (10_state.md R27, R37). -/
abbrev DWord := BitVec 64

/-- A command word, `op` in bits 39:32 and `arg` in bits 31:0 (30_encoding.md R90). -/
abbrev CmdWord := BitVec 40

end Sys2Proof
end

