-- ==== Sys2Proof/Config.lean ====
section
/-! DEFINITION. The configuration parameters (00_scope.md R7) as plain data, and the free values
that the spec leaves open (opaque constants, so that nothing can be proved of them). -/

namespace Sys2Proof

/-- BIT_ORDER: the order in which logical positions 1..8 fill the output byte (00_scope.md R7). -/
inductive BitOrder where
  | msbFirst
  | lsbFirst
  deriving DecidableEq, Repr

/-- The LEARN parameter (00_scope.md R7, 43_sync_detector.md R179), a replaceable function, as plain
data: `configured` is the default `LEARN(cfg, run) = cfg`; `replaced k` is any other function, an
opaque one for each index `k` (log 3). -/
inductive LearnRule where
  | configured
  | replaced (k : Nat)
  deriving DecidableEq, Repr

/-- The VFY_EXPECT parameter (00_scope.md R7, 41_bit_packer_unpacker.md R147), a replaceable function,
as plain data: `sampleIndex` is the default `off / 4`; `replaced k` is any other function (log 3). -/
inductive VerifyRule where
  | sampleIndex
  | replaced (k : Nat)
  deriving DecidableEq, Repr

/-- The configuration registers and parameters of 00_scope.md R7 and 10_state.md R40. They are
constant: no command writes one. Parameters typed u32 are 32-bit words, those typed integer are
natural numbers (00_scope.md R10). `batchWords` is one value for the packer and the unpacker of a State,
as R7 gives it one name and R40 one register (DESIGN CHOICE, log 29: 92_eei_decisions.md D13 calls the two
independent). -/
structure Config where
  capacity : Word
  minCapacity : Word
  shmBase : Word
  choke : Word
  signalBit : Nat
  testMode : Bool
  batchWords : Nat
  frameLen : Nat
  frameLenMax : Nat
  frameLenTol : Nat
  bitOrder : BitOrder
  learn : LearnRule
  verify : VerifyRule
  ctrlOffBase : Nat
  ctrlOffSize : Nat
  ctrlOffChoke : Nat
  ctrlOffBefore : Nat
  ctrlOffAfter : Nat
  deriving DecidableEq, Repr

/-- The configuration that `State.reset` carries. The spec leaves these parameters OPEN
(00_scope.md R7): DESIGN CHOICE, unsafe for a claim about `State.reset` alone (log 2). -/
def Config.reference : Config where
  capacity := 0x00800000
  minCapacity := 16
  shmBase := 0
  choke := 0
  signalBit := 0
  testMode := false
  batchWords := 4
  frameLen := 30
  frameLenMax := 1000
  frameLenTol := 0
  bitOrder := .msbFirst
  learn := .configured
  verify := .sampleIndex
  ctrlOffBase := 0
  ctrlOffSize := 4
  ctrlOffChoke := 8
  ctrlOffBefore := 12
  ctrlOffAfter := 16

/-- FREE VALUE: the byte at an offset of the shared region that the producer has not written since
ProdStart, by epoch and offset (93_implementation_defined.md U1; log 5). -/
opaque Config.unwrittenShared : Nat → Nat → Byte

/-- FREE VALUE: a byte of the control region that nothing has written since ProdReset, by epoch and
offset (93_implementation_defined.md U10; log 6). -/
opaque Config.unwrittenCtrl : Nat → Nat → Byte

/-- FREE VALUE: an element of the frame buffer at or above `buf_count`
(93_implementation_defined.md U2; log 17). -/
opaque Config.unspecifiedSample : Nat → Bool

/-- FREE VALUE: an element of the unpacker's batch buffer at or above `up_nwords`
(93_implementation_defined.md U2; log 17). -/
opaque Config.unspecifiedWord : Nat → Word

/-- FREE VALUE: the LEARN function number `k` that replaces the default (43_sync_detector.md R179; log 3). -/
opaque Config.learnReplaced : Nat → Nat → Nat → Nat

/-- FREE VALUE: the VFY_EXPECT function number `k` that replaces the default
(41_bit_packer_unpacker.md R147; log 3). -/
opaque Config.verifyReplaced : Nat → Word → Word

end Sys2Proof
end

