-- ==== Sys2Proof/Syntax.lean ====
section
/-! DEFINITION. The fourteen commands (30_encoding.md R91) and the names of the status registers
(10_state.md R41). -/

namespace Sys2Proof

/-- The commands of the block, one constructor per row of spec/opcode_table.json (30_encoding.md R91).
Operands are those of R92: `none`, `bit`, or a status register number `n`. -/
inductive Instr where
  | reset
  | acqInit
  | acqPoll
  | acqCancel
  | acqStop
  | acqRun
  | packAdd (bit : Bool)
  | packFlush
  | packClose
  | unpkGet
  | decReset
  | decBit (bit : Bool)
  | decRun
  | rdsr (n : Byte)
  deriving DecidableEq, Repr

/-- The status registers by name, in the order of 10_state.md R41. -/
inductive StatusReg where
  | acqState | acqFlags | acqCause | lastRead
  | totalBytesLo | totalBytesHi | pollCountLo | pollCountHi
  | peakUnread | ovrBefore | ovrLast | ovrGap
  | pkWord | pkFill | vfyMismatchLo | vfyMismatchHi | vfyFirstOff | vfyFirstGot
  | decPhase | decCause | consecHighs | frameLength | bufCount
  | frameStartLo | frameStartHi | bitOffsetLo | bitOffsetHi
  | nBytesLo | nBytesHi | nFramingFailLo | nFramingFailHi
  | nResyncExhaustLo | nResyncExhaustHi | nSyncLo | nSyncHi
  | cfgCapacity | cfgMinCapacity | cfgShmBase | cfgChoke | cfgSignalBit | cfgTestMode
  | cfgBatchWords | cfgFrameLen | cfgFrameLenMax | cfgFrameLenTol | cfgBitOrder
  deriving DecidableEq, Repr

end Sys2Proof
end

