-- ==== Sys2Proof/WellFormed.lean ====
section
/-! DEFINITION. Which command terms stand for a legal command word (30_encoding.md R92, R93). -/

namespace Sys2Proof

/-- RDSR's operand is listed in 10_state.md R41: 0x00..0x11, 0x20..0x30 or 0x40..0x4A. -/
def statusNumberListed (n : Byte) : Bool :=
  n.toNat ≤ 0x11 || (0x20 ≤ n.toNat && n.toNat ≤ 0x30) || (0x40 ≤ n.toNat && n.toNat ≤ 0x4A)

/-- A command is well formed when a legal command word stands for it (30_encoding.md R93): the one
condition is RDSR's, that its register number is listed. -/
def Instr.wellFormed : Instr → Bool
  | .rdsr n => statusNumberListed n
  | .reset | .acqInit | .acqPoll | .acqCancel | .acqStop | .acqRun => true
  | .packAdd _ | .packFlush | .packClose | .unpkGet => true
  | .decReset | .decBit _ | .decRun => true

end Sys2Proof
end

