-- ==== Sys2Proof/Decode.lean ====
section
/-! DEFINITION. Decoding a 40-bit command word, and the encoder (30_encoding.md R90 to R93, R102). -/

namespace Sys2Proof

/-- Why a command word is illegal (30_encoding.md R93). -/
inductive Illegal where
  /-- `op` is none of the fourteen values of R91. -/
  | opcode (op : Byte)
  /-- A reserved bit of `arg` is 1. -/
  | reservedBits (arg : Word)
  /-- RDSR of a number that 10_state.md R41 does not list. -/
  | statusRegister (n : Byte)
  deriving DecidableEq, Repr

/-- The `op` field, bits 39:32 (30_encoding.md R90). -/
def CmdWord.op (w : CmdWord) : Byte := w.extractLsb' 32 8

/-- The `arg` field, bits 31:0 (30_encoding.md R90). -/
def CmdWord.arg (w : CmdWord) : Word := w.extractLsb' 0 32

/-- `{op, arg}` (30_encoding.md R101). -/
def CmdWord.make (op : Byte) (arg : Word) : CmdWord := op ++ arg

/-- The map of status register numbers (10_state.md R41). -/
def statusRegTable : List (Byte × StatusReg) :=
  [(0x00, .acqState), (0x01, .acqFlags), (0x02, .acqCause), (0x03, .lastRead),
   (0x04, .totalBytesLo), (0x05, .totalBytesHi), (0x06, .pollCountLo), (0x07, .pollCountHi),
   (0x08, .peakUnread), (0x09, .ovrBefore), (0x0A, .ovrLast), (0x0B, .ovrGap),
   (0x0C, .pkWord), (0x0D, .pkFill), (0x0E, .vfyMismatchLo), (0x0F, .vfyMismatchHi),
   (0x10, .vfyFirstOff), (0x11, .vfyFirstGot)] ++
  [(0x20, .decPhase), (0x21, .decCause), (0x22, .consecHighs), (0x23, .frameLength),
   (0x24, .bufCount), (0x25, .frameStartLo), (0x26, .frameStartHi),
   (0x27, .bitOffsetLo), (0x28, .bitOffsetHi), (0x29, .nBytesLo), (0x2A, .nBytesHi),
   (0x2B, .nFramingFailLo), (0x2C, .nFramingFailHi),
   (0x2D, .nResyncExhaustLo), (0x2E, .nResyncExhaustHi), (0x2F, .nSyncLo), (0x30, .nSyncHi)] ++
  [(0x40, .cfgCapacity), (0x41, .cfgMinCapacity), (0x42, .cfgShmBase), (0x43, .cfgChoke),
   (0x44, .cfgSignalBit), (0x45, .cfgTestMode), (0x46, .cfgBatchWords), (0x47, .cfgFrameLen),
   (0x48, .cfgFrameLenMax), (0x49, .cfgFrameLenTol), (0x4A, .cfgBitOrder)]

/-- The status register of a number, if 10_state.md R41 lists it. -/
def statusReg? (n : Byte) : Option StatusReg := statusRegTable.lookup n

/-- The three operand forms of 30_encoding.md R92, each with the command it makes. -/
inductive OperandForm where
  | none (i : Instr)
  | bit (make : Bool → Instr)
  | number (make : Byte → Instr)

/-- The opcode map (30_encoding.md R91). -/
def opcodeTable : List (Byte × OperandForm) :=
  [(0x01, .none .reset),
   (0x10, .none .acqInit), (0x11, .none .acqPoll), (0x12, .none .acqCancel),
   (0x13, .none .acqStop), (0x14, .none .acqRun),
   (0x20, .bit .packAdd), (0x21, .none .packFlush), (0x22, .none .packClose),
   (0x30, .none .unpkGet),
   (0x40, .none .decReset), (0x41, .bit .decBit), (0x42, .none .decRun),
   (0x50, .number .rdsr)]

/-- Reads the operand of a form out of `arg`; a reserved bit that is 1, or an unlisted register number,
is illegal (30_encoding.md R92, R93). -/
def OperandForm.read (arg : Word) : OperandForm → Except Illegal Instr
  | .none i => if arg = 0 then .ok i else .error (.reservedBits arg)
  | .bit make =>
    if arg.extractLsb' 1 31 = 0 then .ok (make (arg.getLsbD 0)) else .error (.reservedBits arg)
  | .number make =>
    if arg.extractLsb' 8 24 = 0 then
      match statusReg? (arg.extractLsb' 0 8) with
      | some _ => .ok (make (arg.extractLsb' 0 8))
      | Option.none => .error (.statusRegister (arg.extractLsb' 0 8))
    else .error (.reservedBits arg)

/-- Decoding: look `op` up, then check the reserved bits of `arg` (30_encoding.md R90). -/
def decode (w : CmdWord) : Except Illegal Instr :=
  match opcodeTable.lookup (CmdWord.op w) with
  | some form => form.read (CmdWord.arg w)
  | none => .error (.opcode (CmdWord.op w))

/-- The opcode of a command (30_encoding.md R91). -/
def Instr.opcode : Instr → Byte
  | .reset => 0x01
  | .acqInit => 0x10
  | .acqPoll => 0x11
  | .acqCancel => 0x12
  | .acqStop => 0x13
  | .acqRun => 0x14
  | .packAdd _ => 0x20
  | .packFlush => 0x21
  | .packClose => 0x22
  | .unpkGet => 0x30
  | .decReset => 0x40
  | .decBit _ => 0x41
  | .decRun => 0x42
  | .rdsr _ => 0x50

/-- The operand field of a command (30_encoding.md R92). -/
def Instr.arg : Instr → Word
  | .packAdd b | .decBit b => BitVec.ofNat 32 b.toNat
  | .rdsr n => n.zeroExtend 32
  | .reset | .acqInit | .acqPoll | .acqCancel | .acqStop | .acqRun => 0
  | .packFlush | .packClose | .unpkGet | .decReset | .decRun => 0

/-- The 40-bit word of a command (30_encoding.md R90, R101). -/
def encode (i : Instr) : CmdWord := CmdWord.make i.opcode i.arg

/-- The command that the decoder reads from a table row's word: `w` is the 40-bit command word itself
(bit 0 least significant), since the command port takes whole words (30_encoding.md R90). -/
def decodeTableWord (nbits w : Nat) : Option Instr :=
  if w % 2 ^ nbits < 2 ^ 40 then (decode (BitVec.ofNat 40 (w % 2 ^ nbits))).toOption else none

end Sys2Proof
end

