-- ==== Sys2Proof/Machine/State.lean ====
section
/-! DEFINITION. The state of the machine as plain data, its stops, and the state after reset
(10_state.md; 60_exceptions.md R239). -/

namespace Sys2Proof.Machine

/-- `acq_state` (10_state.md R21). -/
inductive AcqMode where
  | idle
  | running
  | stopped
  deriving DecidableEq, Repr

/-- The causes that `acq_cause` and `dec_cause` can hold and RC_EXIT can carry: codes 0 to 5 of
60_exceptions.md R220. -/
inductive Cause where
  | none
  | cancelled
  | cfgErr
  | ioErr
  | overrun
  | eos
  deriving DecidableEq, Repr

/-- The SYNC fields of the decoder (10_state.md R35). -/
structure SyncFields where
  consecutiveHighs : Word
  lastBit : Bool
  deriving DecidableEq, Repr

/-- The DECODE fields of the decoder (10_state.md R36): `buf` holds the valid samples
`buf[0 .. buf_count−1]` of the frame buffer and no others, so `buf_count` is its length (log 24). The
buffer's size FRS_MAX (`frsMax`, 00_scope.md R8) bounds it: `DecInv.window` says so, and every step keeps
it. -/
structure DecodeFields where
  frameLength : Nat
  buf : List Bool
  frameStart : DWord
  deriving DecidableEq, Repr

/-- `phase`, a tagged union (10_state.md R34). -/
inductive Phase where
  | sync (f : SyncFields)
  | decode (f : DecodeFields)
  deriving DecidableEq, Repr

/-- Where a DEC.RUN in progress stands between steps (45_decode_driver.md R212): it is about to call
UNPK.GET, or it holds the bit that its next step gives to DEC.BIT (log 12). -/
inductive DecRun where
  | idle
  | fetch
  | bit (b : Bool)
  deriving DecidableEq, Repr

/-- The registers of the ACQ unit (10_state.md R21 to R32). `pkBatch` holds the valid words
`pk_batch[0 .. pk_nwords−1]` and no others, so `pk_nwords` is its length (log 24). `runActive` says
that an ACQ.RUN is in progress (42_acquisition_loop.md R163; log 12). -/
structure Acq where
  acqState : AcqMode
  lastRead : Word
  cancel : Bool
  fOverrun : Bool
  fIoErr : Bool
  fCfgErr : Bool
  fCancelled : Bool
  fVerifyErr : Bool
  acqCause : Cause
  acqExit : Byte
  ovrBefore : Word
  ovrLast : Word
  ovrGap : Word
  totalBytes : DWord
  pollCount : DWord
  peakUnread : Word
  pkWord : Word
  pkNbits : Nat
  pkBatch : List Word
  vfyMismatch : DWord
  vfyFirstOff : Word
  vfyFirstGot : Word
  runActive : Bool
  deriving DecidableEq, Repr

/-- The registers of the DEC unit (10_state.md R33 to R39). `upBatch` holds the valid words
`up_batch[0 .. up_nwords−1]` and no others, so `up_nwords` is its length (log 24). `run` says
whether a DEC.RUN is in progress (45_decode_driver.md R212; log 12). -/
structure Dec where
  upBatch : List Word
  upWidx : Nat
  upWord : Word
  upNleft : Nat
  upEos : Bool
  upIoErr : Bool
  phase : Phase
  bitOffset : DWord
  nBytes : DWord
  nFramingFail : DWord
  nResyncExhaust : DWord
  nSync : DWord
  decCause : Cause
  decExit : Byte
  run : DecRun
  deriving DecidableEq, Repr

/-- Memory: the bytes that have been written, addresses strictly rising. An unlisted address holds
no value of its own; what reading it gives is said where the region is read (log 5, 6). -/
abbrev Memory := List Host.Cell

/-- The five words of the private control region (20_memory.md R62). -/
inductive CtrlWord where
  | base
  | size
  | choke
  | before
  | after
  deriving DecidableEq, Repr

/-- One write of the producer (20_memory.md R76, R77; log 23): Sample number `k`, at offset
`4k mod CAPACITY` of the shared region, or a new value of a counter. -/
inductive ProdWrite where
  | sample (k : Nat) (v : Word)
  | before (v : Word)
  | after (v : Word)
  deriving DecidableEq, Repr

/-- What the three producer control signals have last asked of the external program
(20_memory.md R64). -/
inductive ProducerStatus where
  | stopped
  | held
  | running
  deriving DecidableEq, Repr

/-- An answer of the bitstream source (20_memory.md R68). -/
inductive SourceAnswer where
  | data (ws : List Word)
  | eos
  | err
  deriving DecidableEq, Repr

/-- An access of the block on one of its interfaces, with its answer (00_scope.md R12; 20_memory.md R70). -/
inductive BusEvent where
  | ctrlRead (w : CtrlWord) (v : Word)
  | ctrlWrite (w : CtrlWord) (v : Word)
  | memRead (off : Nat) (v : Word)
  | barrier
  | prodReset
  | prodStart
  | prodStop
  | sinkWrite (ws : List Word) (n : Nat)
  | sourceRead (max : Nat) (ans : SourceAnswer)
  | emitByte (b : Byte)
  deriving DecidableEq, Repr

/-- Everything outside the block that its accesses reach (20_memory.md R60; 10_state.md R44).
`schedule` holds the producer's writes still to come, one batch before each of the block's reads
(log 4); `sinkTape` and `sourceTape` the answers still to come (log 8, 9); `trace` the accesses made,
in order (20_memory.md R83(a); log 21). The epochs index free values (log 5, 6). -/
structure Env where
  shared : Memory
  sharedEpoch : Nat
  ctrl : Memory
  ctrlEpoch : Nat
  producer : ProducerStatus
  schedule : List (List ProdWrite)
  sinkTape : List Nat
  persisted : List Word
  sourceTape : List SourceAnswer
  output : List Byte
  trace : List BusEvent
  deriving DecidableEq, Repr

/-- What moves next, as the schedule of agents gives it (60_exceptions.md R239; log 1): a command word
arrives on the command port, or a run in progress takes its next step. -/
inductive Input where
  | command (w : CmdWord)
  | acqTurn
  | decTurn
  deriving DecidableEq, Repr

/-- The response codes (30_encoding.md R96). -/
inductive RespCode where
  | ok
  | eos
  | exit
  | illegalState
  | illegal
  deriving DecidableEq, Repr

/-- A response, `Respond(rc, val)` (30_encoding.md R95). -/
structure Response where
  rc : RespCode
  val : Word
  deriving DecidableEq, Repr

/-- The command port: inputs still to come, responses given so far, oldest first (30_encoding.md R90,
R95; log 1, 21). -/
structure Port where
  inputs : List Input
  responses : List Response
  deriving DecidableEq, Repr

/-- The whole machine: the configuration (constant), the two units, which share no register
(10_state.md R20), the environment, and the command port. -/
structure State where
  cfg : Config
  acq : Acq
  dec : Dec
  env : Env
  port : Port
  deriving DecidableEq, Repr

/-- Why the machine stops with a fault. -/
inductive Fault where
  /-- Raised by `MemRead` at an offset that is not a multiple of 4 or not below CAPACITY, which does not
  exist (00_scope.md R12, 20_memory.md R66). Safe; no reachable state raises it (log 11). -/
  | sharedAccess (off : Nat)
  deriving DecidableEq, Repr

/-- Why a step has no meaning. -/
inductive Refusal where
  /-- Raised by `exec` for a command that has no meaning yet. Safe. -/
  | notModelled (mnemonic : String)
  /-- Raised by ACQ.POLL when a read of AFTER or BEFORE is not a multiple of 4: the producer has broken
  its contract (93_implementation_defined.md U3; log 7). Safe. -/
  | counterMisaligned (w : CtrlWord) (v : Word)
  /-- Raised by SYNC.COMMIT when a replaced LEARN leaves 11..FRAME_LEN_MAX
  (93_implementation_defined.md U6; log 10). Safe. -/
  | learnOutOfRange (fl : Nat)
  /-- Raised by SinkWrite when the sink claims more words than it was offered
  (93_implementation_defined.md U8; log 8). Safe. -/
  | sinkOverAccepts (n : Nat)
  /-- Raised by SourceRead when the source delivers no word, or more than it was asked for
  (93_implementation_defined.md U8; log 9). Safe. -/
  | sourceDataLength (n : Nat)
  deriving DecidableEq, Repr

/-- The outcome of a micro-operation: it is done with a result; it has raised a fatal cause, whose exit
sequence has not run yet (00_scope.md R12 `raise`); or the machine stops. -/
inductive Micro (α : Type) where
  | done (a : α) (s : State)
  | raised (c : Cause) (s : State)
  | fault (r : Fault)
  | refused (r : Refusal)

/-- The ACQ registers after reset (10_state.md R43). -/
def Acq.reset : Acq where
  acqState := .idle
  lastRead := 0
  cancel := false
  fOverrun := false
  fIoErr := false
  fCfgErr := false
  fCancelled := false
  fVerifyErr := false
  acqCause := .none
  acqExit := 0
  ovrBefore := 0
  ovrLast := 0
  ovrGap := 0
  totalBytes := 0
  pollCount := 0
  peakUnread := 0
  pkWord := 0
  pkNbits := 0
  pkBatch := []
  vfyMismatch := 0
  vfyFirstOff := 0
  vfyFirstGot := 0
  runActive := false

/-- The SYNC fields on every entry into SYNC (43_sync_detector.md R178; 10_state.md R43). -/
def SyncFields.entry : SyncFields where
  consecutiveHighs := 0
  lastBit := false

/-- The DEC registers after reset (10_state.md R43). -/
def Dec.reset : Dec where
  upBatch := []
  upWidx := 0
  upWord := 0
  upNleft := 0
  upEos := false
  upIoErr := false
  phase := .sync SyncFields.entry
  bitOffset := 0
  nBytes := 0
  nFramingFail := 0
  nResyncExhaust := 0
  nSync := 0
  decCause := .none
  decExit := 0
  run := .idle

/-- The environment that `State.reset` carries: nothing written, no answer scheduled
(DESIGN CHOICE; log 4, 5, 6, 8, 9, 21, 23). -/
def Env.quiet : Env where
  shared := []
  sharedEpoch := 0
  ctrl := []
  ctrlEpoch := 0
  producer := .stopped
  schedule := []
  sinkTape := []
  persisted := []
  sourceTape := []
  output := []
  trace := []

/-- The machine right after power-on: every register at its value in 10_state.md R43
(70_reset_and_hazards.md R250), the reference configuration (log 2), a quiet environment, and nothing
on the command port. -/
def State.reset : State where
  cfg := Config.reference
  acq := Acq.reset
  dec := Dec.reset
  env := Env.quiet
  port := { inputs := [], responses := [] }

end Sys2Proof.Machine
end

