-- ==== Sys2Proof/Machine/Operands.lean ====
section
/-! DEFINITION. The arithmetic of the block (00_scope.md R10), the derived quantities (R8), the
configuration checks (00_scope.md R7, 42_acquisition_loop.md R160, 45_decode_driver.md R205), the configuration
functions LEARN and VFY_EXPECT, and the byte order of a word (20_memory.md R65). -/

namespace Sys2Proof.Machine

/-- `add32(a, b) = (a + b) mod 2^32` (00_scope.md R10). -/
def add32 (a b : Word) : Word := a + b

/-- `sub32(a, b) = (a − b) mod 2^32`, the distance from b forward to a (00_scope.md R10). -/
def sub32 (a b : Word) : Word := a - b

/-- `sat32(a) = min(a, 2^32 − 1)` (00_scope.md R10). -/
def sat32 (a : Nat) : Word := BitVec.ofNat 32 (min a (2 ^ 32 - 1))

/-- `max(a, b)` on unsigned words (00_scope.md R10). -/
def maxWord (a b : Word) : Word := if a < b then b else a

/-- The low half of a 64-bit quantity (10_state.md R41). -/
def lowHalf (d : DWord) : Word := d.extractLsb' 0 32

/-- The high half of a 64-bit quantity (10_state.md R41). -/
def highHalf (d : DWord) : Word := d.extractLsb' 32 32

/-- `FRS(fl) = fl + fl/8`, frame_required_samples (00_scope.md R8). -/
def frs (fl : Nat) : Nat := fl + fl / 8

/-- `OFS(fl, i) = fl × i / 10` (00_scope.md R8). -/
def ofs (fl i : Nat) : Nat := fl * i / 10

/-- `SCAN0(fl) = fl × 9 / 10 + 1` (00_scope.md R8). -/
def scan0 (fl : Nat) : Nat := fl * 9 / 10 + 1

/-- `SYNC_MIN(fl) = 2 × fl` (00_scope.md R8). -/
def syncMin (fl : Nat) : Nat := 2 * fl

/-- `FRS_MAX = FRS(FRAME_LEN_MAX)`: the size of the frame buffer (00_scope.md R8). -/
def frsMax (cfg : Config) : Nat := frs cfg.frameLenMax

/-- CAPACITY as a number of bytes. -/
def capBytes (cfg : Config) : Nat := cfg.capacity.toNat

/-- A power of two no greater than 2^31. -/
def isPowerOfTwo (c : Nat) : Bool := (List.range 32).any fun k => c == 2 ^ k

/-- The constraint on CTRL_OFF_*: distinct, multiples of 4 (00_scope.md R7). -/
def ctrlOffsetsOk (cfg : Config) : Bool :=
  let offs := [cfg.ctrlOffBase, cfg.ctrlOffSize, cfg.ctrlOffChoke, cfg.ctrlOffBefore, cfg.ctrlOffAfter]
  decide offs.Nodup && offs.all fun o => o % 4 == 0

/-- The check of ACQ.INIT: the conditions that 42_acquisition_loop.md R160 lists, and the two constraints
on parameters of the ACQ unit that only 00_scope.md R7 states, on MIN_CAPACITY and CTRL_OFF_* (log 16). -/
def acqCfgOk (cfg : Config) : Bool :=
  isPowerOfTwo (capBytes cfg) && decide (4 ≤ capBytes cfg) && decide (capBytes cfg ≤ 2 ^ 31) &&
  decide (cfg.minCapacity.toNat ≤ capBytes cfg) && decide (cfg.signalBit ≤ 31) &&
  decide (1 ≤ cfg.batchWords) && decide (cfg.minCapacity.toNat % 4 = 0) && ctrlOffsetsOk cfg

/-- DEC_CFG_OK (45_decode_driver.md R205). -/
def decCfgOk (cfg : Config) : Bool :=
  decide (11 ≤ cfg.frameLen) && decide (cfg.frameLen ≤ cfg.frameLenMax) &&
  decide (cfg.frameLenMax < 2 ^ 31) && decide (1 ≤ cfg.batchWords)

/-- LEARN(cfg, run), by default its first argument (43_sync_detector.md R179; log 3). -/
def learn (rule : LearnRule) (cfgLen run : Nat) : Nat :=
  match rule with
  | .configured => cfgLen
  | .replaced k => Config.learnReplaced k cfgLen run

/-- VFY_EXPECT(off), by default the Sample's index off / 4 (41_bit_packer_unpacker.md R147; log 3). -/
def verifyExpect (rule : VerifyRule) (off : Word) : Word :=
  match rule with
  | .sampleIndex => off / 4
  | .replaced k => Config.verifyReplaced k off

/-- The address at which the producer sees a byte offset of the shared region (20_memory.md R61). -/
def producerAddress (cfg : Config) (off : Nat) : Nat := cfg.shmBase.toNat + off

/-- The byte offset of a control word (20_memory.md R62). -/
def ctrlOffset (cfg : Config) : CtrlWord → Nat
  | .base => cfg.ctrlOffBase
  | .size => cfg.ctrlOffSize
  | .choke => cfg.ctrlOffChoke
  | .before => cfg.ctrlOffBefore
  | .after => cfg.ctrlOffAfter

/-- Byte `i` of a word: bits 8i+7 : 8i (20_memory.md R65, little-endian). -/
def byteOf (v : Word) (i : Nat) : Byte := v.extractLsb' (8 * i) 8

/-- The word whose bits 7:0 are `b0`, 15:8 `b1`, 23:16 `b2`, 31:24 `b3` (20_memory.md R65). -/
def wordOfBytes (b0 b1 b2 b3 : Byte) : Word := b3 ++ b2 ++ b1 ++ b0

end Sys2Proof.Machine
end

