-- ==== Sys2Proof/Machine/Flags.lean ====
section
/-! DEFINITION. Codes, the flag word, the event word and the content of every status register
(10_state.md R24, R41; 30_encoding.md R96; 60_exceptions.md R220). -/

namespace Sys2Proof.Machine

/-- The code of a cause (60_exceptions.md R220). -/
def Cause.code : Cause → Byte
  | .none => 0
  | .cancelled => 1
  | .cfgErr => 2
  | .ioErr => 3
  | .overrun => 4
  | .eos => 5

/-- The exit code that a cause leaves (60_exceptions.md R229). -/
def Cause.exitCode : Cause → Byte
  | .none | .cancelled | .eos => 0
  | .cfgErr | .ioErr | .overrun => 1

/-- The number of a response code (30_encoding.md R96). -/
def RespCode.code : RespCode → Byte
  | .ok => 0x00
  | .eos => 0x01
  | .exit => 0x02
  | .illegalState => 0x0E
  | .illegal => 0x0F

/-- The value of an RC_EXIT response: the cause's code (30_encoding.md R96). -/
def Cause.value (c : Cause) : Word := c.code.zeroExtend 32

/-- ACQ_FLAGS: f_overrun bit 0, f_io_err 1, f_cfg_err 2, f_cancelled 3, f_verify_err 4, cancel 5
(10_state.md R24). -/
def acqFlags (a : Acq) : Word :=
  0#26 ++ BitVec.ofBool a.cancel ++ BitVec.ofBool a.fVerifyErr ++ BitVec.ofBool a.fCancelled ++
    BitVec.ofBool a.fCfgErr ++ BitVec.ofBool a.fIoErr ++ BitVec.ofBool a.fOverrun

/-- What one DEC.BIT did (45_decode_driver.md R206). -/
inductive DecEvent where
  | none
  | commit
  | byte (b : Byte)
  | byteExhausted (b : Byte)
  | framingFail
  deriving DecidableEq, Repr

/-- The event word: data in bits 7:0, EV_BYTE 8, EV_COMMIT 9, EV_FRAMING_FAIL 10, EV_RESYNC_EXHAUST 11
(30_encoding.md R96). -/
def DecEvent.word : DecEvent → Word
  | .none => 0
  | .commit => 0x200
  | .byte b => 0x100 ||| b.zeroExtend 32
  | .byteExhausted b => 0x900 ||| b.zeroExtend 32
  | .framingFail => 0x400

/-- The number of an `acq_state` in ACQ_STATE (10_state.md R41). -/
def AcqMode.code : AcqMode → Word
  | .idle => 0
  | .running => 1
  | .stopped => 2

/-- `pk_nwords` (10_state.md R31; log 24). -/
def Acq.pkNwords (a : Acq) : Nat := a.pkBatch.length

/-- `up_nwords` (10_state.md R33; log 24). -/
def Dec.upNwords (d : Dec) : Nat := d.upBatch.length

/-- `buf_count` (10_state.md R36; log 24). -/
def DecodeFields.bufCount (f : DecodeFields) : Nat := f.buf.length

/-- DEC_PHASE (10_state.md R41). -/
def Phase.code : Phase → Word
  | .sync _ => 0
  | .decode _ => 1

/-- CONSEC_HIGHS: 0 in phase DECODE (10_state.md R41). -/
def Phase.consecutiveHighs : Phase → Word
  | .sync f => f.consecutiveHighs
  | .decode _ => 0

/-- FRAME_LENGTH: 0 in phase SYNC (10_state.md R41). -/
def Phase.frameLength : Phase → Nat
  | .sync _ => 0
  | .decode f => f.frameLength

/-- BUF_COUNT: 0 in phase SYNC (10_state.md R41). -/
def Phase.bufCount : Phase → Nat
  | .sync _ => 0
  | .decode f => f.bufCount

/-- FRAME_START: 0 in phase SYNC (10_state.md R41). -/
def Phase.frameStart : Phase → DWord
  | .sync _ => 0
  | .decode f => f.frameStart

/-- A cause in bits 7:0 and its exit code in bits 15:8 (10_state.md R41, ACQ_CAUSE). Bits 31:16
read 0, as 0x104 does in 95_test_vectors.md. -/
def causeWord (c : Cause) (x : Byte) : Word := 0#16 ++ x ++ c.code

/-- PK_FILL: `pk_nbits` in bits 5:0, `pk_nwords` in bits 31:8 (10_state.md R41). A `pk_nwords` of 2^24 or
more, which no bound on BATCH_WORDS excludes, reads as its low 24 bits (DESIGN CHOICE, log 30). Bits
7:6 read 0, as 0x208 does in 95_test_vectors.md. -/
def pkFill (a : Acq) : Word := BitVec.ofNat 24 a.pkNwords ++ 0#2 ++ BitVec.ofNat 6 a.pkNbits

/-- DEC_CAUSE: `dec_cause` 7:0, `dec_exit` 15:8, `up_eos` 16, `up_io_err` 17 (10_state.md R41). The table
says nothing of bits 31:18; they read 0 (DESIGN CHOICE, log 31). -/
def decCauseWord (d : Dec) : Word :=
  0#14 ++ BitVec.ofBool d.upIoErr ++ BitVec.ofBool d.upEos ++ d.decExit ++ d.decCause.code

/-- CFG_TEST_MODE: 1 for a true TEST_MODE, 0 for a false one. 10_state.md R40 codes CFG_BIT_ORDER only, and
00_scope.md R7 types TEST_MODE as bool (DESIGN CHOICE, log 32). -/
def testModeCode (testMode : Bool) : Word := BitVec.ofNat 32 testMode.toNat

/-- CFG_BIT_ORDER: 0 MSB_FIRST, 1 LSB_FIRST (10_state.md R40). -/
def bitOrderCode : BitOrder → Word
  | .msbFirst => 0
  | .lsbFirst => 1

/-- The content column of 10_state.md R41. A numeric parameter is truncated to 32 bits
(45_decode_driver.md R215); the code of TEST_MODE is `testModeCode` (log 32). -/
def statusContent (s : State) : StatusReg → Word
  | .acqState => s.acq.acqState.code
  | .acqFlags => acqFlags s.acq
  | .acqCause => causeWord s.acq.acqCause s.acq.acqExit
  | .lastRead => s.acq.lastRead
  | .totalBytesLo => lowHalf s.acq.totalBytes
  | .totalBytesHi => highHalf s.acq.totalBytes
  | .pollCountLo => lowHalf s.acq.pollCount
  | .pollCountHi => highHalf s.acq.pollCount
  | .peakUnread => s.acq.peakUnread
  | .ovrBefore => s.acq.ovrBefore
  | .ovrLast => s.acq.ovrLast
  | .ovrGap => s.acq.ovrGap
  | .pkWord => s.acq.pkWord
  | .pkFill => pkFill s.acq
  | .vfyMismatchLo => lowHalf s.acq.vfyMismatch
  | .vfyMismatchHi => highHalf s.acq.vfyMismatch
  | .vfyFirstOff => s.acq.vfyFirstOff
  | .vfyFirstGot => s.acq.vfyFirstGot
  | .decPhase => s.dec.phase.code
  | .decCause => decCauseWord s.dec
  | .consecHighs => s.dec.phase.consecutiveHighs
  | .frameLength => BitVec.ofNat 32 s.dec.phase.frameLength
  | .bufCount => BitVec.ofNat 32 s.dec.phase.bufCount
  | .frameStartLo => lowHalf s.dec.phase.frameStart
  | .frameStartHi => highHalf s.dec.phase.frameStart
  | .bitOffsetLo => lowHalf s.dec.bitOffset
  | .bitOffsetHi => highHalf s.dec.bitOffset
  | .nBytesLo => lowHalf s.dec.nBytes
  | .nBytesHi => highHalf s.dec.nBytes
  | .nFramingFailLo => lowHalf s.dec.nFramingFail
  | .nFramingFailHi => highHalf s.dec.nFramingFail
  | .nResyncExhaustLo => lowHalf s.dec.nResyncExhaust
  | .nResyncExhaustHi => highHalf s.dec.nResyncExhaust
  | .nSyncLo => lowHalf s.dec.nSync
  | .nSyncHi => highHalf s.dec.nSync
  | .cfgCapacity => s.cfg.capacity
  | .cfgMinCapacity => s.cfg.minCapacity
  | .cfgShmBase => s.cfg.shmBase
  | .cfgChoke => s.cfg.choke
  | .cfgSignalBit => BitVec.ofNat 32 s.cfg.signalBit
  | .cfgTestMode => testModeCode s.cfg.testMode
  | .cfgBatchWords => BitVec.ofNat 32 s.cfg.batchWords
  | .cfgFrameLen => BitVec.ofNat 32 s.cfg.frameLen
  | .cfgFrameLenMax => BitVec.ofNat 32 s.cfg.frameLenMax
  | .cfgFrameLenTol => BitVec.ofNat 32 s.cfg.frameLenTol
  | .cfgBitOrder => bitOrderCode s.cfg.bitOrder

/-- `SR[n]` (00_scope.md R11): none when 10_state.md R41 does not list n. -/
def statusRegister (s : State) (n : Byte) : Option Word := (statusReg? n).map (statusContent s)

end Sys2Proof.Machine
end

