-- ==== Sys2Proof/Machine/Ops.lean ====
section
/-! DEFINITION. The named operations: memory, the interface primitives of 00_scope.md R12, responses,
the flush and close of the packer (41_bit_packer_unpacker.md R141, R142), and the exit sequence
EXIT.FATAL that every fatal cause takes (60_exceptions.md R232). -/

namespace Sys2Proof.Machine

/-- Runs `f` on the result of `m`; a raised cause or a stop ends the sequence (00_scope.md R12 `raise`:
"the rest of the current rule is not executed"). -/
def Micro.bind {α β : Type} (m : Micro α) (f : α → State → Micro β) : Micro β :=
  match m with
  | .done a s => f a s
  | .raised c s => .raised c s
  | .fault r => .fault r
  | .refused r => .refused r

/-- Runs `f` on the state of a raised cause, before its exit sequence; a result or a stop is passed on. -/
def Micro.onRaise {α : Type} (m : Micro α) (f : State → State) : Micro α :=
  match m with
  | .done a s => .done a s
  | .raised c s => .raised c (f s)
  | .fault r => .fault r
  | .refused r => .refused r

/-! ### Memory -/

/-- The byte written at an address, if any. -/
def Memory.get? : Memory → Nat → Option Byte
  | [], _ => none
  | c :: m, a => if c.1 = a then some c.2 else Memory.get? m a

/-- Writes one byte, keeping addresses strictly rising. -/
def Memory.set : Memory → Nat → Byte → Memory
  | [], a, b => [(a, b)]
  | c :: m, a, b =>
    if a < c.1 then (a, b) :: c :: m
    else if c.1 = a then (a, b) :: m
    else c :: Memory.set m a b

/-- The canonical form: addresses strictly rising. (An unlisted address holds no byte value, so no
listed byte equals what an unlisted address reads as.) -/
abbrev Memory.wf (m : Memory) : Prop := m.Pairwise fun c d => c.1 < d.1

/-- Writes a word at four bytes, least significant byte first (20_memory.md R65). -/
def Memory.setWord (m : Memory) (a : Nat) (v : Word) : Memory :=
  (((m.set a (byteOf v 0)).set (a + 1) (byteOf v 1)).set (a + 2) (byteOf v 2)).set (a + 3) (byteOf v 3)

/-! ### The producer and the two regions -/

/-- One write of the producer (20_memory.md R61, R63, R77). -/
def applyProdWrite (cfg : Config) (e : Env) : ProdWrite → Env
  | .sample k v => { e with shared := e.shared.setWord (4 * k % capBytes cfg) v }
  | .before v => { e with ctrl := e.ctrl.setWord (ctrlOffset cfg .before) v }
  | .after v => { e with ctrl := e.ctrl.setWord (ctrlOffset cfg .after) v }

/-- Before each of the block's reads the producer performs the next batch of its writes, any number of
them (20_memory.md R70; log 4). -/
def producerTurn (s : State) : State :=
  match s.env.schedule with
  | [] => s
  | batch :: rest =>
    { s with env := { batch.foldl (applyProdWrite s.cfg) s.env with schedule := rest } }

/-- The byte at an offset of the shared region; one not written since ProdStart is a free value
(20_memory.md R83(c), 93_implementation_defined.md U1; log 5). -/
def sharedByte (e : Env) (a : Nat) : Byte :=
  (e.shared.get? a).getD (Config.unwrittenShared e.sharedEpoch a)

/-- The Sample at an offset of the shared region (20_memory.md R65). -/
def sharedWord (e : Env) (a : Nat) : Word :=
  wordOfBytes (sharedByte e a) (sharedByte e (a + 1)) (sharedByte e (a + 2)) (sharedByte e (a + 3))

/-- The byte at an offset of the control region; one not written since ProdReset is a free value
(93_implementation_defined.md U10; log 6). -/
def ctrlByte (e : Env) (a : Nat) : Byte :=
  (e.ctrl.get? a).getD (Config.unwrittenCtrl e.ctrlEpoch a)

/-- The value that a word of the control region holds (20_memory.md R62, R65). -/
def ctrlValue (cfg : Config) (e : Env) (w : CtrlWord) : Word :=
  wordOfBytes (ctrlByte e (ctrlOffset cfg w)) (ctrlByte e (ctrlOffset cfg w + 1))
    (ctrlByte e (ctrlOffset cfg w + 2)) (ctrlByte e (ctrlOffset cfg w + 3))

/-! ### The primitives of 00_scope.md R12 -/

/-- Records an access of the block, in program order (20_memory.md R71, R83(a); log 21). -/
def State.logEvent (s : State) (ev : BusEvent) : State :=
  { s with env := { s.env with trace := s.env.trace ++ [ev] } }

/-- `MemRead(off, 4)`: off is a multiple of 4 and below CAPACITY (00_scope.md R12, 20_memory.md R66). -/
def memRead (off : Nat) (s : State) : Micro Word :=
  if off % 4 = 0 ∧ off < capBytes s.cfg then
    let s := producerTurn s
    .done (sharedWord s.env off) (s.logEvent (.memRead off (sharedWord s.env off)))
  else .fault (.sharedAccess off)

/-- `CtrlRead(w)`: the value of the word at the instant of the read; a value that is not a multiple of 4
breaks the producer's contract and the step is refused (20_memory.md R63, R66; log 7). -/
def ctrlRead (w : CtrlWord) (s : State) : Micro Word :=
  let s := producerTurn s
  let v := ctrlValue s.cfg s.env w
  if v.toNat % 4 = 0 then .done v (s.logEvent (.ctrlRead w v)) else .refused (.counterMisaligned w v)

/-- `CtrlWrite(w, v)` (00_scope.md R12, 20_memory.md R62). -/
def ctrlWrite (w : CtrlWord) (v : Word) (s : State) : State :=
  State.logEvent { s with env := { s.env with ctrl := s.env.ctrl.setWord (ctrlOffset s.cfg w) v } }
    (.ctrlWrite w v)

/-- `Barrier()`: accesses already happen in program order, so it is only an event (20_memory.md R71; log 19). -/
def barrier (s : State) : State := s.logEvent .barrier

/-- `ProdReset()`: both counters hold 0, and the other control words hold anything
(20_memory.md R64, R78; 93_implementation_defined.md U10; log 6). -/
def prodReset (s : State) : State :=
  State.logEvent
    { s with env := { s.env with
        ctrl := (Memory.setWord [] (ctrlOffset s.cfg .before) 0).setWord (ctrlOffset s.cfg .after) 0
        ctrlEpoch := s.env.ctrlEpoch + 1
        producer := .held } }
    .prodReset

/-- `ProdStart()`: the producer runs, and a Sample it has not written since holds anything
(20_memory.md R64; 93_implementation_defined.md U1; log 5). -/
def prodStart (s : State) : State :=
  State.logEvent
    { s with env := { s.env with
        shared := []
        sharedEpoch := s.env.sharedEpoch + 1
        producer := .running } }
    .prodStart

/-- `ProdStop()` (20_memory.md R64). -/
def prodStop (s : State) : State :=
  State.logEvent { s with env := { s.env with producer := .stopped } } .prodStop

/-- `SinkWrite(ws) → n`: the sink accepts the first n words; an answer above `length(ws)` breaks the
interface (20_memory.md R67; 93_implementation_defined.md U8; log 8). -/
def sinkWrite (ws : List Word) (s : State) : Micro Nat :=
  let n := s.env.sinkTape.headD ws.length
  if n ≤ ws.length then
    .done n (State.logEvent
      { s with env := { s.env with
          sinkTape := s.env.sinkTape.tail
          persisted := s.env.persisted ++ ws.take n } }
      (.sinkWrite ws n))
  else .refused (.sinkOverAccepts n)

/-- `SourceRead(max)`: the source's next answer; data of no word, or of more than `max`, breaks the
interface (20_memory.md R68; 93_implementation_defined.md U8; log 9). -/
def sourceRead (max : Nat) (s : State) : Micro SourceAnswer :=
  let ans := s.env.sourceTape.headD .eos
  let s' := State.logEvent { s with env := { s.env with sourceTape := s.env.sourceTape.tail } }
    (.sourceRead max ans)
  match ans with
  | .data ws =>
    if 1 ≤ ws.length ∧ ws.length ≤ max then .done ans s' else .refused (.sourceDataLength ws.length)
  | .eos => .done ans s'
  | .err => .done ans s'

/-- `EmitByte(b)` (20_memory.md R69). -/
def emitByte (b : Byte) (s : State) : State :=
  State.logEvent { s with env := { s.env with output := s.env.output ++ [b] } } (.emitByte b)

/-- `Respond(rc, val)` (30_encoding.md R95). -/
def State.respond (s : State) (rc : RespCode) (val : Word) : State :=
  { s with port := { s.port with responses := s.port.responses ++ [{ rc := rc, val := val }] } }

/-- A legal command refused because of the state it arrives in (30_encoding.md R94). -/
def refuseInState (s : State) : Host.Outcome State Fault Refusal := .next (s.respond .illegalState 0)

/-! ### Flush and close of the packer, which the exit sequence calls -/

/-- PACK.FLUSH (41_bit_packer_unpacker.md R141). -/
def packFlush (s : State) : Micro Unit :=
  if s.acq.pkBatch = [] then .done () s
  else
    (sinkWrite s.acq.pkBatch s).bind fun n s' =>
      let emptied : State := { s' with acq := { s'.acq with pkBatch := [] } }
      if n = s.acq.pkBatch.length then .done () emptied
      else .raised .ioErr { emptied with acq := { emptied.acq with fIoErr := true } }

/-- PACK.CLOSE (41_bit_packer_unpacker.md R142). -/
def packClose (s : State) : Micro Unit :=
  (packFlush s).bind fun _ s' =>
    .done () { s' with acq := { s'.acq with pkWord := 0, pkNbits := 0 } }

/-! ### Taking a fatal cause: EXIT.FATAL (60_exceptions.md R232). There is no return (R234): STOPPED is
left by RESET alone. -/

/-- The end of the ACQ exit sequence: stop the producer if RUNNING, record the cause, enter STOPPED,
answer the command during which the cause was raised (60_exceptions.md R232). -/
def leaveAcq (c : Cause) (s : State) : State :=
  let s1 := if s.acq.acqState = .running then prodStop (barrier s) else s
  State.respond
    { s1 with acq := { s1.acq with
        acqCause := c
        acqExit := if c = .cancelled then 0 else 1
        acqState := .stopped } }
    .exit c.value

/-- EXIT.FATAL in the ACQ unit: on CANCELLED and OVERRUN the packer is closed first, and an IO_ERR of
its flush replaces the cause (60_exceptions.md R232, R234). -/
def exitAcq (c : Cause) (s : State) : Host.Outcome State Fault Refusal :=
  if c = .cancelled ∨ c = .overrun then
    match packClose s with
    | .done _ s' => .next (leaveAcq c s')
    | .raised c' s' => .next (leaveAcq c' s')
    | .fault r => .fault r
    | .refused r => .refused r
  else .next (leaveAcq c s)

/-- EXIT.FATAL in the DEC unit (60_exceptions.md R232). -/
def exitDec (c : Cause) (s : State) : State :=
  State.respond { s with dec := { s.dec with decCause := c, decExit := 1 } } .exit c.value

/-! ### The end of a run: an ACQ.RUN or a DEC.RUN ends by its own response and by nothing else
(42_acquisition_loop.md R163, 45_decode_driver.md R212; log 12, 14) -/

/-- No ACQ.RUN is in progress any more. -/
def endAcqRun (s : State) : State := { s with acq := { s.acq with runActive := false } }

/-- No DEC.RUN is in progress any more. -/
def endDecRun (s : State) : State := { s with dec := { s.dec with run := .idle } }

/-- Ends an ACQ command: `k` when its micro-operations are done, the exit sequence when one raised. -/
def settleAcq {α : Type} (m : Micro α) (k : α → State → State) : Host.Outcome State Fault Refusal :=
  match m with
  | .done a s => .next (k a s)
  | .raised c s => exitAcq c s
  | .fault r => .fault r
  | .refused r => .refused r

/-- Ends a DEC command: `k` when its micro-operations are done, the exit sequence when one raised. -/
def settleDec {α : Type} (m : Micro α) (k : α → State → State) : Host.Outcome State Fault Refusal :=
  match m with
  | .done a s => .next (k a s)
  | .raised c s => .next (exitDec c s)
  | .fault r => .fault r
  | .refused r => .refused r

end Sys2Proof.Machine
end

