-- ==== Sys2Proof/Machine/Packer.lean ====
section
/-! DEFINITION. BitPacker: PACK.ADD, PACK.FLUSH, PACK.CLOSE, and the self-test verifier VFY.CHECK
(41_bit_packer_unpacker.md R140 to R142, R147). -/

namespace Sys2Proof.Machine

/-- `((pk_word << 1) | b) mod 2^32` (41_bit_packer_unpacker.md R140). -/
def shiftIn (w : Word) (b : Bool) : Word := (w <<< 1) ||| (BitVec.ofBool b).zeroExtend 32

/-- PACK.ADD as a micro-operation (41_bit_packer_unpacker.md R140). -/
def packBit (b : Bool) (s : State) : Micro Unit :=
  if s.acq.pkNbits + 1 = 32 then
    let stored : State := { s with acq := { s.acq with
      pkBatch := s.acq.pkBatch ++ [shiftIn s.acq.pkWord b]
      pkWord := 0
      pkNbits := 0 } }
    if stored.acq.pkBatch.length = s.cfg.batchWords then packFlush stored else .done () stored
  else
    .done () { s with acq := { s.acq with
      pkWord := shiftIn s.acq.pkWord b
      pkNbits := s.acq.pkNbits + 1 } }

/-- VFY.CHECK (41_bit_packer_unpacker.md R147). -/
def verifyCheck (v off : Word) (s : State) : State :=
  if v = verifyExpect s.cfg.verify off then s
  else
    { s with acq := { s.acq with
      vfyFirstOff := if s.acq.vfyMismatch = 0 then off else s.acq.vfyFirstOff
      vfyFirstGot := if s.acq.vfyMismatch = 0 then v else s.acq.vfyFirstGot
      vfyMismatch := s.acq.vfyMismatch + 1
      fVerifyErr := true } }

/-- A packer command answers RC_OK with value 0 (30_encoding.md R96). -/
def packerCommand (m : State → Micro Unit) (s : State) : Host.Outcome State Fault Refusal :=
  if s.acq.acqState = .stopped then refuseInState s
  else settleAcq (m s) fun _ s' => s'.respond .ok 0

/-- PACK.ADD b (41_bit_packer_unpacker.md R140). -/
def execPackAdd (b : Bool) (s : State) : Host.Outcome State Fault Refusal :=
  packerCommand (packBit b) s

/-- PACK.FLUSH (41_bit_packer_unpacker.md R141). -/
def execPackFlush (s : State) : Host.Outcome State Fault Refusal := packerCommand packFlush s

/-- PACK.CLOSE (41_bit_packer_unpacker.md R142). -/
def execPackClose (s : State) : Host.Outcome State Fault Refusal := packerCommand packClose s

end Sys2Proof.Machine
end

