-- ==== Sys2Proof/Machine/RingConsumer.lean ====
section
/-! DEFINITION. RingBufferConsumer: ACQ.POLL and its micro-operations (40_ring_consumer.md R110 to R120). -/

namespace Sys2Proof.Machine

/-- RB.CANCELCHK (40_ring_consumer.md R111). -/
def rbCancelChk (s : State) : Micro Unit :=
  if s.acq.cancel then .raised .cancelled { s with acq := { s.acq with fCancelled := true } }
  else .done () s

/-- RB.SNAPSHOT (40_ring_consumer.md R112). -/
def rbSnapshot (s : State) : Micro Word := ctrlRead .after s

/-- RB.SPANS(L, W): the readable offset ranges `(b, e)`, half open, in temporal order
(40_ring_consumer.md R113). -/
def rbSpans (cap : Nat) (l w : Word) : List (Nat × Nat) :=
  if l.toNat % cap > w.toNat % cap then [(l.toNat % cap, cap), (0, w.toNat % cap)]
  else [(l.toNat % cap, w.toNat % cap)]

/-- The combined length of spans: `sum of (e − b)` (40_ring_consumer.md R110). -/
def spanBytes : List (Nat × Nat) → Nat
  | [] => 0
  | sp :: rest => (sp.2 - sp.1) + spanBytes rest

/-- RB.SAMPLE(s, off): to the verifier in self-test mode, else the signal bit to the packer
(40_ring_consumer.md R114). -/
def rbSample (v off : Word) (s : State) : Micro Unit :=
  if s.cfg.testMode then .done () (verifyCheck v off s) else packBit (v.getLsbD s.cfg.signalBit) s

/-- The inner loop of ACQ.POLL: `n` Samples from offset `o`, the running byte offset `off` of the next
Sample being the result (40_ring_consumer.md R110, R115). -/
def sampleLoop : Nat → Nat → Word → State → Micro Word
  | 0, _, off, s => .done off s
  | n + 1, o, off, s =>
    (memRead o s).bind fun v s1 =>
      (rbSample v off s1).bind fun _ s2 => sampleLoop n (o + 4) (add32 off 4) s2

/-- How many times `while o < e: … o <- o + 4` runs from `o = b`. -/
def samplesIn (sp : Nat × Nat) : Nat := (sp.2 - sp.1 + 3) / 4

/-- The outer loop of ACQ.POLL, span by span (40_ring_consumer.md R110, R115). -/
def spanLoop : List (Nat × Nat) → Word → State → Micro Word
  | [], off, s => .done off s
  | sp :: rest, off, s =>
    (sampleLoop (samplesIn sp) sp.1 off s).bind fun off' s' => spanLoop rest off' s'

/-- RB.ADVANCE(W) (40_ring_consumer.md R118). -/
def rbAdvance (w : Word) (s : State) : State := { s with acq := { s.acq with lastRead := w } }

/-- RB.STATS(n, unread) (40_ring_consumer.md R119). -/
def rbStats (n : Nat) (unread : Word) (s : State) : State :=
  { s with acq := { s.acq with
    totalBytes := s.acq.totalBytes + BitVec.ofNat 64 n
    pollCount := s.acq.pollCount + 1
    peakUnread := maxWord s.acq.peakUnread unread } }

/-- RB.OVRCHK(B): a distance above CAPACITY is an overrun (40_ring_consumer.md R120). -/
def rbOvrChk (b : Word) (s : State) : Micro Unit :=
  if (sub32 b s.acq.lastRead).toNat > capBytes s.cfg then
    .raised .overrun { s with acq := { s.acq with
      fOverrun := true
      ovrBefore := b
      ovrLast := s.acq.lastRead
      ovrGap := sub32 b s.acq.lastRead } }
  else .done () s

/-- The poll from its snapshot W on (40_ring_consumer.md R110): its result is n, the bytes consumed. -/
def pollFrom (w : Word) (s : State) : Micro Nat :=
  let spans := rbSpans (capBytes s.cfg) s.acq.lastRead w
  let unread := sub32 w s.acq.lastRead
  (spanLoop spans s.acq.lastRead (barrier s)).bind fun _ s1 =>
    (ctrlRead .before (barrier (rbStats (spanBytes spans) unread (rbAdvance w s1)))).bind fun b s2 =>
      (rbOvrChk b s2).bind fun _ s3 => .done (spanBytes spans) s3

/-- One poll, without the response (40_ring_consumer.md R110). -/
def poll (s : State) : Micro Nat :=
  (rbCancelChk s).bind fun _ s1 => (rbSnapshot s1).bind fun w s2 => pollFrom w s2

/-- ACQ.POLL (40_ring_consumer.md R110). -/
def execAcqPoll (s : State) : Host.Outcome State Fault Refusal :=
  if s.acq.acqState = .running then
    settleAcq (poll s) fun n s' => s'.respond .ok (BitVec.ofNat 32 n)
  else refuseInState s

end Sys2Proof.Machine
end

