-- ==== Sys2Proof/Machine/Acquisition.lean ====
section
/-! DEFINITION. AcquisitionLoop: ACQ.INIT, ACQ.CANCEL, ACQ.STOP, ACQ.RUN (42_acquisition_loop.md R160 to R163). -/

namespace Sys2Proof.Machine

/-- The registers that ACQ.INIT clears: all of the ACQ unit but `cancel` (42_acquisition_loop.md R160).
What no register of the rule names is kept. -/
def clearForInit (a : Acq) : Acq :=
  { a with
    lastRead := 0
    fOverrun := false
    fIoErr := false
    fCfgErr := false
    fCancelled := false
    fVerifyErr := false
    acqCause := .none
    acqExit := 0
    ovrBefore := 0
    ovrLast := 0
    ovrGap := 0
    totalBytes := 0
    pollCount := 0
    peakUnread := 0
    pkWord := 0
    pkNbits := 0
    pkBatch := []
    vfyMismatch := 0
    vfyFirstOff := 0
    vfyFirstGot := 0 }

/-- The accesses of ACQ.INIT, in order (42_acquisition_loop.md R160; 20_memory.md R62, R64). -/
def programProducer (s : State) : State :=
  prodStart (barrier
    (ctrlWrite .choke s.cfg.choke
      (ctrlWrite .size s.cfg.capacity (ctrlWrite .base s.cfg.shmBase (prodReset s)))))

/-- ACQ.INIT (42_acquisition_loop.md R160). -/
def execAcqInit (s : State) : Host.Outcome State Fault Refusal :=
  if s.acq.acqState = .idle then
    if acqCfgOk s.cfg then
      let started := programProducer { s with acq := clearForInit s.acq }
      .next (State.respond { started with acq := { started.acq with acqState := .running } } .ok 0)
    else exitAcq .cfgErr { s with acq := { s.acq with fCfgErr := true } }
  else refuseInState s

/-- ACQ.CANCEL, the one step of the signal context (42_acquisition_loop.md R161). -/
def execAcqCancel (s : State) : Host.Outcome State Fault Refusal :=
  .next (State.respond { s with acq := { s.acq with cancel := true } } .ok 0)

/-- ACQ.STOP (42_acquisition_loop.md R162). -/
def execAcqStop (s : State) : Host.Outcome State Fault Refusal :=
  if s.acq.acqState = .running then
    exitAcq .cancelled { s with acq := { s.acq with fCancelled := true } }
  else refuseInState s

/-- One iteration of ACQ.RUN: one poll; the run answers, and ends, only when the poll's response is
RC_EXIT (42_acquisition_loop.md R163; log 12). -/
def acqRunPoll (s : State) : Host.Outcome State Fault Refusal :=
  settleAcq ((poll s).onRaise endAcqRun) fun _ s' => { s' with acq := { s'.acq with runActive := true } }

/-- ACQ.RUN: its first iteration (42_acquisition_loop.md R163; log 12). -/
def execAcqRun (s : State) : Host.Outcome State Fault Refusal :=
  if s.acq.acqState = .running then acqRunPoll s else refuseInState s

/-- A later iteration of an ACQ.RUN in progress. Its poll is refused outside RUNNING, which is not
RC_EXIT, so the loop goes on (42_acquisition_loop.md R163, 30_encoding.md R94). -/
def acqRunTurn (s : State) : Host.Outcome State Fault Refusal :=
  if s.acq.acqState = .running then acqRunPoll s else .next s

end Sys2Proof.Machine
end

