-- ==== Sys2Proof/Machine/FrameDecoder.lean ====
section
/-! DEFINITION. FrameDecoder: the window function and FRM.BIT, FRM.EVAL, FRM.SHIFT, FRM.RESYNC
(44_frame_decoder.md R185 to R196). -/

namespace Sys2Proof.Machine

/-- Sample i of a window; one outside it is a free value, which no window of FRS(fl) samples with
fl ≥ 11 reads (44_frame_decoder.md R194; log 17). -/
def windowAt (w : List Bool) (i : Nat) : Bool := w.getD i (Config.unspecifiedSample i)

/-- FRM.VOTE(i): the AND of the first three samples of the cell (44_frame_decoder.md R187). -/
def vote (w : List Bool) (fl i : Nat) : Bool :=
  windowAt w (ofs fl i) && windowAt w (ofs fl i + 1) && windowAt w (ofs fl i + 2)

/-- FRM.ASSEMBLE: v[1] is the most significant bit, or the least (44_frame_decoder.md R189). -/
def assemble (order : BitOrder) (v : Nat → Bool) : Byte :=
  match order with
  | .msbFirst => BitVec.ofBoolListBE [v 1, v 2, v 3, v 4, v 5, v 6, v 7, v 8]
  | .lsbFirst => BitVec.ofBoolListLE [v 1, v 2, v 3, v 4, v 5, v 6, v 7, v 8]

/-- The least index from `j` on, within `n` indices, whose sample is 0. -/
def searchFrom (w : List Bool) : Nat → Nat → Option Nat
  | 0, _ => none
  | n + 1, j => if windowAt w j then searchFrom w n (j + 1) else some j

/-- FRM.SEARCH: the first 0 sample among SCAN0(fl) .. N−1 (44_frame_decoder.md R191). -/
def search (w : List Bool) (fl : Nat) : Option Nat := searchFrom w (frs fl - scan0 fl) (scan0 fl)

/-- What a window evaluates to (44_frame_decoder.md R196); `next` is none when the search is exhausted. -/
inductive WindowResult where
  | framingFail
  | byte (b : Byte) (next : Option Nat)
  deriving DecidableEq, Repr

/-- `eval_window(w, fl, order)` (44_frame_decoder.md R196). -/
def evalWindow (w : List Bool) (fl : Nat) (order : BitOrder) : WindowResult :=
  if vote w fl 0 = true ∨ vote w fl 9 = false then .framingFail
  else .byte (assemble order (vote w fl)) (search w fl)

/-- FRM.RESYNC: the entry into SYNC (44_frame_decoder.md R193, 43_sync_detector.md R178). -/
def frmResync (s : State) : State :=
  { s with dec := { s.dec with phase := .sync SyncFields.entry } }

/-- FRM.SHIFT(j): the window begins at its sample j (44_frame_decoder.md R192). -/
def frmShift (f : DecodeFields) (j : Nat) : DecodeFields :=
  { f with
    buf := f.buf.drop j
    frameStart := f.frameStart + BitVec.ofNat 64 j }

/-- Counts and emits the byte of a valid window (44_frame_decoder.md R186, R190). -/
def frmEmit (b : Byte) (s : State) : State :=
  let s1 := emitByte b s
  { s1 with dec := { s1.dec with nBytes := s1.dec.nBytes + 1 } }

/-- FRM.EVAL on the full window of `f` (44_frame_decoder.md R186). -/
def frmEval (f : DecodeFields) (s : State) : Micro DecEvent :=
  match evalWindow f.buf f.frameLength s.cfg.bitOrder with
  | .framingFail =>
    .done .framingFail
      (frmResync { s with dec := { s.dec with nFramingFail := s.dec.nFramingFail + 1 } })
  | .byte b (some j) =>
    let s1 := frmEmit b s
    .done (.byte b) { s1 with dec := { s1.dec with phase := .decode (frmShift f j) } }
  | .byte b none =>
    let s1 := frmEmit b s
    .done (.byteExhausted b)
      (frmResync { s1 with dec := { s1.dec with nResyncExhaust := s1.dec.nResyncExhaust + 1 } })

/-- FRM.BIT(b) (44_frame_decoder.md R185). -/
def frmBit (f : DecodeFields) (b : Bool) (s : State) : Micro DecEvent :=
  let f1 : DecodeFields := { f with buf := f.buf ++ [b] }
  if f1.buf.length = frs f.frameLength then frmEval f1 s
  else .done .none { s with dec := { s.dec with phase := .decode f1 } }

end Sys2Proof.Machine
end

