-- ==== Sys2Proof/Machine/SyncDetector.lean ====
section
/-! DEFINITION. SyncDetector: SYNC.BIT and SYNC.COMMIT (43_sync_detector.md R175, R176, R179). -/

namespace Sys2Proof.Machine

/-- SYNC.COMMIT: the falling-edge bit is sample 0 of the window (43_sync_detector.md R176). A LEARN
outside 11..FRAME_LEN_MAX is refused (R179, 93_implementation_defined.md U6; log 10). -/
def syncCommit (f : SyncFields) (b : Bool) (off : DWord) (s : State) : Micro DecEvent :=
  let fl := learn s.cfg.learn s.cfg.frameLen f.consecutiveHighs.toNat
  if 11 ≤ fl ∧ fl ≤ s.cfg.frameLenMax then
    .done .commit { s with dec := { s.dec with
      phase := .decode { frameLength := fl, buf := [b], frameStart := off }
      nSync := s.dec.nSync + 1 } }
  else .refused (.learnOutOfRange fl)

/-- The SYNC fields after a bit that does not commit (43_sync_detector.md R175). -/
def syncNext (f : SyncFields) (b : Bool) : SyncFields :=
  { consecutiveHighs :=
      if b then sat32 (f.consecutiveHighs.toNat + 1)
      else if f.lastBit then 0 else f.consecutiveHighs
    lastBit := b }

/-- SYNC.BIT(b, off) (43_sync_detector.md R175). -/
def syncBit (f : SyncFields) (b : Bool) (off : DWord) (s : State) : Micro DecEvent :=
  if b = false ∧ f.lastBit = true ∧ syncMin s.cfg.frameLen ≤ f.consecutiveHighs.toNat then
    syncCommit f b off s
  else .done .none { s with dec := { s.dec with phase := .sync (syncNext f b) } }

end Sys2Proof.Machine
end

