-- ==== Sys2Proof/Machine/Unpacker.lean ====
section
/-! DEFINITION. BitUnpacker: UNPK.GET and UNPK.REFILL (41_bit_packer_unpacker.md R144, R145). -/

namespace Sys2Proof.Machine

/-- The condition under which UNPK.GET, DEC.BIT and DEC.RUN are accepted (30_encoding.md R94). -/
def decReady (s : State) : Bool := !s.dec.upIoErr && decCfgOk s.cfg

/-- UNPK.REFILL (41_bit_packer_unpacker.md R145): whether there is data; IO_ERR when the source fails. -/
def unpkRefill (s : State) : Micro Bool :=
  (sourceRead s.cfg.batchWords s).bind fun ans s1 =>
    match ans with
    | .data ws => .done true { s1 with dec := { s1.dec with upBatch := ws, upWidx := 0 } }
    | .eos => .done false { s1 with dec := { s1.dec with upEos := true, decCause := .eos, decExit := 0 } }
    | .err => .raised .ioErr { s1 with dec := { s1.dec with upIoErr := true } }

/-- Takes the next buffered word as the current word (41_bit_packer_unpacker.md R144). An element at or
above `up_nwords` is a free value, which no reachable state reads (log 17). -/
def unpkNextWord (s : State) : State :=
  { s with dec := { s.dec with
    upWord := s.dec.upBatch.getD s.dec.upWidx (Config.unspecifiedWord s.dec.upWidx)
    upWidx := s.dec.upWidx + 1
    upNleft := 32 } }

/-- Yields the next bit of the current word, most significant first (41_bit_packer_unpacker.md R144). -/
def unpkTakeBit (s : State) : Micro (Option Bool) :=
  .done (some (s.dec.upWord.getLsbD (s.dec.upNleft - 1)))
    { s with dec := { s.dec with upNleft := s.dec.upNleft - 1 } }

/-- UNPK.GET without the response: a bit, or `none` at the end of the stream
(41_bit_packer_unpacker.md R144). -/
def unpkBit (s : State) : Micro (Option Bool) :=
  if s.dec.upEos then .done none s
  else if s.dec.upNleft = 0 then
    if s.dec.upWidx = s.dec.upBatch.length then
      (unpkRefill s).bind fun more s1 => if more then unpkTakeBit (unpkNextWord s1) else .done none s1
    else unpkTakeBit (unpkNextWord s)
  else unpkTakeBit s

/-- The response of UNPK.GET (41_bit_packer_unpacker.md R144). -/
def respondBit (r : Option Bool) (s : State) : State :=
  match r with
  | some b => s.respond .ok (BitVec.ofNat 32 b.toNat)
  | none => s.respond .eos 0

/-- UNPK.GET (41_bit_packer_unpacker.md R144). -/
def execUnpkGet (s : State) : Host.Outcome State Fault Refusal :=
  if decReady s then settleDec (unpkBit s) respondBit else refuseInState s

end Sys2Proof.Machine
end

