-- ==== Sys2Proof/Machine/DecodeDriver.lean ====
section
/-! DEFINITION. The decode driver DEC.RESET, DEC.BIT, DEC.RUN and the status read RDSR
(45_decode_driver.md R205, R206, R212, R215). -/

namespace Sys2Proof.Machine

/-- DEC.RESET (45_decode_driver.md R205). A DEC.RUN in progress goes on from the reset unit (log 14). -/
def execDecReset (s : State) : Host.Outcome State Fault Refusal :=
  let fresh : State := { s with dec := { Dec.reset with run := s.dec.run } }
  if decCfgOk s.cfg then .next (fresh.respond .ok 0) else .next (exitDec .cfgErr fresh)

/-- DEC.BIT without the response (45_decode_driver.md R206). -/
def decodeBit (b : Bool) (s : State) : Micro DecEvent :=
  let s1 : State := { s with dec := { s.dec with bitOffset := s.dec.bitOffset + 1 } }
  match s.dec.phase with
  | .sync f => syncBit f b s.dec.bitOffset s1
  | .decode f => frmBit f b s1

/-- DEC.BIT b (45_decode_driver.md R206). -/
def execDecBit (b : Bool) (s : State) : Host.Outcome State Fault Refusal :=
  if decReady s then settleDec (decodeBit b s) fun ev s' => s'.respond .ok ev.word
  else refuseInState s

/-- What DEC.RUN does with an answer of UNPK.GET: a bit is given to DEC.BIT in the next step; the end of
the stream ends the run (45_decode_driver.md R212; log 12). -/
def decRunGot (r : Option Bool) (s : State) : State :=
  match r with
  | some b => { s with dec := { s.dec with run := .bit b } }
  | none => (endDecRun s).respond .eos 0

/-- A UNPK.GET step of DEC.RUN; an error of the source ends the run (45_decode_driver.md R212). -/
def decRunFetch (s : State) : Host.Outcome State Fault Refusal :=
  settleDec ((unpkBit s).onRaise endDecRun) decRunGot

/-- A DEC.BIT step of DEC.RUN (45_decode_driver.md R212). -/
def decRunBit (b : Bool) (s : State) : Host.Outcome State Fault Refusal :=
  settleDec (decodeBit b s) fun _ s' => { s' with dec := { s'.dec with run := .fetch } }

/-- DEC.RUN: its first step (45_decode_driver.md R212; log 12). -/
def execDecRun (s : State) : Host.Outcome State Fault Refusal :=
  if decReady s then decRunFetch s else refuseInState s

/-- A later step of a DEC.RUN in progress (45_decode_driver.md R212). -/
def decRunTurn (s : State) : Host.Outcome State Fault Refusal :=
  match s.dec.run with
  | .idle => .next s
  | .fetch => decRunFetch s
  | .bit b => decRunBit b s

/-- RDSR n; of an unlisted number it is an illegal command (45_decode_driver.md R215, 30_encoding.md R93). -/
def execRdsr (n : Byte) (s : State) : Host.Outcome State Fault Refusal :=
  match statusRegister s n with
  | some v => .next (s.respond .ok v)
  | none => .next (s.respond .illegal 0)

end Sys2Proof.Machine
end

