-- ==== Sys2Proof/Machine/Reset.lean ====
section
/-! DEFINITION. RESET (70_reset_and_hazards.md R250). -/

namespace Sys2Proof.Machine

/-- RESET: stop a running producer, then every register at its value of 10_state.md R43; the
configuration, the regions and the streams are kept (70_reset_and_hazards.md R250). A run in progress is
no register: it goes on, and its command still has its one response to give (30_encoding.md R95; log 14). -/
def execReset (s : State) : Host.Outcome State Fault Refusal :=
  let s1 := if s.acq.acqState = .running then prodStop (barrier s) else s
  .next (State.respond { s1 with
    acq := { Acq.reset with runActive := s.acq.runActive }
    dec := { Dec.reset with run := s.dec.run } } .ok 0)

end Sys2Proof.Machine
end

