-- ==== Sys2Proof/Machine/Dispatch.lean ====
section
/-! DEFINITION. One arm per command (30_encoding.md R91). -/

namespace Sys2Proof.Machine

def exec (i : Instr) (s : State) : Host.Outcome State Fault Refusal :=
  match i with
  | .reset => Sys2Proof.Machine.execReset s
  | .acqInit => Sys2Proof.Machine.execAcqInit s
  | .acqPoll => Sys2Proof.Machine.execAcqPoll s
  | .acqCancel => Sys2Proof.Machine.execAcqCancel s
  | .acqStop => Sys2Proof.Machine.execAcqStop s
  | .acqRun => Sys2Proof.Machine.execAcqRun s
  | .packAdd bit => Sys2Proof.Machine.execPackAdd bit s
  | .packFlush => Sys2Proof.Machine.execPackFlush s
  | .packClose => Sys2Proof.Machine.execPackClose s
  | .unpkGet => Sys2Proof.Machine.execUnpkGet s
  | .decReset => Sys2Proof.Machine.execDecReset s
  | .decBit bit => Sys2Proof.Machine.execDecBit bit s
  | .decRun => Sys2Proof.Machine.execDecRun s
  | .rdsr n => Sys2Proof.Machine.execRdsr n s

end Sys2Proof.Machine
end

