-- ==== Sys2Proof/Machine/Schedule.lean ====
section
/-! DEFINITION. Which agent moves next: taking a command word from the port, and the turns of runs in
progress (30_encoding.md R90; 60_exceptions.md R239; log 1, 13). -/

namespace Sys2Proof.Machine

/-- Is the ACQ unit busy with an ACQ.RUN: one is in progress, and the unit is RUNNING? After a RESET an
ACQ.RUN in progress polls in vain until ACQ.INIT enters RUNNING again, and holds nothing back (log 14). -/
def acqBusy (s : State) : Bool := s.acq.runActive && decide (s.acq.acqState = .running)

/-- Does the port hold this command back because a run of its unit is in progress? While the ACQ unit is
busy with an ACQ.RUN it takes ACQ.CANCEL, RDSR and RESET only (93_implementation_defined.md U15; log 13);
while a DEC.RUN is in progress the DEC unit takes DEC.RESET, RDSR and RESET only. -/
def heldBack (i : Instr) (s : State) : Bool :=
  match i with
  | .acqInit | .acqPoll | .acqStop | .acqRun => acqBusy s
  | .packAdd _ | .packFlush | .packClose => acqBusy s
  | .unpkGet | .decBit _ | .decRun => decide (s.dec.run ≠ .idle)
  | .reset | .acqCancel | .decReset | .rdsr _ => false

/-- Is it the ACQ unit that a command addresses (30_encoding.md R91)? -/
def addressesAcq : Instr → Bool
  | .acqInit | .acqPoll | .acqCancel | .acqStop | .acqRun => true
  | .packAdd _ | .packFlush | .packClose => true
  | .reset | .unpkGet | .decReset | .decBit _ | .decRun | .rdsr _ => false

/-- What the next step is, with the state it starts from. -/
inductive Turn where
  /-- Nothing is commanded and nothing runs (60_exceptions.md R241). -/
  | rest (s : State)
  /-- An illegal command word (30_encoding.md R93). -/
  | illegal (s : State)
  /-- A command is taken from the port. -/
  | command (i : Instr) (s : State)
  /-- The next step of an ACQ.RUN in progress. -/
  | acqRun (s : State)
  /-- The next step of a DEC.RUN in progress. -/
  | decRun (s : State)

/-- With no input left, a run in progress goes on by itself (log 1). -/
def turnWithoutInput (s : State) : Turn :=
  if acqBusy s then .acqRun s
  else if s.dec.run ≠ .idle then .decRun s
  else .rest s

/-- Takes the first input. A command that is held back stays on the port while the unit it addresses
goes on with its run (log 13). -/
def nextTurn (s : State) : Turn :=
  match s.port.inputs with
  | [] => turnWithoutInput s
  | .acqTurn :: rest =>
    let s1 : State := { s with port := { s.port with inputs := rest } }
    if s.acq.runActive then .acqRun s1 else .rest s1
  | .decTurn :: rest => .decRun { s with port := { s.port with inputs := rest } }
  | .command w :: rest =>
    let s1 : State := { s with port := { s.port with inputs := rest } }
    match decode w with
    | .ok i =>
      if heldBack i s then (if addressesAcq i then .acqRun s else .decRun s) else .command i s1
    | .error _ => .illegal s1

/-- A state in which the port does not hold this command back: the run of its unit, if one is in
progress, is taken away. -/
def withoutRunAgainst (i : Instr) (s : State) : State :=
  if heldBack i s then
    (if addressesAcq i then endAcqRun s else endDecRun s)
  else s

/-- Puts a command word at the head of the port, in a state that takes it at once. -/
def offerCommand (w : CmdWord) (s : State) : State :=
  let s1 := match decode w with
    | .ok i => withoutRunAgainst i s
    | .error _ => s
  { s1 with port := { s1.port with inputs := .command w :: s1.port.inputs } }

/-- An illegal command answers RC_ILLEGAL and changes nothing else (30_encoding.md R93). -/
def refuseIllegal (s : State) : State := s.respond .illegal 0

end Sys2Proof.Machine
end

