-- ==== Sys2Proof/Machine/Step.lean ====
section
/-! DEFINITION. One step of the machine (00_scope.md R14). -/

namespace Sys2Proof.Machine

/-- One step: the next agent's turn (60_exceptions.md R239). -/
def step (s : State) : Host.Outcome State Fault Refusal :=
  match nextTurn s with
  | .rest s' => .next s'
  | .illegal s' => .next (refuseIllegal s')
  | .command i s' => exec i s'
  | .acqRun s' => acqRunTurn s'
  | .decRun s' => decRunTurn s'

/-- `s` with a command word (the low `nbits` bits of `w`) offered on the command port, so that the next
step takes and runs it (log 1). -/
def State.withFetchWord (s : State) (nbits w : Nat) : State :=
  offerCommand (BitVec.ofNat 40 (w % 2 ^ nbits)) s

end Sys2Proof.Machine
end

