-- ==== Sys2Proof/Machine/Assembler.lean ====
section
/-! DEFINITION. The assembler and its two pseudo-instructions, from text (lists of characters) to
command words (30_encoding.md R101, R102; log 27). -/

namespace Sys2Proof.Machine

/-- The names of the status registers (10_state.md R41, 30_encoding.md R101). -/
def statusRegName : StatusReg → String
  | .acqState => "ACQ_STATE" | .acqFlags => "ACQ_FLAGS" | .acqCause => "ACQ_CAUSE"
  | .lastRead => "LAST_READ"
  | .totalBytesLo => "TOTAL_BYTES_LO" | .totalBytesHi => "TOTAL_BYTES_HI"
  | .pollCountLo => "POLL_COUNT_LO" | .pollCountHi => "POLL_COUNT_HI"
  | .peakUnread => "PEAK_UNREAD"
  | .ovrBefore => "OVR_BEFORE" | .ovrLast => "OVR_LAST" | .ovrGap => "OVR_GAP"
  | .pkWord => "PK_WORD" | .pkFill => "PK_FILL"
  | .vfyMismatchLo => "VFY_MISMATCH_LO" | .vfyMismatchHi => "VFY_MISMATCH_HI"
  | .vfyFirstOff => "VFY_FIRST_OFF" | .vfyFirstGot => "VFY_FIRST_GOT"
  | .decPhase => "DEC_PHASE" | .decCause => "DEC_CAUSE" | .consecHighs => "CONSEC_HIGHS"
  | .frameLength => "FRAME_LENGTH" | .bufCount => "BUF_COUNT"
  | .frameStartLo => "FRAME_START_LO" | .frameStartHi => "FRAME_START_HI"
  | .bitOffsetLo => "BIT_OFFSET_LO" | .bitOffsetHi => "BIT_OFFSET_HI"
  | .nBytesLo => "N_BYTES_LO" | .nBytesHi => "N_BYTES_HI"
  | .nFramingFailLo => "N_FRAMING_FAIL_LO" | .nFramingFailHi => "N_FRAMING_FAIL_HI"
  | .nResyncExhaustLo => "N_RESYNC_EXHAUST_LO" | .nResyncExhaustHi => "N_RESYNC_EXHAUST_HI"
  | .nSyncLo => "N_SYNC_LO" | .nSyncHi => "N_SYNC_HI"
  | .cfgCapacity => "CFG_CAPACITY" | .cfgMinCapacity => "CFG_MIN_CAPACITY"
  | .cfgShmBase => "CFG_SHM_BASE" | .cfgChoke => "CFG_CHOKE"
  | .cfgSignalBit => "CFG_SIGNAL_BIT" | .cfgTestMode => "CFG_TEST_MODE"
  | .cfgBatchWords => "CFG_BATCH_WORDS" | .cfgFrameLen => "CFG_FRAME_LEN"
  | .cfgFrameLenMax => "CFG_FRAME_LEN_MAX" | .cfgFrameLenTol => "CFG_FRAME_LEN_TOL"
  | .cfgBitOrder => "CFG_BIT_ORDER"

/-- One item of a pattern: a string of bits, or `b*n` (30_encoding.md R102). -/
inductive PatternItem where
  | bits (bs : List Bool)
  | rep (b : Bool) (n : Nat)
  deriving DecidableEq, Repr

/-- The bits that a pattern stands for, left to right (30_encoding.md R102). -/
def patternBits (items : List PatternItem) : List Bool :=
  items.flatMap fun
    | .bits bs => bs
    | .rep b n => List.replicate n b

/-- PACK.BITS (30_encoding.md R102). -/
def packBits (items : List PatternItem) : List Instr := (patternBits items).map .packAdd

/-- DEC.BITS (30_encoding.md R102). -/
def decBits (items : List PatternItem) : List Instr := (patternBits items).map .decBit

/-- A bit, `0` or `1`. -/
def bitOfChar (c : Char) : Option Bool :=
  if c = '0' then some false else if c = '1' then some true else none

/-- A digit below `base`, decimal digits and the letters A to F of either case. -/
def digitOfChar (base : Nat) (c : Char) : Option Nat :=
  let d :=
    if '0' ≤ c ∧ c ≤ '9' then c.toNat - '0'.toNat
    else if 'a' ≤ c ∧ c ≤ 'f' then c.toNat - 'a'.toNat + 10
    else if 'A' ≤ c ∧ c ≤ 'F' then c.toNat - 'A'.toNat + 10
    else base
  if d < base then some d else none

/-- A number of at least one digit. -/
def numberOfChars (base : Nat) (cs : List Char) : Option Nat :=
  if cs = [] then none
  else cs.foldl (fun acc c => acc.bind fun a => (digitOfChar base c).map (base * a + ·)) (some 0)

/-- A register number in decimal or `0x` hexadecimal, or a register's name (30_encoding.md R101). -/
def registerOfToken (t : List Char) : Option Byte :=
  let named := statusRegTable.find? fun row => (statusRegName row.2).toList == t
  match named, t with
  | some row, _ => some row.1
  | none, '0' :: 'x' :: digits =>
    (numberOfChars 16 digits).bind fun n => if n < 256 then some (BitVec.ofNat 8 n) else none
  | none, digits =>
    (numberOfChars 10 digits).bind fun n => if n < 256 then some (BitVec.ofNat 8 n) else none

/-- An item of a pattern (30_encoding.md R102). -/
def itemOfToken (t : List Char) : Option PatternItem :=
  match t with
  | c :: '*' :: digits =>
    (bitOfChar c).bind fun b => (numberOfChars 10 digits).map fun n => .rep b n
  | cs => (cs.mapM bitOfChar).map .bits

/-- The white space that separates tokens. -/
def isBlank (c : Char) : Bool := c == ' ' || c == '\t' || c == '\r'

/-- Splits characters at those that `p` picks out. -/
def splitChars (p : Char → Bool) : List Char → List (List Char)
  | [] => [[]]
  | c :: cs =>
    match splitChars p cs with
    | [] => [[c]]
    | t :: ts => if p c then [] :: t :: ts else (c :: t) :: ts

/-- The tokens of a line, its comment left out (30_encoding.md R101). -/
def tokensOfLine (line : List Char) : List (List Char) :=
  (splitChars isBlank (line.takeWhile (· ≠ ';'))).filter (· ≠ [])

/-- The commands without operand, by mnemonic (30_encoding.md R91). -/
def plainMnemonics : List (String × Instr) :=
  [("RESET", .reset), ("ACQ.INIT", .acqInit), ("ACQ.POLL", .acqPoll), ("ACQ.CANCEL", .acqCancel),
   ("ACQ.STOP", .acqStop), ("ACQ.RUN", .acqRun), ("PACK.FLUSH", .packFlush),
   ("PACK.CLOSE", .packClose), ("UNPK.GET", .unpkGet), ("DEC.RESET", .decReset),
   ("DEC.RUN", .decRun)]

/-- A mnemonic with its one operand (30_encoding.md R101). -/
def assembleOperand (mnemonic operand : List Char) : Option Instr :=
  if mnemonic = "PACK.ADD".toList then
    (if operand.length = 1 then operand.head?.bind bitOfChar else none).map .packAdd
  else if mnemonic = "DEC.BIT".toList then
    (if operand.length = 1 then operand.head?.bind bitOfChar else none).map .decBit
  else if mnemonic = "RDSR".toList then (registerOfToken operand).map .rdsr
  else none

/-- One line of assembler: the commands it stands for, none if it is malformed
(30_encoding.md R101, R102). -/
def assembleLine (line : List Char) : Option (List Instr) :=
  match tokensOfLine line with
  | [] => some []
  | m :: operands =>
    if m = "PACK.BITS".toList then (operands.mapM itemOfToken).map packBits
    else if m = "DEC.BITS".toList then (operands.mapM itemOfToken).map decBits
    else
      match operands with
      | [] => (plainMnemonics.find? fun row => row.1.toList == m).map fun row => [row.2]
      | [operand] => (assembleOperand m operand).map fun i => [i]
      | _ => none

/-- A program text: its lines in order, each command as its 40-bit word (30_encoding.md R101). -/
def assembleText (text : List Char) : Option (List CmdWord) :=
  ((splitChars (· == '\n') text).mapM assembleLine).map fun ls => ls.flatten.map encode

end Sys2Proof.Machine
end

