-- ==== Sys2Proof/Safety.lean ====
section
/-! DEFINITION. The invariant of the machine, the views of the streams that claims use, and the
premises about the producer (20_memory.md R75 to R81). -/

namespace Sys2Proof.Machine

/-! ### The invariant -/

/-- Both regions are in canonical form. -/
def memoryCanonical (s : State) : Prop := s.env.shared.wf ∧ s.env.ctrl.wf

/-- What holds of the ACQ unit between steps. -/
structure AcqInv (s : State) : Prop where
  /-- 20_memory.md R66: `last_read` is a multiple of 4. -/
  lastReadAligned : s.acq.lastRead.toNat % 4 = 0
  /-- 10_state.md R30: `pk_nbits` is 0..31. -/
  nbitsBelow : s.acq.pkNbits < 32
  /-- 41_bit_packer_unpacker.md R140: `pk_word` holds the bits so far and no others. -/
  wordBelow : s.acq.pkWord.toNat < 2 ^ s.acq.pkNbits
  /-- 10_state.md R31: between steps `pk_nwords` is at most BATCH_WORDS − 1. -/
  batchRoom : 1 ≤ s.cfg.batchWords → s.acq.pkBatch.length < s.cfg.batchWords
  /-- 42_acquisition_loop.md R160: RUNNING is entered with a legal configuration. -/
  runningCfg : s.acq.acqState = .running → acqCfgOk s.cfg = true
  /-- 10_state.md R25: the cause is NONE while IDLE or RUNNING. -/
  causeStopped : s.acq.acqCause = .none ↔ s.acq.acqState ≠ .stopped
  /-- 60_exceptions.md R229: `acq_cause` is one of 0..4. -/
  causeCode : s.acq.acqCause ≠ .eos
  /-- 60_exceptions.md R229: `acq_exit` is 0 for cause 0 or 1, 1 for causes 2, 3, 4. -/
  exitCode : s.acq.acqExit = s.acq.acqCause.exitCode
  /-- 10_state.md R26, 40_ring_consumer.md R120: a flagged overrun has its report. -/
  overrunGap : s.acq.fOverrun = true →
    s.acq.ovrGap = sub32 s.acq.ovrBefore s.acq.ovrLast ∧ capBytes s.cfg < s.acq.ovrGap.toNat

/-- What holds of the DEC unit between steps. -/
structure DecInv (s : State) : Prop where
  /-- 10_state.md R33: `up_widx` is 0..`up_nwords`. -/
  widxBound : s.dec.upWidx ≤ s.dec.upBatch.length
  /-- 10_state.md R33: `up_nwords` is 0..BATCH_WORDS. -/
  batchBound : s.dec.upBatch.length ≤ s.cfg.batchWords
  /-- 10_state.md R33: `up_nleft` is 0..32. -/
  nleftBound : s.dec.upNleft ≤ 32
  /-- 45_decode_driver.md R212: a DEC.RUN in progress was accepted and has met no error. -/
  runReady : s.dec.run ≠ .idle → decReady s = true
  /-- 60_exceptions.md R229: `dec_cause` is one of 0, 2, 3, 5. -/
  causeCode : s.dec.decCause = .none ∨ s.dec.decCause = .cfgErr ∨ s.dec.decCause = .ioErr ∨
    s.dec.decCause = .eos
  /-- 60_exceptions.md R229: `dec_exit` is 0 for cause 0 or 5, 1 for causes 2, 3. -/
  exitCode : s.dec.decExit = s.dec.decCause.exitCode
  /-- 60_exceptions.md R227. -/
  eosCause : s.dec.upEos = true → s.dec.decCause = .eos
  /-- 60_exceptions.md R223. -/
  ioErrCause : s.dec.upIoErr = true → s.dec.decCause = .ioErr
  /-- 43_sync_detector.md R175: after a low bit the run counter is 0. -/
  syncFields : ∀ f, s.dec.phase = .sync f → f.lastBit = false → f.consecutiveHighs = 0
  /-- 10_state.md R36: in DECODE, 11 ≤ frame_length ≤ FRAME_LEN_MAX, the window is part-filled and lies
  inside the frame buffer of FRS_MAX samples (00_scope.md R8), and `buf[0]` = 0. -/
  window : ∀ f, s.dec.phase = .decode f →
    11 ≤ f.frameLength ∧ f.frameLength ≤ s.cfg.frameLenMax ∧ f.buf.head? = some false ∧
    f.buf.length < frs f.frameLength ∧ f.buf.length < frsMax s.cfg

/-- The invariant of the machine. -/
structure MachineInv (s : State) : Prop where
  memory : memoryCanonical s
  acq : AcqInv s
  dec : DecInv s

/-! ### Views of the streams -/

/-- The 32 BitStream values of a PackedWord, bit 31 first (30_encoding.md R98). -/
def wordBits (w : Word) : List Bool := (List.range 32).map fun k => w.getLsbD (31 - k)

/-- The BitStream values of a list of PackedWords (30_encoding.md R98). -/
def streamBits (ws : List Word) : List Bool := ws.flatMap wordBits

/-- The bits accumulated in a partial word, oldest first: `pk_word[pk_nbits−1 : 0]` (10_state.md R30). -/
def partialBits (w : Word) (n : Nat) : List Bool := (List.range n).map fun k => w.getLsbD (n - 1 - k)

/-- Every BitStream value the packer was given and still has or has written: the persisted words, the
batch buffer, the partial word. -/
def packedStream (s : State) : List Bool :=
  streamBits s.env.persisted ++ streamBits s.acq.pkBatch ++ partialBits s.acq.pkWord s.acq.pkNbits

/-- PACK.ADD of each bit of a list, as micro-operations. -/
def packAll : List Bool → State → Micro Unit
  | [], s => .done () s
  | b :: bs, s => (packBit b s).bind fun _ s' => packAll bs s'

/-- UNPK.GET `n` times, as micro-operations: the bits obtained, up to the end of the stream. -/
def unpackMany : Nat → State → Micro (List Bool)
  | 0, s => .done [] s
  | n + 1, s =>
    (unpkBit s).bind fun r s' =>
      match r with
      | some b => (unpackMany n s').bind fun bs s'' => .done (b :: bs) s''
      | none => .done [] s'

/-- DEC.BIT of each bit of a list, as micro-operations: the events, in order (45_decode_driver.md R207). -/
def decodeAll : List Bool → State → Micro (List DecEvent)
  | [], s => .done [] s
  | b :: bs, s =>
    (decodeBit b s).bind fun ev s' => (decodeAll bs s').bind fun evs s'' => .done (ev :: evs) s''

/-- The byte offsets that a list of spans covers, in processing order (40_ring_consumer.md R122). -/
def spanOffsets (spans : List (Nat × Nat)) : List Nat :=
  spans.flatMap fun sp => List.range' sp.1 (sp.2 - sp.1)

/-! ### The control region's layout, and the environment's good behaviour -/

/-- The five control words lie apart (00_scope.md R7: CTRL_OFF_* distinct multiples of 4). -/
def ctrlLayoutOk (cfg : Config) : Prop :=
  (∀ w, ctrlOffset cfg w % 4 = 0) ∧ ∀ w w', w ≠ w' → ctrlOffset cfg w ≠ ctrlOffset cfg w'

/-- The next SinkWrite of `n` words is fully accepted (20_memory.md R67). -/
def sinkAccepts (e : Env) (n : Nat) : Prop := e.sinkTape.headD n = n

/-! ### The premises about the producer (20_memory.md R75 to R77, R81). They are hypotheses of claims,
never facts of the machine. -/

/-- A write of the producer with its logical (unbounded) counter value (00_scope.md R16). -/
inductive LogicalWrite where
  | sample (k : Nat) (v : Word)
  | before (n : Nat)
  | after (n : Nat)
  deriving DecidableEq, Repr

/-- The write as the block sees it: counters are held mod 2^32 (40_ring_consumer.md R121). -/
def LogicalWrite.concrete : LogicalWrite → ProdWrite
  | .sample k v => .sample k v
  | .before n => .before (BitVec.ofNat 32 n)
  | .after n => .after (BitVec.ofNat 32 n)

/-- What the producer has done so far: its logical counters and the Sample numbers written. -/
structure ProducerLog where
  before : Nat
  after : Nat
  written : List Nat
  deriving DecidableEq, Repr

/-- The log after a write. -/
def ProducerLog.next (g : ProducerLog) : LogicalWrite → ProducerLog
  | .sample k _ => { g with written := k :: g.written }
  | .before n => { g with before := n }
  | .after n => { g with after := n }

/-- A write that keeps PC1 (counters never decrease, 20_memory.md R75), PC2 (multiples of 4, R76) and
PC3 (BEFORE, then the Samples, then AFTER, R77). R77 does not say whether a Sample at a logical position
already below AFTER may be written again; here it may not (DESIGN CHOICE, log 33). -/
def LogicalWrite.allowed (g : ProducerLog) : LogicalWrite → Prop
  | .before n => g.before ≤ n ∧ n % 4 = 0
  | .sample k _ => g.after ≤ 4 * k ∧ 4 * k < g.before
  | .after n => g.after ≤ n ∧ n ≤ g.before ∧ n % 4 = 0 ∧ ∀ k, g.after ≤ 4 * k → 4 * k < n → k ∈ g.written

/-- Every write of a list is allowed where it stands. -/
def contractKept : ProducerLog → List LogicalWrite → Prop
  | _, [] => True
  | g, w :: ws => w.allowed g ∧ contractKept (g.next w) ws

/-- The log after the first `n` batches of a schedule. -/
def logAfter (g : ProducerLog) (batches : List (List LogicalWrite)) (n : Nat) : ProducerLog :=
  (batches.take n).flatten.foldl ProducerLog.next g

/-- The Sample at logical position `p` is intact at an instant with this log (20_memory.md R81). -/
def intact (cap p : Nat) (g : ProducerLog) : Prop := g.before ≤ p + cap

end Sys2Proof.Machine
end

