-- ==== Sys2Proof/Certificates/Slice0/Obligations.lean ====
section
/-! DEFINITION. The statements for the provers, from the numbered rules of spec/. -/

open Sys2Proof Sys2Proof.Machine

/-! ### Encoding and the command port -/

/-- Decoding and encoding agree on all 2^40 words: a word decodes to a command exactly when it is the
encoding of that command and the command is well formed (30_encoding.md R90 to R93). -/
def Obligations.DecodeIsInverseOfEncode : Prop :=
  ∀ (w : CmdWord) (i : Instr), decode w = .ok i ↔ i.wellFormed = true ∧ w = encode i

/-- 30_encoding.md R93: which words are illegal, and that an illegal command changes no state, performs
no access and answers RC_ILLEGAL with 0. (The port as a list of inputs is the model's form of it, log 1.) -/
def Obligations.IllegalWordChangesNothing : Prop :=
  ∀ w : CmdWord,
    ((¬ ∃ i, decode w = .ok i) ↔
      (w.toNat / 2 ^ 32 ∉ [0x01, 0x10, 0x11, 0x12, 0x13, 0x14, 0x20, 0x21, 0x22, 0x30, 0x40, 0x41, 0x42, 0x50] ∨
       (w.toNat / 2 ^ 32 ∉ [0x20, 0x41, 0x50] ∧ w.toNat % 2 ^ 32 ≠ 0) ∨
       (w.toNat / 2 ^ 32 ∈ [0x20, 0x41] ∧ w.toNat % 2 ^ 32 / 2 ≠ 0) ∨
       (w.toNat / 2 ^ 32 = 0x50 ∧ w.toNat % 2 ^ 32 / 256 ≠ 0) ∨
       (w.toNat / 2 ^ 32 = 0x50 ∧ (0x12 ≤ w.toNat % 256 ∧ w.toNat % 256 ≤ 0x1F ∨
          0x31 ≤ w.toNat % 256 ∧ w.toNat % 256 ≤ 0x3F ∨ 0x4B ≤ w.toNat % 256)))) ∧
    ((¬ ∃ i, decode w = .ok i) → ∀ (s : State) (rest : List Input),
      s.port.inputs = .command w :: rest →
        step s = .next { s with port :=
          { inputs := rest, responses := s.port.responses ++ [{ rc := .illegal, val := 0 }] } })

/-- Words written out from the opcode map (30_encoding.md R91, R92; 95_test_vectors.md section 2, V1 to V5)
decode to the commands they stand for. -/
def Obligations.SpecWordsDecode : Prop :=
  decode 0x0100000000 = .ok .reset ∧ decode 0x1000000000 = .ok .acqInit ∧
  decode 0x1100000000 = .ok .acqPoll ∧ decode 0x1300000000 = .ok .acqStop ∧
  decode 0x2000000001 = .ok (.packAdd true) ∧ decode 0x2000000000 = .ok (.packAdd false) ∧
  decode 0x2200000000 = .ok .packClose ∧ decode 0x3000000000 = .ok .unpkGet ∧
  decode 0x4100000001 = .ok (.decBit true) ∧ decode 0x4200000000 = .ok .decRun ∧
  decode 0x500000000B = .ok (.rdsr 0x0B) ∧ decode 0x5000000029 = .ok (.rdsr 0x29)

/-- A step runs the decoded command: when the first input is a command word that decodes to `i`, and no
run of the addressed unit holds it back, the step is `exec i` with that input taken (30_encoding.md R90;
that inputs come as a list is the model's choice, log 1, and the holding back is log 13). -/
def Obligations.StepRunsTheDecodedCommand : Prop :=
  ∀ (s : State) (w : CmdWord) (rest : List Input) (i : Instr),
    s.port.inputs = .command w :: rest → decode w = .ok i →
    (i ∈ [.reset, .acqCancel, .decReset] ∨ (∃ n, i = .rdsr n) ∨
      ((i ∈ [.acqInit, .acqPoll, .acqStop, .acqRun, .packFlush, .packClose] ∨ ∃ b, i = .packAdd b) ∧
        (s.acq.runActive = false ∨ s.acq.acqState ≠ .running)) ∨
      ((i ∈ [.unpkGet, .decRun] ∨ ∃ b, i = .decBit b) ∧ s.dec.run = .idle)) →
    step s = exec i { s with port := { s.port with inputs := rest } }

/-- THE MODEL'S CHOICE (log 1, 12, 13): while a unit is busy with a run, a command that it does not take then
stays on the port, and the step is the next one of the run, as it is with an empty port: for ACQ.RUN one
more iteration, the same step that ACQ.RUN's own first iteration is (42_acquisition_loop.md R163: "Each
iteration is a separate step"); for DEC.RUN the step that DEC.RUN's own UNPK.GET is, or DEC.BIT of the bit
in hand without its response (45_decode_driver.md R212). With an empty port the ACQ unit goes first. -/
def Obligations.BusyUnitHoldsItsCommands : Prop :=
  ∀ s : State,
    let offered := fun (held : Instr → Prop) =>
      ∃ w rest i, s.port.inputs = .command w :: rest ∧ decode w = .ok i ∧ held i
    let acqHeld := offered fun i =>
      i ∈ [.acqInit, .acqPoll, .acqStop, .acqRun, .packFlush, .packClose] ∨ ∃ b, i = .packAdd b
    let decHeld := offered fun i => i ∈ [.unpkGet, .decRun] ∨ ∃ b, i = .decBit b
    let acqBusy := s.acq.runActive = true ∧ s.acq.acqState = .running
    (acqBusy → (s.port.inputs = [] ∨ acqHeld) → step s = exec .acqRun s) ∧
    (decReady s = true → (s.port.inputs = [] ∧ ¬ acqBusy ∨ decHeld) →
      (s.dec.run = .fetch → step s = exec .decRun s) ∧
      ∀ b, s.dec.run = .bit b →
        (∀ t, exec (.decBit b) s = .next t →
          step s = .next { t with dec := { t.dec with run := .fetch }, port := s.port }) ∧
        ∀ r, exec (.decBit b) s = .refused r → step s = .refused r)

/-- THE MODEL'S CHOICE (log 1): a turn among the inputs is taken from the port, and the unit it names takes the
next step of its run: an ACQ unit busy with an ACQ.RUN one more iteration; a DEC unit with a DEC.RUN in
progress its next UNPK.GET or DEC.BIT. Where there is no such run to go on, nothing else happens. -/
def Obligations.TurnInputsRunTheirUnit : Prop :=
  ∀ (s : State) (rest : List Input),
    let u : State := { s with port := { s.port with inputs := rest } }
    (s.port.inputs = .acqTurn :: rest →
      (s.acq.runActive = true → s.acq.acqState = .running → step s = exec .acqRun u) ∧
      (s.acq.runActive = false ∨ s.acq.acqState ≠ .running → step s = .next u)) ∧
    (s.port.inputs = .decTurn :: rest →
      (s.dec.run = .idle → step s = .next u) ∧
      (decReady s = true →
        (s.dec.run = .fetch → step s = exec .decRun u) ∧
        ∀ b, s.dec.run = .bit b →
          (∀ t, exec (.decBit b) u = .next t →
            step s = .next { t with dec := { t.dec with run := .fetch }, port := u.port }) ∧
          ∀ r, exec (.decBit b) u = .refused r → step s = .refused r))

/-- THE MODEL'S CHOICE (log 1: "else the step changes nothing"), which goes beyond 60_exceptions.md R241 (IDLE
and STOPPED do nothing until commanded): with an empty port, no ACQ.RUN that can go on and no DEC.RUN in
progress, a step is a next state equal to the old one, in RUNNING too. -/
def Obligations.IdleMachineDoesNothing : Prop :=
  ∀ s : State, s.port.inputs = [] → (s.acq.runActive = false ∨ s.acq.acqState ≠ .running) →
    s.dec.run = .idle → step s = .next s

/-- 30_encoding.md R94: the table of legality by state. A refused command changes nothing but the
response RC_ILLEGAL_STATE with 0; an accepted one never answers RC_ILLEGAL_STATE. -/
def Obligations.LegalityByState : Prop :=
  ∀ (i : Instr) (s : State),
    let accepted :=
      i ∈ [.reset, .acqCancel, .decReset] ∨ (∃ n, i = .rdsr n) ∨
      (i = .acqInit ∧ s.acq.acqState = .idle) ∨
      (i ∈ [.acqPoll, .acqRun, .acqStop] ∧ s.acq.acqState = .running) ∨
      ((i ∈ [.packFlush, .packClose] ∨ ∃ b, i = .packAdd b) ∧ s.acq.acqState ≠ .stopped) ∨
      ((i ∈ [.unpkGet, .decRun] ∨ ∃ b, i = .decBit b) ∧ s.dec.upIoErr = false ∧
        11 ≤ s.cfg.frameLen ∧ s.cfg.frameLen ≤ s.cfg.frameLenMax ∧ s.cfg.frameLenMax < 2 ^ 31 ∧
        1 ≤ s.cfg.batchWords)
    (¬ accepted → exec i s = .next { s with port := { s.port with
      responses := s.port.responses ++ [{ rc := .illegalState, val := 0 }] } }) ∧
    (accepted → ∀ t, exec i s = .next t → ∀ r ∈ t.port.responses.drop s.port.responses.length,
      r.rc ≠ .illegalState)

/-- 30_encoding.md R95: a command answers exactly once, and an accepted ACQ.RUN or DEC.RUN that answers is no
longer in progress; the only commands whose own step gives no response are an ACQ.RUN and a DEC.RUN that
stay in progress. No command takes an input, and none but ACQ.RUN (DEC.RUN) starts or ends an ACQ.RUN (a
DEC.RUN): RESET and DEC.RESET neither. (The field that holds a run in progress is log 12; that a reset
leaves the run in progress is log 14.) -/
def Obligations.OneResponsePerCommand : Prop :=
  ∀ (i : Instr) (s t : State), exec i s = .next t →
    t.port.inputs = s.port.inputs ∧
    ((∃ r, t.port.responses = s.port.responses ++ [r] ∧
        (i = .acqRun → r.rc ≠ .illegalState → t.acq.runActive = false) ∧
        (i = .decRun → r.rc ≠ .illegalState → t.dec.run = .idle)) ∨
     (i = .acqRun ∧ t.acq.runActive = true ∧ t.port.responses = s.port.responses) ∨
     (i = .decRun ∧ t.dec.run ≠ .idle ∧ t.port.responses = s.port.responses)) ∧
    (i ≠ .acqRun → t.acq.runActive = s.acq.runActive) ∧ (i ≠ .decRun → t.dec.run = s.dec.run)

/-- 30_encoding.md R95 for every step: responses given, runs in progress and commands still on the port are
together as many after a step as before it, whatever the step is, a RESET during a run included; and
responses are only added, at most one in a step. So no command is answered twice, and none is lost without
its response. (The port as a list and the runs in progress are the model's form, log 1, 12, 14.) -/
def Obligations.EveryCommandAnsweredOnce : Prop :=
  ∀ (n : Nat) (s t : State),
    let isCommand := fun i : Input => match i with | .command _ => true | _ => false
    let commands := fun u : State => u.port.responses.length + u.acq.runActive.toNat +
      (if u.dec.run = .idle then 0 else 1) + (u.port.inputs.filter isCommand).length
    commands s = n → step s = .next t →
      commands t = n ∧ ∃ rs, rs.length ≤ 1 ∧ t.port.responses = s.port.responses ++ rs

/-! ### Reset -/

/-- 70_reset_and_hazards.md R250: RESET, in every state. What becomes of a run in progress (`runActive`, `run`)
is left to OneResponsePerCommand (log 14). -/
def Obligations.ResetCommand : Prop :=
  ∀ s : State, ∃ (a : Bool) (r : DecRun), exec .reset s = .next
    { cfg := s.cfg
      acq :=
        { acqState := .idle, lastRead := 0, cancel := false, fOverrun := false, fIoErr := false
          fCfgErr := false, fCancelled := false, fVerifyErr := false, acqCause := .none, acqExit := 0
          ovrBefore := 0, ovrLast := 0, ovrGap := 0, totalBytes := 0, pollCount := 0, peakUnread := 0
          pkWord := 0, pkNbits := 0, pkBatch := [], vfyMismatch := 0, vfyFirstOff := 0
          vfyFirstGot := 0, runActive := a }
      dec :=
        { upBatch := [], upWidx := 0, upWord := 0, upNleft := 0, upEos := false, upIoErr := false
          phase := .sync { consecutiveHighs := 0, lastBit := false }
          bitOffset := 0, nBytes := 0, nFramingFail := 0, nResyncExhaust := 0, nSync := 0
          decCause := .none, decExit := 0, run := r }
      env :=
        if s.acq.acqState = .running then
          { s.env with producer := .stopped, trace := s.env.trace ++ [.barrier, .prodStop] }
        else s.env
      port := { s.port with responses := s.port.responses ++ [{ rc := .ok, val := 0 }] } }

/-- The reset state (10_state.md R43): every register of both units. That no run is in progress is the model's
choice (log 12); the other values that the model chooses (the configuration, the environment; log 2, 4 to
9) are not stated. -/
def Obligations.RegistersAtReset : Prop :=
  (State.reset.acq =
    { acqState := .idle, lastRead := 0, cancel := false, fOverrun := false, fIoErr := false
      fCfgErr := false, fCancelled := false, fVerifyErr := false, acqCause := .none, acqExit := 0
      ovrBefore := 0, ovrLast := 0, ovrGap := 0, totalBytes := 0, pollCount := 0, peakUnread := 0
      pkWord := 0, pkNbits := 0, pkBatch := [], vfyMismatch := 0, vfyFirstOff := 0
      vfyFirstGot := 0, runActive := false }) ∧
  (State.reset.dec =
    { upBatch := [], upWidx := 0, upWord := 0, upNleft := 0, upEos := false, upIoErr := false
      phase := .sync { consecutiveHighs := 0, lastBit := false }
      bitOffset := 0, nBytes := 0, nFramingFail := 0, nResyncExhaust := 0, nSync := 0
      decCause := .none, decExit := 0, run := .idle })

/-! ### The sequencer of the ACQ unit -/

/-- 42_acquisition_loop.md R160: ACQ.INIT, in every state. The configuration check is R160's list and the two
constraints that only 00_scope.md R7 states, on MIN_CAPACITY and CTRL_OFF_* (log 16). How the model holds what the two regions contain
after ProdReset and ProdStart (nothing written, a new epoch of free values) is its choice, log 5 and 6. -/
def Obligations.AcqInit : Prop :=
  ∀ s : State,
    let ok := (∃ k, s.cfg.capacity.toNat = 2 ^ k) ∧ 4 ≤ s.cfg.capacity.toNat ∧
      s.cfg.capacity.toNat ≤ 2 ^ 31 ∧ s.cfg.minCapacity.toNat ≤ s.cfg.capacity.toNat ∧
      s.cfg.signalBit ≤ 31 ∧ 1 ≤ s.cfg.batchWords ∧ s.cfg.minCapacity.toNat % 4 = 0 ∧
      [s.cfg.ctrlOffBase, s.cfg.ctrlOffSize, s.cfg.ctrlOffChoke, s.cfg.ctrlOffBefore,
        s.cfg.ctrlOffAfter].Nodup ∧
      ∀ w, ctrlOffset s.cfg w % 4 = 0
    (s.acq.acqState = .idle → ok → exec .acqInit s = .next
      { s with
        acq :=
          { acqState := .running, lastRead := 0, cancel := s.acq.cancel, fOverrun := false
            fIoErr := false, fCfgErr := false, fCancelled := false, fVerifyErr := false
            acqCause := .none, acqExit := 0, ovrBefore := 0, ovrLast := 0, ovrGap := 0
            totalBytes := 0, pollCount := 0, peakUnread := 0, pkWord := 0, pkNbits := 0, pkBatch := []
            vfyMismatch := 0, vfyFirstOff := 0, vfyFirstGot := 0, runActive := s.acq.runActive }
        env :=
          { s.env with
            shared := []
            sharedEpoch := s.env.sharedEpoch + 1
            ctrl :=
              ((((Memory.setWord [] s.cfg.ctrlOffBefore 0).setWord s.cfg.ctrlOffAfter 0).setWord
                s.cfg.ctrlOffBase s.cfg.shmBase).setWord s.cfg.ctrlOffSize s.cfg.capacity).setWord
                s.cfg.ctrlOffChoke s.cfg.choke
            ctrlEpoch := s.env.ctrlEpoch + 1
            producer := .running
            trace := s.env.trace ++
              [.prodReset, .ctrlWrite .base s.cfg.shmBase, .ctrlWrite .size s.cfg.capacity,
               .ctrlWrite .choke s.cfg.choke, .barrier, .prodStart] }
        port := { s.port with responses := s.port.responses ++ [{ rc := .ok, val := 0 }] } }) ∧
    (s.acq.acqState = .idle → ¬ ok → exec .acqInit s = .next
      { s with
        acq := { s.acq with
          fCfgErr := true, acqCause := .cfgErr, acqExit := 1, acqState := .stopped }
        port := { s.port with responses := s.port.responses ++ [{ rc := .exit, val := 2 }] } }) ∧
    (s.acq.acqState ≠ .idle → exec .acqInit s = .next
      { s with port := { s.port with
        responses := s.port.responses ++ [{ rc := .illegalState, val := 0 }] } })

/-- What the control region holds after ACQ.INIT (20_memory.md R62, R78, R83(d)): BASE, SIZE and CHOKE as
written, both counters 0; and every byte outside BASE, SIZE and CHOKE
reads as it did right after ProdReset (what ProdReset leaves there is a free value, log 6). -/
def Obligations.AcqInitControlRegion : Prop :=
  ∀ s t : State, s.acq.acqState = .idle → acqCfgOk s.cfg = true →
    exec .acqInit s = .next t →
    ctrlValue t.cfg t.env .base = s.cfg.shmBase ∧ ctrlValue t.cfg t.env .size = s.cfg.capacity ∧
    ctrlValue t.cfg t.env .choke = s.cfg.choke ∧ ctrlValue t.cfg t.env .before = 0 ∧
    ctrlValue t.cfg t.env .after = 0 ∧
    ∀ a, (∀ w ∈ [CtrlWord.base, .size, .choke],
        a < ctrlOffset s.cfg w ∨ ctrlOffset s.cfg w + 4 ≤ a) →
      ctrlByte t.env a = ctrlByte (prodReset s).env a

/-- 42_acquisition_loop.md R161: ACQ.CANCEL, in every state, sets `cancel` and touches nothing else. -/
def Obligations.AcqCancelSetsOneBit : Prop :=
  ∀ s : State, exec .acqCancel s = .next
    { s with
      acq := { s.acq with cancel := true }
      port := { s.port with responses := s.port.responses ++ [{ rc := .ok, val := 0 }] } }

/-- The clean exit (42_acquisition_loop.md R162; 40_ring_consumer.md R111; 60_exceptions.md R232): ACQ.STOP
when RUNNING, and ACQ.POLL or ACQ.RUN that sees `cancel` set, close the packer, stop the producer and
enter STOPPED with CANCELLED; no counter and no Sample is read. For a buffered batch the sink accepts
whole, and for an empty one. -/
def Obligations.CleanExit : Prop :=
  ∀ (s : State) (i : Instr), s.acq.acqState = .running →
    (i = .acqStop ∨ (s.acq.cancel = true ∧ (i = .acqPoll ∨ i = .acqRun))) →
    (s.acq.pkBatch = [] ∨ sinkAccepts s.env s.acq.pkBatch.length) →
    exec i s = .next
      { s with
        acq := { s.acq with
          fCancelled := true, pkBatch := [], pkWord := 0, pkNbits := 0
          acqCause := .cancelled, acqExit := 0, acqState := .stopped
          runActive := if i = .acqRun then false else s.acq.runActive }
        env := { s.env with
          producer := .stopped
          sinkTape := if s.acq.pkBatch = [] then s.env.sinkTape else s.env.sinkTape.tail
          persisted := s.env.persisted ++ s.acq.pkBatch
          trace := s.env.trace ++
            (if s.acq.pkBatch = [] then [] else [.sinkWrite s.acq.pkBatch s.acq.pkBatch.length]) ++
            [.barrier, .prodStop] }
        port := { s.port with responses := s.port.responses ++ [{ rc := .exit, val := 1 }] } }

/-- One level of nesting (60_exceptions.md R234): when the closing flush of a clean exit fails, the cause
becomes IO_ERR, `f_cancelled` stays set beside `f_io_err`, the producer is still stopped, the partial
word is not cleared (41_bit_packer_unpacker.md R142) and nothing is written again. -/
def Obligations.CleanExitWithFailingSink : Prop :=
  ∀ (s : State) (i : Instr) (n : Nat), s.acq.acqState = .running →
    (i = .acqStop ∨ (s.acq.cancel = true ∧ (i = .acqPoll ∨ i = .acqRun))) →
    s.env.sinkTape.head? = some n → n < s.acq.pkBatch.length →
    exec i s = .next
      { s with
        acq := { s.acq with
          fCancelled := true, fIoErr := true, pkBatch := []
          acqCause := .ioErr, acqExit := 1, acqState := .stopped
          runActive := if i = .acqRun then false else s.acq.runActive }
        env := { s.env with
          producer := .stopped
          sinkTape := s.env.sinkTape.tail
          persisted := s.env.persisted ++ s.acq.pkBatch.take n
          trace := s.env.trace ++ [.sinkWrite s.acq.pkBatch n, .barrier, .prodStop] }
        port := { s.port with responses := s.port.responses ++ [{ rc := .exit, val := 3 }] } }

/-! ### The poll -/

/-- A poll of a quiet environment (40_ring_consumer.md R110, R112 to R120): with W what AFTER holds, B what
BEFORE holds, L = `last_read` and n = `sub32(W, L) mod CAPACITY`, an ACQ.POLL that is not cancelled,
whose counters keep the contract and whose producer is not ahead of W + CAPACITY, completes: it reads
AFTER, then the n/4 Samples at (L + 4j) mod CAPACITY in order, then BEFORE; it advances, counts, gives the
packer the signal bits, or in self-test mode VFY.CHECK the Samples with the running offsets add32(L, 4j)
(R114; 41_bit_packer_unpacker.md R147), and changes nothing else. ACQ.RUN's own step does the same as its
first iteration, without a response, and leaves the run in progress (log 12). -/
def Obligations.PollOfQuietProducer : Prop :=
  ∀ s : State, AcqInv s → s.acq.acqState = .running → s.acq.cancel = false →
    s.env.schedule = [] →
    (ctrlValue s.cfg s.env .after).toNat % 4 = 0 → (ctrlValue s.cfg s.env .before).toNat % 4 = 0 →
    (sub32 (ctrlValue s.cfg s.env .before) (ctrlValue s.cfg s.env .after)).toNat ≤ s.cfg.capacity.toNat →
    (s.cfg.testMode = true ∨ s.env.sinkTape = []) →
    let w := ctrlValue s.cfg s.env .after
    let n := (sub32 w s.acq.lastRead).toNat % s.cfg.capacity.toNat
    let off := fun j => (s.acq.lastRead.toNat + 4 * j) % s.cfg.capacity.toNat
    let checked := if s.cfg.testMode then
        (List.range (n / 4)).foldl (fun u j =>
          verifyCheck (sharedWord s.env (off j)) (add32 s.acq.lastRead (BitVec.ofNat 32 (4 * j))) u) s
      else s
    ∃ t, exec .acqPoll s = .next t ∧
      exec .acqRun s = .next { t with acq := { t.acq with runActive := true }, port := s.port } ∧
      t.cfg = s.cfg ∧ t.dec = s.dec ∧
      t.port = { s.port with
        responses := s.port.responses ++ [{ rc := .ok, val := BitVec.ofNat 32 n }] } ∧
      t.acq = { s.acq with
        lastRead := w
        totalBytes := s.acq.totalBytes + BitVec.ofNat 64 n
        pollCount := s.acq.pollCount + 1
        peakUnread := if s.acq.peakUnread < sub32 w s.acq.lastRead then sub32 w s.acq.lastRead
          else s.acq.peakUnread
        pkWord := t.acq.pkWord, pkNbits := t.acq.pkNbits, pkBatch := t.acq.pkBatch
        vfyMismatch := checked.acq.vfyMismatch, vfyFirstOff := checked.acq.vfyFirstOff
        vfyFirstGot := checked.acq.vfyFirstGot, fVerifyErr := checked.acq.fVerifyErr } ∧
      t.env = { s.env with
        persisted := t.env.persisted, trace := t.env.trace } ∧
      (s.cfg.testMode = true → t.acq.pkWord = s.acq.pkWord ∧ t.acq.pkNbits = s.acq.pkNbits ∧
        t.acq.pkBatch = s.acq.pkBatch ∧ t.env.persisted = s.env.persisted) ∧
      (s.cfg.testMode = false → packedStream t = packedStream s ++
        (List.range (n / 4)).map fun j => (sharedWord s.env (off j)).getLsbD s.cfg.signalBit) ∧
      ∃ evs, t.env.trace = s.env.trace ++ evs ∧
        (evs.filter fun e => match e with | .sinkWrite _ _ => false | _ => true) =
          [.ctrlRead .after w, .barrier] ++
          (List.range (n / 4)).map (fun j => .memRead (off j) (sharedWord s.env (off j))) ++
          [.barrier, .ctrlRead .before (ctrlValue s.cfg s.env .before)]

/-- The order of a poll's accesses under every interleaving with the producer (20_memory.md R71;
70_reset_and_hazards.md R254, R255): AFTER once, a barrier, then MemReads only, at offsets below
CAPACITY; then a barrier and BEFORE once, and nothing after it but an exit; or, when a sink write among the
Samples was not fully accepted, the exit with IO_ERR at once. -/
def Obligations.PollAccessOrder : Prop :=
  ∀ s t : State, s.acq.acqState = .running → s.acq.cancel = false → exec .acqPoll s = .next t →
    ∃ (w : Word) (reads : List (Nat × Word)) (evs tail : List BusEvent),
      t.env.trace = s.env.trace ++ evs ∧
      (evs.filter fun e => match e with | .sinkWrite _ _ => false | _ => true) =
        [.ctrlRead .after w, .barrier] ++ reads.map (fun r => .memRead r.1 r.2) ++ tail ∧
      (∀ r ∈ reads, r.1 % 4 = 0 ∧ r.1 < s.cfg.capacity.toNat) ∧
      (tail = [.barrier, .prodStop] ∧ t.acq.lastRead = s.acq.lastRead ∧ t.acq.acqCause = .ioErr ∧
          (∃ ws k, .sinkWrite ws k ∈ evs ∧ k < ws.length) ∨
       (∃ b, tail = [.barrier, .ctrlRead .before b] ∨
         tail = [.barrier, .ctrlRead .before b, .barrier, .prodStop]) ∧ t.acq.lastRead = w)

/-- Each read of the two regions lets the producer perform exactly the next batch of its schedule, and the
block itself writes neither region (20_memory.md R61, R70, R74; 70_reset_and_hazards.md R257): after any
command but ACQ.INIT both regions are what the producer's own writes, a prefix of its schedule, made of
them. (The schedule is the model's form of the interleaving, log 4.) -/
def Obligations.OnlyTheProducerWrites : Prop :=
  ∀ (i : Instr) (s t : State), i ≠ .acqInit → exec i s = .next t →
    ∃ k, t.env.schedule = s.env.schedule.drop k ∧
      t.env.shared =
        ((s.env.schedule.take k).flatten.foldl (applyProdWrite s.cfg) s.env).shared ∧
      t.env.ctrl = ((s.env.schedule.take k).flatten.foldl (applyProdWrite s.cfg) s.env).ctrl

/-- A read of a region after a write of the producer (20_memory.md R83(c), (d)): the written word reads as
written, every other aligned Sample and, where the control words lie apart, every other control word
reads as before. -/
def Obligations.ReadSeesLatestProducerWrite : Prop :=
  ∀ (cfg : Config) (e : Env) (v : Word),
    (∀ k, sharedWord (applyProdWrite cfg e (.sample k v)) (4 * k % capBytes cfg) = v) ∧
    (∀ k o, acqCfgOk cfg = true → o % 4 = 0 → o ≠ 4 * k % capBytes cfg →
      sharedWord (applyProdWrite cfg e (.sample k v)) o = sharedWord e o) ∧
    ctrlValue cfg (applyProdWrite cfg e (.before v)) .before = v ∧
    ctrlValue cfg (applyProdWrite cfg e (.after v)) .after = v ∧
    (ctrlLayoutOk cfg → ∀ w, (w ≠ .before →
        ctrlValue cfg (applyProdWrite cfg e (.before v)) w = ctrlValue cfg e w) ∧
      (w ≠ .after → ctrlValue cfg (applyProdWrite cfg e (.after v)) w = ctrlValue cfg e w))

/-- 40_ring_consumer.md R122: for all L, W and every legal CAPACITY the spans have the combined length
`sub32(W, L) mod CAPACITY`, and cover `(L + j) mod CAPACITY` for j = 0 .. n − 1 in this order. -/
def Obligations.RingRangeCorrect : Prop :=
  ∀ (cfg : Config) (l w : Word), acqCfgOk cfg = true →
    let cap := cfg.capacity.toNat
    spanBytes (rbSpans cap l w) = (sub32 w l).toNat % cap ∧
    spanOffsets (rbSpans cap l w) =
      (List.range ((sub32 w l).toNat % cap)).map (fun j => (l.toNat + j) % cap) ∧
    ((sub32 w l).toNat < cap → spanBytes (rbSpans cap l w) = (sub32 w l).toNat)

/-- The arithmetic of wrapped counters (40_ring_consumer.md R121): the distance is the logical difference
whenever that is below 2^32, and the physical offset of a logical position does not depend on the wrap. -/
def Obligations.WrappedCounterArithmetic : Prop :=
  ∀ (cfg : Config) (a b : Nat), acqCfgOk cfg = true →
    (BitVec.ofNat 32 a : Word).toNat % cfg.capacity.toNat = a % cfg.capacity.toNat ∧
    (b ≤ a → a - b < 2 ^ 32 → (sub32 (BitVec.ofNat 32 a) (BitVec.ofNat 32 b)).toNat = a - b)

/-- The overrun exit of a quiet environment (40_ring_consumer.md R120; 60_exceptions.md R222, R232): when
BEFORE is more than CAPACITY ahead of the snapshot, the poll consumes, advances and counts, then flags the
overrun with its report, closes the packer, stops the producer and enters STOPPED. What is persisted is the
packed stream with the poll's bits less at most 31 dropped ones; in self-test mode, where the Samples go to
VFY.CHECK, the words that were buffered. An ACQ.RUN ends with it (log 12). -/
def Obligations.OverrunTakesTheExit : Prop :=
  ∀ s : State, AcqInv s → s.acq.acqState = .running → s.acq.cancel = false →
    s.env.schedule = [] →
    (ctrlValue s.cfg s.env .after).toNat % 4 = 0 → (ctrlValue s.cfg s.env .before).toNat % 4 = 0 →
    s.cfg.capacity.toNat < (sub32 (ctrlValue s.cfg s.env .before) (ctrlValue s.cfg s.env .after)).toNat →
    s.env.sinkTape = [] →
    let w := ctrlValue s.cfg s.env .after
    let b := ctrlValue s.cfg s.env .before
    let n := (sub32 w s.acq.lastRead).toNat % s.cfg.capacity.toNat
    let off := fun j => (s.acq.lastRead.toNat + 4 * j) % s.cfg.capacity.toNat
    let checked := if s.cfg.testMode then
        (List.range (n / 4)).foldl (fun u j =>
          verifyCheck (sharedWord s.env (off j)) (add32 s.acq.lastRead (BitVec.ofNat 32 (4 * j))) u) s
      else s
    ∃ t, exec .acqPoll s = .next t ∧
      exec .acqRun s = .next { t with acq := { t.acq with runActive := false } } ∧
      t.cfg = s.cfg ∧ t.dec = s.dec ∧
      t.acq = { s.acq with
        lastRead := w
        totalBytes := s.acq.totalBytes + BitVec.ofNat 64 n
        pollCount := s.acq.pollCount + 1
        peakUnread := if s.acq.peakUnread < sub32 w s.acq.lastRead then sub32 w s.acq.lastRead
          else s.acq.peakUnread
        fOverrun := true, ovrBefore := b, ovrLast := w, ovrGap := sub32 b w
        acqCause := .overrun, acqExit := 1, acqState := .stopped
        pkWord := 0, pkNbits := 0, pkBatch := []
        vfyMismatch := checked.acq.vfyMismatch, vfyFirstOff := checked.acq.vfyFirstOff
        vfyFirstGot := checked.acq.vfyFirstGot, fVerifyErr := checked.acq.fVerifyErr } ∧
      t.env = { s.env with
        producer := .stopped, persisted := t.env.persisted, trace := t.env.trace } ∧
      t.port = { s.port with responses := s.port.responses ++ [{ rc := .exit, val := 4 }] } ∧
      (s.cfg.testMode = true → t.env.persisted = s.env.persisted ++ s.acq.pkBatch) ∧
      (s.cfg.testMode = false → ∃ dropped, dropped.length < 32 ∧
        streamBits t.env.persisted ++ dropped = packedStream s ++
          (List.range (n / 4)).map fun j => (sharedWord s.env (off j)).getLsbD s.cfg.signalBit) ∧
      ∃ evs, t.env.trace = s.env.trace ++ evs ∧
        (evs.filter fun e => match e with | .sinkWrite _ _ => false | _ => true) =
          [.ctrlRead .after w, .barrier] ++
          (List.range (n / 4)).map (fun j => .memRead (off j) (sharedWord s.env (off j))) ++
          [.barrier, .ctrlRead .before b, .barrier, .prodStop]

/-- One level of nesting on OVERRUN (60_exceptions.md R234): when the closing flush of the overrun exit fails,
the cause becomes IO_ERR, `f_overrun` and the report registers stay beside `f_io_err`, the producer is still
stopped, the partial word is not cleared (41_bit_packer_unpacker.md R142) and nothing is written again. In a
quiet environment, for a poll whose Samples complete no word, so that the closing flush is its one write. -/
def Obligations.OverrunWithFailingSink : Prop :=
  ∀ (s : State) (k : Nat), AcqInv s → s.acq.acqState = .running → s.acq.cancel = false →
    s.env.schedule = [] →
    (ctrlValue s.cfg s.env .after).toNat % 4 = 0 → (ctrlValue s.cfg s.env .before).toNat % 4 = 0 →
    s.cfg.capacity.toNat < (sub32 (ctrlValue s.cfg s.env .before) (ctrlValue s.cfg s.env .after)).toNat →
    let w := ctrlValue s.cfg s.env .after
    let b := ctrlValue s.cfg s.env .before
    let n := (sub32 w s.acq.lastRead).toNat % s.cfg.capacity.toNat
    let packed := if s.cfg.testMode then 0 else n / 4
    let off := fun j => (s.acq.lastRead.toNat + 4 * j) % s.cfg.capacity.toNat
    let checked := if s.cfg.testMode then
        (List.range (n / 4)).foldl (fun u j =>
          verifyCheck (sharedWord s.env (off j)) (add32 s.acq.lastRead (BitVec.ofNat 32 (4 * j))) u) s
      else s
    s.acq.pkNbits + packed < 32 → s.env.sinkTape.head? = some k → k < s.acq.pkBatch.length →
    ∃ t, exec .acqPoll s = .next t ∧
      exec .acqRun s = .next { t with acq := { t.acq with runActive := false } } ∧
      t.cfg = s.cfg ∧ t.dec = s.dec ∧
      t.acq = { s.acq with
        lastRead := w
        totalBytes := s.acq.totalBytes + BitVec.ofNat 64 n
        pollCount := s.acq.pollCount + 1
        peakUnread := if s.acq.peakUnread < sub32 w s.acq.lastRead then sub32 w s.acq.lastRead
          else s.acq.peakUnread
        fOverrun := true, ovrBefore := b, ovrLast := w, ovrGap := sub32 b w, fIoErr := true
        acqCause := .ioErr, acqExit := 1, acqState := .stopped
        pkWord := t.acq.pkWord, pkNbits := s.acq.pkNbits + packed, pkBatch := []
        vfyMismatch := checked.acq.vfyMismatch, vfyFirstOff := checked.acq.vfyFirstOff
        vfyFirstGot := checked.acq.vfyFirstGot, fVerifyErr := checked.acq.fVerifyErr } ∧
      partialBits t.acq.pkWord t.acq.pkNbits = partialBits s.acq.pkWord s.acq.pkNbits ++
        (List.range packed).map (fun j => (sharedWord s.env (off j)).getLsbD s.cfg.signalBit) ∧
      t.env = { s.env with
        producer := .stopped
        sinkTape := s.env.sinkTape.tail
        persisted := s.env.persisted ++ s.acq.pkBatch.take k
        trace := s.env.trace ++ [.ctrlRead .after w, .barrier] ++
          (List.range (n / 4)).map (fun j => .memRead (off j) (sharedWord s.env (off j))) ++
          [.barrier, .ctrlRead .before b, .sinkWrite s.acq.pkBatch k, .barrier, .prodStop] } ∧
      t.port = { s.port with responses := s.port.responses ++ [{ rc := .exit, val := 3 }] }

/-- 40_ring_consumer.md R117: a poll stopped by a failing sink among its Samples (IO_ERR with no overrun
flagged by it) keeps the read counter and the statistics, reads no BEFORE, and stops the producer. -/
def Obligations.IoErrorInsidePoll : Prop :=
  ∀ s t : State, AcqInv s → s.acq.acqState = .running → s.acq.cancel = false →
    s.acq.fOverrun = false → exec .acqPoll s = .next t → t.acq.acqCause = .ioErr → t.acq.fOverrun = false →
    t.acq.lastRead = s.acq.lastRead ∧ t.acq.totalBytes = s.acq.totalBytes ∧
    t.acq.pollCount = s.acq.pollCount ∧ t.acq.peakUnread = s.acq.peakUnread ∧
    t.acq.fIoErr = true ∧ t.acq.acqExit = 1 ∧ t.acq.acqState = .stopped ∧
    t.acq.ovrBefore = s.acq.ovrBefore ∧ t.acq.ovrLast = s.acq.ovrLast ∧ t.acq.ovrGap = s.acq.ovrGap ∧
    t.env.producer = .stopped ∧
    t.port.responses = s.port.responses ++ [{ rc := .exit, val := 3 }] ∧
    ∃ evs, t.env.trace = s.env.trace ++ evs ∧ ∀ b, .ctrlRead .before b ∉ evs

/-- A counter value that is not a multiple of 4 is refused by name, with the counter and its value: the
producer has broken its contract (93_implementation_defined.md U3; 20_memory.md R66; log 7). In a quiet
environment: AFTER, or, when AFTER is aligned and the sink does not end the poll before, BEFORE. -/
def Obligations.MisalignedCounterRefused : Prop :=
  ∀ s : State, s.acq.acqState = .running → s.acq.cancel = false → s.env.schedule = [] →
    let w := ctrlValue s.cfg s.env .after
    let b := ctrlValue s.cfg s.env .before
    (w.toNat % 4 ≠ 0 →
      exec .acqPoll s = .refused (.counterMisaligned .after w) ∧
      exec .acqRun s = .refused (.counterMisaligned .after w)) ∧
    (AcqInv s → w.toNat % 4 = 0 → b.toNat % 4 ≠ 0 → (s.cfg.testMode = true ∨ s.env.sinkTape = []) →
      exec .acqPoll s = .refused (.counterMisaligned .before b) ∧
      exec .acqRun s = .refused (.counterMisaligned .before b))

/-- A stream that breaks the interface is refused by name (93_implementation_defined.md U8; log 8, 9): a sink
that claims more words than it was offered, by PACK.FLUSH, PACK.CLOSE, the closing flush of ACQ.STOP and of
an ACQ.POLL or ACQ.RUN that sees `cancel`, or the flush of a PACK.ADD that fills the batch; a source whose
data is no word, or more words than UNPK.GET or DEC.RUN asked for. -/
def Obligations.BrokenInterfaceRefused : Prop :=
  ∀ s : State,
    (∀ n, s.env.sinkTape.head? = some n → s.acq.acqState ≠ .stopped →
      (s.acq.pkBatch ≠ [] → s.acq.pkBatch.length < n →
        exec .packFlush s = .refused (.sinkOverAccepts n) ∧
        exec .packClose s = .refused (.sinkOverAccepts n) ∧
        (s.acq.acqState = .running → exec .acqStop s = .refused (.sinkOverAccepts n) ∧
          (s.acq.cancel = true → exec .acqPoll s = .refused (.sinkOverAccepts n) ∧
            exec .acqRun s = .refused (.sinkOverAccepts n)))) ∧
      (s.acq.pkNbits + 1 = 32 → s.acq.pkBatch.length + 1 = s.cfg.batchWords → s.cfg.batchWords < n →
        ∀ b, exec (.packAdd b) s = .refused (.sinkOverAccepts n))) ∧
    (∀ ws, decReady s = true → s.dec.upEos = false → s.dec.upNleft = 0 →
      s.dec.upWidx = s.dec.upBatch.length → s.env.sourceTape.head? = some (.data ws) →
      (ws = [] ∨ s.cfg.batchWords < ws.length) →
      exec .unpkGet s = .refused (.sourceDataLength ws.length) ∧
      exec .decRun s = .refused (.sourceDataLength ws.length))

/-- 41_bit_packer_unpacker.md R147: VFY.CHECK on a Sample and its running offset, with the default
expectation off / 4. -/
def Obligations.VerifierChecksSample : Prop :=
  ∀ (s : State) (v off : Word), s.cfg.verify = .sampleIndex →
    (v.toNat = off.toNat / 4 → verifyCheck v off s = s) ∧
    (v.toNat ≠ off.toNat / 4 → s.acq.vfyMismatch = 0 → verifyCheck v off s =
      { s with acq := { s.acq with
        vfyFirstOff := off, vfyFirstGot := v, vfyMismatch := 1, fVerifyErr := true } }) ∧
    (v.toNat ≠ off.toNat / 4 → s.acq.vfyMismatch ≠ 0 → verifyCheck v off s =
      { s with acq := { s.acq with vfyMismatch := s.acq.vfyMismatch + 1, fVerifyErr := true } })

/-- A poll of the end-to-end self-test (42_acquisition_loop.md R165; 41_bit_packer_unpacker.md R147): when
every Sample the producer wrote at logical position p is p/4, a self-test poll of a quiet environment
reports no mismatch. -/
def Obligations.SelfTestPollFindsNoMismatch : Prop :=
  ∀ s t : State, AcqInv s → s.acq.acqState = .running → s.acq.cancel = false →
    s.cfg.testMode = true → s.cfg.verify = .sampleIndex → s.env.schedule = [] →
    (∀ j, 4 * j < (sub32 (ctrlValue s.cfg s.env .after) s.acq.lastRead).toNat % s.cfg.capacity.toNat →
      (sharedWord s.env ((s.acq.lastRead.toNat + 4 * j) % s.cfg.capacity.toNat)).toNat =
        (s.acq.lastRead.toNat + 4 * j) % 2 ^ 32 / 4) →
    exec .acqPoll s = .next t →
    t.acq.vfyMismatch = s.acq.vfyMismatch ∧ t.acq.fVerifyErr = s.acq.fVerifyErr ∧
    t.acq.vfyFirstOff = s.acq.vfyFirstOff ∧ t.acq.vfyFirstGot = s.acq.vfyFirstGot

/-- The signal context commutes with the poll after its cancellation check (70_reset_and_hazards.md R258):
setting `cancel` before or after the rest of the poll gives the same outcome. -/
def Obligations.CancelCommutesWithThePoll : Prop :=
  ∀ (w : Word) (s : State),
    let setCancel := fun u : State => ({ u with acq := { u.acq with cancel := true } } : State)
    (∀ n t, pollFrom w s = .done n t → pollFrom w (setCancel s) = .done n (setCancel t)) ∧
    (∀ c t, pollFrom w s = .raised c t → pollFrom w (setCancel s) = .raised c (setCancel t)) ∧
    (∀ r, pollFrom w s = .fault r → pollFrom w (setCancel s) = .fault r) ∧
    (∀ r, pollFrom w s = .refused r → pollFrom w (setCancel s) = .refused r)

/-- A poll under every interleaving with the producer (40_ring_consumer.md R110, R122; 20_memory.md R70, R83(c),
(d)): when ACQ.POLL answers RC_OK with n, each of its n/4 + 2 reads let the producer perform one more batch;
it read AFTER, then the Samples at (L + 4j) mod CAPACITY for j = 0 .. n/4 − 1, then BEFORE, each with the value
that the region holds after the batches performed so far; and `last_read` is the snapshot of AFTER. (The
schedule of batches is the model's form of the interleaving, log 4.) -/
def Obligations.PollUnderInterleaving : Prop :=
  ∀ (s t : State) (n : Nat), AcqInv s → s.acq.acqState = .running → exec .acqPoll s = .next t →
    n < 2 ^ 32 →
    t.port.responses = s.port.responses ++ [{ rc := .ok, val := BitVec.ofNat 32 n }] →
    let after := fun k => (s.env.schedule.take k).flatten.foldl (applyProdWrite s.cfg) s.env
    let w := ctrlValue s.cfg (after 1) .after
    let off := fun j => (s.acq.lastRead.toNat + 4 * j) % s.cfg.capacity.toNat
    n = (sub32 w s.acq.lastRead).toNat % s.cfg.capacity.toNat ∧ n % 4 = 0 ∧
    t.acq.lastRead = w ∧
    t.env.schedule = s.env.schedule.drop (n / 4 + 2) ∧
    t.env.shared = (after (n / 4 + 2)).shared ∧ t.env.ctrl = (after (n / 4 + 2)).ctrl ∧
    ∃ evs, t.env.trace = s.env.trace ++ evs ∧
      (evs.filter fun e => match e with | .sinkWrite _ _ => false | _ => true) =
        [.ctrlRead .after w, .barrier] ++
        (List.range (n / 4)).map (fun j => .memRead (off j) (sharedWord (after (j + 2)) (off j))) ++
        [.barrier, .ctrlRead .before (ctrlValue s.cfg (after (n / 4 + 2)) .before)]

/-- The premise of loss-freedom is enough (20_memory.md R81; 70_reset_and_hazards.md R256): let a poll of a
schedule of logical writes that keep the producer's contract answer RC_OK with n, and let l, g.before and
g.after be the logical values of `last_read`, BEFORE and AFTER at its start. The poll snapshots logical AFTER as
it stands after one batch, and ends with a read of logical BEFORE as it stands after n/4 + 2; and if that is
at most l + CAPACITY, then at the instant of each MemRead, after j + 2 batches, the Sample read was intact.
(The schedule of batches is the model's form of the interleaving, log 4; that the producer does not write again
a Sample already below AFTER is the model's reading of PC3, log 33.) -/
def Obligations.LossFreeWhenBeforeIsNear : Prop :=
  ∀ (s t : State) (batches : List (List LogicalWrite)) (g : ProducerLog) (l n : Nat),
    AcqInv s → s.acq.acqState = .running →
    s.acq.lastRead = BitVec.ofNat 32 l →
    ctrlValue s.cfg s.env .before = BitVec.ofNat 32 g.before →
    ctrlValue s.cfg s.env .after = BitVec.ofNat 32 g.after →
    s.env.schedule = batches.map (fun b => b.map LogicalWrite.concrete) →
    contractKept g batches.flatten →
    exec .acqPoll s = .next t → n < 2 ^ 32 →
    t.port.responses = s.port.responses ++ [{ rc := .ok, val := BitVec.ofNat 32 n }] →
    t.env.schedule = s.env.schedule.drop (n / 4 + 2) ∧
    t.acq.lastRead = BitVec.ofNat 32 (logAfter g batches 1).after ∧
    t.env.trace.getLast? =
      some (.ctrlRead .before (BitVec.ofNat 32 (logAfter g batches (n / 4 + 2)).before)) ∧
    ((logAfter g batches (n / 4 + 2)).before ≤ l + capBytes s.cfg →
      ∀ j, j < n / 4 → intact (capBytes s.cfg) (l + 4 * j) (logAfter g batches (j + 2)))

/-! ### The packer -/

/-- 41_bit_packer_unpacker.md R140: PACK.ADD, in every state, with every answer of the sink that the
interface allows. -/
def Obligations.PackAdd : Prop :=
  ∀ (s : State) (b : Bool),
    let w : Word := BitVec.ofNat 32 (2 * s.acq.pkWord.toNat + b.toNat)
    let full := s.acq.pkBatch ++ [w]
    let answer := fun (rc : RespCode) (v : Word) =>
      ({ s.port with responses := s.port.responses ++ [{ rc := rc, val := v }] } : Port)
    (s.acq.acqState ≠ .stopped → s.acq.pkNbits + 1 ≠ 32 → exec (.packAdd b) s = .next
      { s with acq := { s.acq with pkWord := w, pkNbits := s.acq.pkNbits + 1 }, port := answer .ok 0 }) ∧
    (s.acq.acqState ≠ .stopped → s.acq.pkNbits + 1 = 32 → full.length ≠ s.cfg.batchWords →
      exec (.packAdd b) s = .next
        { s with acq := { s.acq with pkWord := 0, pkNbits := 0, pkBatch := full }, port := answer .ok 0 }) ∧
    (s.acq.acqState ≠ .stopped → s.acq.pkNbits + 1 = 32 → full.length = s.cfg.batchWords →
      sinkAccepts s.env full.length → exec (.packAdd b) s = .next
        { s with
          acq := { s.acq with pkWord := 0, pkNbits := 0, pkBatch := [] }
          env := { s.env with
            sinkTape := s.env.sinkTape.tail
            persisted := s.env.persisted ++ full
            trace := s.env.trace ++ [.sinkWrite full full.length] }
          port := answer .ok 0 }) ∧
    (∀ n, s.acq.acqState ≠ .stopped → s.acq.pkNbits + 1 = 32 → full.length = s.cfg.batchWords →
      s.env.sinkTape.head? = some n → n < full.length → exec (.packAdd b) s = .next
        { s with
          acq := { s.acq with
            pkWord := 0, pkNbits := 0, pkBatch := [], fIoErr := true
            acqCause := .ioErr, acqExit := 1, acqState := .stopped }
          env := { s.env with
            sinkTape := s.env.sinkTape.tail
            persisted := s.env.persisted ++ full.take n
            producer := if s.acq.acqState = .running then .stopped else s.env.producer
            trace := s.env.trace ++ [.sinkWrite full n] ++
              (if s.acq.acqState = .running then [.barrier, .prodStop] else []) }
          port := answer .exit 3 }) ∧
    (s.acq.acqState = .stopped → exec (.packAdd b) s = .next { s with port := answer .illegalState 0 })

/-- 41_bit_packer_unpacker.md R141: PACK.FLUSH, in every state, with every answer of the sink that the
interface allows. -/
def Obligations.PackFlush : Prop :=
  ∀ s : State,
    let answer := fun (rc : RespCode) (v : Word) =>
      ({ s.port with responses := s.port.responses ++ [{ rc := rc, val := v }] } : Port)
    (s.acq.acqState ≠ .stopped → s.acq.pkBatch = [] →
      exec .packFlush s = .next { s with port := answer .ok 0 }) ∧
    (s.acq.acqState ≠ .stopped → s.acq.pkBatch ≠ [] → sinkAccepts s.env s.acq.pkBatch.length →
      exec .packFlush s = .next
        { s with
          acq := { s.acq with pkBatch := [] }
          env := { s.env with
            sinkTape := s.env.sinkTape.tail
            persisted := s.env.persisted ++ s.acq.pkBatch
            trace := s.env.trace ++ [.sinkWrite s.acq.pkBatch s.acq.pkBatch.length] }
          port := answer .ok 0 }) ∧
    (∀ n, s.acq.acqState ≠ .stopped → s.env.sinkTape.head? = some n → n < s.acq.pkBatch.length →
      exec .packFlush s = .next
        { s with
          acq := { s.acq with
            pkBatch := [], fIoErr := true
            acqCause := .ioErr, acqExit := 1, acqState := .stopped }
          env := { s.env with
            sinkTape := s.env.sinkTape.tail
            persisted := s.env.persisted ++ s.acq.pkBatch.take n
            producer := if s.acq.acqState = .running then .stopped else s.env.producer
            trace := s.env.trace ++ [.sinkWrite s.acq.pkBatch n] ++
              (if s.acq.acqState = .running then [.barrier, .prodStop] else []) }
          port := answer .exit 3 }) ∧
    (s.acq.acqState = .stopped → exec .packFlush s = .next { s with port := answer .illegalState 0 })

/-- 41_bit_packer_unpacker.md R142: PACK.CLOSE, in every state, with every answer of the sink that the
interface allows: the complete words are written, the partial word is dropped, unless the flush fails. -/
def Obligations.PackClose : Prop :=
  ∀ s : State,
    let answer := fun (rc : RespCode) (v : Word) =>
      ({ s.port with responses := s.port.responses ++ [{ rc := rc, val := v }] } : Port)
    (s.acq.acqState ≠ .stopped → s.acq.pkBatch = [] → exec .packClose s = .next
      { s with acq := { s.acq with pkWord := 0, pkNbits := 0 }, port := answer .ok 0 }) ∧
    (s.acq.acqState ≠ .stopped → s.acq.pkBatch ≠ [] → sinkAccepts s.env s.acq.pkBatch.length →
      exec .packClose s = .next
        { s with
          acq := { s.acq with pkBatch := [], pkWord := 0, pkNbits := 0 }
          env := { s.env with
            sinkTape := s.env.sinkTape.tail
            persisted := s.env.persisted ++ s.acq.pkBatch
            trace := s.env.trace ++ [.sinkWrite s.acq.pkBatch s.acq.pkBatch.length] }
          port := answer .ok 0 }) ∧
    (∀ n, s.acq.acqState ≠ .stopped → s.env.sinkTape.head? = some n → n < s.acq.pkBatch.length →
      exec .packClose s = .next
        { s with
          acq := { s.acq with
            pkBatch := [], fIoErr := true
            acqCause := .ioErr, acqExit := 1, acqState := .stopped }
          env := { s.env with
            sinkTape := s.env.sinkTape.tail
            persisted := s.env.persisted ++ s.acq.pkBatch.take n
            producer := if s.acq.acqState = .running then .stopped else s.env.producer
            trace := s.env.trace ++ [.sinkWrite s.acq.pkBatch n] ++
              (if s.acq.acqState = .running then [.barrier, .prodStop] else []) }
          port := answer .exit 3 }) ∧
    (s.acq.acqState = .stopped → exec .packClose s = .next { s with port := answer .illegalState 0 })

/-- 41_bit_packer_unpacker.md R143, the lane law: after m calls of PACK.ADD from an empty packer, ⌊m/32⌋
words are written or buffered and hold the first bits 32 to a word, MSB first; `pk_nbits` is m mod 32 and
the partial word holds the last m mod 32 bits, the oldest uppermost. With a sink that accepts all, the m
calls complete. -/
def Obligations.LaneLaw : Prop :=
  ∀ (bs : List Bool) (s : State), s.acq.pkNbits = 0 → s.acq.pkBatch = [] →
    (s.env.sinkTape = [] → ∃ t, packAll bs s = .done () t) ∧
    ∀ t, packAll bs s = .done () t → ∃ ws : List Word,
      t.env.persisted ++ t.acq.pkBatch = s.env.persisted ++ ws ∧
      ws.length = bs.length / 32 ∧ streamBits ws = bs.take (32 * (bs.length / 32)) ∧
      t.acq.pkNbits = bs.length % 32 ∧
      partialBits t.acq.pkWord t.acq.pkNbits = bs.drop (32 * (bs.length / 32))

/-- 41_bit_packer_unpacker.md R146, the round trip: packing any bits and closing, with every sink write
accepted, writes ⌊n/32⌋ words, and a reset unpacker, reading a source that delivers those words in pieces
of any sizes from 1 to its own BATCH_WORDS and then the end, yields the first 32⌊n/32⌋ bits and then the
end of the stream. -/
def Obligations.PackUnpackRoundTrip : Prop :=
  ∀ (bs : List Bool) (s t t' u : State) (pieces : List (List Word)) (rest : List SourceAnswer),
    s.acq.pkNbits = 0 → s.acq.pkBatch = [] → s.env.persisted = [] →
    packAll bs s = .done () t → packClose t = .done () t' →
    u.dec = Dec.reset → (∀ p ∈ pieces, 1 ≤ p.length ∧ p.length ≤ u.cfg.batchWords) →
    pieces.flatten = t'.env.persisted → u.env.sourceTape = pieces.map .data ++ rest →
    rest.headD .eos = .eos →
    t'.env.persisted.length = bs.length / 32 ∧
    ∃ v, unpackMany (32 * (bs.length / 32) + 1) u =
      .done (bs.take (32 * (bs.length / 32))) v ∧ v.dec.upEos = true

/-! ### The unpacker -/

/-- 41_bit_packer_unpacker.md R144 and R145: UNPK.GET, in every state of the buffer, with every answer of the
source that the interface allows. -/
def Obligations.UnpkGet : Prop :=
  ∀ s : State,
    let answer := fun (rc : RespCode) (v : Word) =>
      ({ s.port with responses := s.port.responses ++ [{ rc := rc, val := v }] } : Port)
    let asked := fun (a : SourceAnswer) => ({ s.env with
      sourceTape := s.env.sourceTape.tail
      trace := s.env.trace ++ [.sourceRead s.cfg.batchWords a] } : Env)
    let bitOf := fun (w : Word) (k : Nat) => (BitVec.ofNat 32 (w.getLsbD k).toNat : Word)
    (decReady s = false → exec .unpkGet s = .next { s with port := answer .illegalState 0 }) ∧
    (decReady s = true →
    (s.dec.upEos = true → exec .unpkGet s = .next { s with port := answer .eos 0 }) ∧
    (s.dec.upEos = false → s.dec.upNleft ≠ 0 → exec .unpkGet s = .next
      { s with
        dec := { s.dec with upNleft := s.dec.upNleft - 1 }
        port := answer .ok (bitOf s.dec.upWord (s.dec.upNleft - 1)) }) ∧
    (∀ h : s.dec.upWidx < s.dec.upBatch.length, s.dec.upEos = false → s.dec.upNleft = 0 →
      exec .unpkGet s = .next
        { s with
          dec := { s.dec with
            upWord := s.dec.upBatch[s.dec.upWidx], upWidx := s.dec.upWidx + 1, upNleft := 31 }
          port := answer .ok (bitOf s.dec.upBatch[s.dec.upWidx] 31) }) ∧
    (s.dec.upEos = false → s.dec.upNleft = 0 → s.dec.upWidx = s.dec.upBatch.length →
      (∀ w ws, s.env.sourceTape.head? = some (.data (w :: ws)) → ws.length + 1 ≤ s.cfg.batchWords →
        exec .unpkGet s = .next
          { s with
            dec := { s.dec with upBatch := w :: ws, upWord := w, upWidx := 1, upNleft := 31 }
            env := asked (.data (w :: ws))
            port := answer .ok (bitOf w 31) }) ∧
      (s.env.sourceTape.head? = some .eos → exec .unpkGet s = .next
        { s with
          dec := { s.dec with upEos := true, decCause := .eos, decExit := 0 }
          env := asked .eos
          port := answer .eos 0 }) ∧
      (s.env.sourceTape.head? = some .err → exec .unpkGet s = .next
        { s with
          dec := { s.dec with upIoErr := true, decCause := .ioErr, decExit := 1 }
          env := asked .err
          port := answer .exit 3 })))

/-! ### The decoder -/

/-- 45_decode_driver.md R205: DEC.RESET, in every state. What becomes of a run in progress (`run`) is left to
OneResponsePerCommand (log 14). -/
def Obligations.DecReset : Prop :=
  ∀ s : State, ∃ r : DecRun,
    let fresh : Dec :=
      { upBatch := [], upWidx := 0, upWord := 0, upNleft := 0, upEos := false, upIoErr := false
        phase := .sync { consecutiveHighs := 0, lastBit := false }
        bitOffset := 0, nBytes := 0, nFramingFail := 0, nResyncExhaust := 0, nSync := 0
        decCause := .none, decExit := 0, run := r }
    let ok := 11 ≤ s.cfg.frameLen ∧ s.cfg.frameLen ≤ s.cfg.frameLenMax ∧ s.cfg.frameLenMax < 2 ^ 31 ∧
      1 ≤ s.cfg.batchWords
    (ok → exec .decReset s = .next
      { s with
        dec := fresh
        port := { s.port with responses := s.port.responses ++ [{ rc := .ok, val := 0 }] } }) ∧
    (¬ ok → exec .decReset s = .next
      { s with
        dec := { fresh with decCause := .cfgErr, decExit := 1 }
        port := { s.port with responses := s.port.responses ++ [{ rc := .exit, val := 2 }] } })

/-- 43_sync_detector.md R175 and R176 through DEC.BIT (45_decode_driver.md R206): in phase SYNC a high bit
counts (saturating), a low bit after a low bit leaves the counter, a low bit that ends a run of fewer than
2 × FRAME_LEN clears it, and one that ends a longer run commits to DECODE with LEARN's frame_length and
itself as sample 0. -/
def Obligations.DecBitInSync : Prop :=
  ∀ (s : State) (f : SyncFields), decReady s = true → s.dec.phase = .sync f →
    let answer := fun (v : Word) =>
      ({ s.port with responses := s.port.responses ++ [{ rc := .ok, val := v }] } : Port)
    let fl := learn s.cfg.learn s.cfg.frameLen f.consecutiveHighs.toNat
    (exec (.decBit true) s = .next
      { s with
        dec := { s.dec with
          bitOffset := s.dec.bitOffset + 1
          phase := .sync
            { consecutiveHighs :=
                if f.consecutiveHighs.toNat = 2 ^ 32 - 1 then f.consecutiveHighs
                else f.consecutiveHighs + 1
              lastBit := true } }
        port := answer 0 }) ∧
    (f.lastBit = false → exec (.decBit false) s = .next
      { s with
        dec := { s.dec with bitOffset := s.dec.bitOffset + 1, phase := .sync f }
        port := answer 0 }) ∧
    (f.lastBit = true → f.consecutiveHighs.toNat < 2 * s.cfg.frameLen →
      exec (.decBit false) s = .next
        { s with
          dec := { s.dec with
            bitOffset := s.dec.bitOffset + 1
            phase := .sync { consecutiveHighs := 0, lastBit := false } }
          port := answer 0 }) ∧
    (f.lastBit = true → 2 * s.cfg.frameLen ≤ f.consecutiveHighs.toNat →
      11 ≤ fl → fl ≤ s.cfg.frameLenMax → exec (.decBit false) s = .next
        { s with
          dec := { s.dec with
            bitOffset := s.dec.bitOffset + 1
            nSync := s.dec.nSync + 1
            phase := .decode { frameLength := fl, buf := [false], frameStart := s.dec.bitOffset } }
          port := answer 0x200 }) ∧
    (s.cfg.learn = .configured → 11 ≤ fl ∧ fl ≤ s.cfg.frameLenMax ∧ fl = s.cfg.frameLen)

/-- 43_sync_detector.md R179 (93_implementation_defined.md U6; log 10): a commit goes on exactly when LEARN
answers within 11..FRAME_LEN_MAX, and is refused otherwise. -/
def Obligations.CommitNeedsLearnInRange : Prop :=
  ∀ (s : State) (f : SyncFields), decReady s = true → s.dec.phase = .sync f → f.lastBit = true →
    2 * s.cfg.frameLen ≤ f.consecutiveHighs.toNat →
    let fl := learn s.cfg.learn s.cfg.frameLen f.consecutiveHighs.toNat
    (11 ≤ fl ∧ fl ≤ s.cfg.frameLenMax ∧ ∃ t, exec (.decBit false) s = .next t ∧
      ∃ g, t.dec.phase = .decode g ∧ g.frameLength = fl) ∨
    (¬ (11 ≤ fl ∧ fl ≤ s.cfg.frameLenMax) ∧ exec (.decBit false) s = .refused (.learnOutOfRange fl))

/-- 44_frame_decoder.md R185, R186, R192, R193 through DEC.BIT (45_decode_driver.md R206): in phase DECODE a
bit is buffered; the bit that completes the window has it evaluated in the same step, with one of three
results: framing failure, a byte with the next frame found in the window, a byte with the search
exhausted. -/
def Obligations.DecBitInDecode : Prop :=
  ∀ (s : State) (f : DecodeFields) (b : Bool), decReady s = true → s.dec.phase = .decode f →
    let answer := fun (v : Word) =>
      ({ s.port with responses := s.port.responses ++ [{ rc := .ok, val := v }] } : Port)
    let w := f.buf ++ [b]
    let entry := Phase.sync { consecutiveHighs := 0, lastBit := false }
    (w.length ≠ frs f.frameLength → exec (.decBit b) s = .next
      { s with
        dec := { s.dec with bitOffset := s.dec.bitOffset + 1, phase := .decode { f with buf := w } }
        port := answer 0 }) ∧
    (w.length = frs f.frameLength →
      (evalWindow w f.frameLength s.cfg.bitOrder = .framingFail → exec (.decBit b) s = .next
        { s with
          dec := { s.dec with
            bitOffset := s.dec.bitOffset + 1, nFramingFail := s.dec.nFramingFail + 1, phase := entry }
          port := answer 0x400 }) ∧
      (∀ x j, evalWindow w f.frameLength s.cfg.bitOrder = .byte x (some j) → exec (.decBit b) s = .next
        { s with
          dec := { s.dec with
            bitOffset := s.dec.bitOffset + 1, nBytes := s.dec.nBytes + 1
            phase := .decode
              { frameLength := f.frameLength, buf := w.drop j
                frameStart := f.frameStart + BitVec.ofNat 64 j } }
          env := { s.env with output := s.env.output ++ [x], trace := s.env.trace ++ [.emitByte x] }
          port := answer (BitVec.ofNat 32 (0x100 + x.toNat)) }) ∧
      (∀ x, evalWindow w f.frameLength s.cfg.bitOrder = .byte x none → exec (.decBit b) s = .next
        { s with
          dec := { s.dec with
            bitOffset := s.dec.bitOffset + 1, nBytes := s.dec.nBytes + 1
            nResyncExhaust := s.dec.nResyncExhaust + 1, phase := entry }
          env := { s.env with output := s.env.output ++ [x], trace := s.env.trace ++ [.emitByte x] }
          port := answer (BitVec.ofNat 32 (0x900 + x.toNat)) }))

/-- 44_frame_decoder.md R187, R188, R189, R191, R194, R196: the evaluation of a window, in terms of its
samples: every index it reads is inside the window, a position is the AND of three samples, the frame is valid iff position 0 is 0 and
position 9 is 1, the byte takes positions 1..8 in BIT_ORDER, and the next frame starts at the least index
in SCAN0..N−1 whose sample is 0. -/
def Obligations.WindowEvaluation : Prop :=
  ∀ (w : List Bool) (fl : Nat) (order : BitOrder), 11 ≤ fl → w.length = fl + fl / 8 →
    let v := fun i => w.getD (fl * i / 10) true && w.getD (fl * i / 10 + 1) true &&
      w.getD (fl * i / 10 + 2) true
    (∀ i, i ≤ 9 → fl * i / 10 + 2 < w.length) ∧
    (v 0 = true ∨ v 9 = false → evalWindow w fl order = .framingFail) ∧
    (v 0 = false → v 9 = true → ∃ x next, evalWindow w fl order = .byte x next ∧
      (∀ i, 1 ≤ i → i ≤ 8 →
        x.getLsbD (if order = .msbFirst then 8 - i else i - 1) = v i) ∧
      (∀ j, next = some j ↔
        (fl * 9 / 10 + 1 ≤ j ∧ w[j]? = some false ∧
          ∀ k, fl * 9 / 10 + 1 ≤ k → k < j → w[k]? = some true)) ∧
      (next = none ↔ ∀ k, fl * 9 / 10 + 1 ≤ k → k < w.length → w[k]? = some true))

/-- 44_frame_decoder.md R197: a window whose three samples of each cell equal the logical bits of the frame
of byte x evaluates to x; one whose first three samples are 1 is a framing failure. -/
def Obligations.FrameOfByteDecodes : Prop :=
  ∀ (w : List Bool) (fl : Nat) (order : BitOrder) (x : Byte), 11 ≤ fl → w.length = frs fl →
    ((∀ i t, i ≤ 9 → t ≤ 2 → w[fl * i / 10 + t]? = some
        (if i = 0 then false else if i = 9 then true
          else x.getLsbD (if order = .msbFirst then 8 - i else i - 1))) →
      evalWindow w fl order = .byte x (search w fl)) ∧
    (w[0]? = some true → w[1]? = some true → w[2]? = some true →
      evalWindow w fl order = .framingFail)

/-- 44_frame_decoder.md R194: the sampled indices are inside the window for every frame_length from 11 on,
and for none below. -/
def Obligations.SampledIndicesInBounds : Prop :=
  ∀ fl : Nat, (11 ≤ fl → ∀ i, i ≤ 9 → ofs fl i + 2 ≤ frs fl - 1) ∧
    (1 ≤ fl → fl ≤ 10 → frs fl - 1 < ofs fl 9 + 2)

/-- 43_sync_detector.md R177: from the entry state of SYNC, r high bits and a low one lead to DECODE with
frame_length = FRAME_LEN if r ≥ 2 × FRAME_LEN, and to SYNC with the counter 0 if r < 2 × FRAME_LEN. -/
def Obligations.SyncThreshold : Prop :=
  ∀ (s : State) (r : Nat), decCfgOk s.cfg = true → s.cfg.learn = .configured →
    s.dec.phase = .sync { consecutiveHighs := 0, lastBit := false } →
    ∃ evs t, decodeAll (List.replicate r true ++ [false]) s = .done evs t ∧
      (2 * s.cfg.frameLen ≤ r → t.dec.phase = .decode
        { frameLength := s.cfg.frameLen, buf := [false]
          frameStart := s.dec.bitOffset + BitVec.ofNat 64 r }) ∧
      (r < 2 * s.cfg.frameLen → t.dec.phase = .sync { consecutiveHighs := 0, lastBit := false })

/-- 45_decode_driver.md R207, one bit: what DEC.BIT does to the decoder, to the byte output and to the event
depends only on the configuration, the decoder's own registers and the bit: not on the unpacker, the ACQ
unit, the environment or the port. -/
def Obligations.DecoderDependsOnBitsOnly : Prop :=
  ∀ (bs : List Bool) (s1 s2 t1 : State) (evs : List DecEvent),
    s1.cfg = s2.cfg → s1.dec.phase = s2.dec.phase → s1.dec.bitOffset = s2.dec.bitOffset →
    s1.dec.nBytes = s2.dec.nBytes → s1.dec.nFramingFail = s2.dec.nFramingFail →
    s1.dec.nResyncExhaust = s2.dec.nResyncExhaust → s1.dec.nSync = s2.dec.nSync →
    decodeAll bs s1 = .done evs t1 →
    ∃ t2 out, decodeAll bs s2 = .done evs t2 ∧
      t1.dec.phase = t2.dec.phase ∧ t1.dec.bitOffset = t2.dec.bitOffset ∧
      t1.dec.nBytes = t2.dec.nBytes ∧ t1.dec.nFramingFail = t2.dec.nFramingFail ∧
      t1.dec.nResyncExhaust = t2.dec.nResyncExhaust ∧ t1.dec.nSync = t2.dec.nSync ∧
      t1.env.output = s1.env.output ++ out ∧ t2.env.output = s2.env.output ++ out

/-- 44_frame_decoder.md R198, self-resynchronization: after a bit whose window fails validation, or whose
search is exhausted, the decoder is in the entry state of SYNC, and from the remaining bits it decodes what
a freshly reset decoder with the same `bit_offset` decodes: the same events, phase and bytes. Until the next
commit it emits none. -/
def Obligations.SelfResynchronization : Prop :=
  ∀ (s t t1 : State) (b : Bool) (ev : DecEvent) (bs : List Bool) (evs : List DecEvent),
    decodeBit b s = .done ev t → (ev = .framingFail ∨ ∃ x, ev = .byteExhausted x) →
    decodeAll bs t = .done evs t1 →
    t.dec.phase = .sync { consecutiveHighs := 0, lastBit := false } ∧
    ∃ t2 out,
      decodeAll bs { t with dec := { Dec.reset with bitOffset := t.dec.bitOffset } } = .done evs t2 ∧
      t1.dec.phase = t2.dec.phase ∧ t1.dec.bitOffset = t2.dec.bitOffset ∧
      t1.env.output = t.env.output ++ out ∧ t2.env.output = t.env.output ++ out ∧
      (.commit ∉ evs → out = [])

/-- 44_frame_decoder.md R195: through the bit interface the start check cannot fail: under the invariant, a
window that a bit completes and that fails validation has failed the stop check. -/
def Obligations.OnlyTheStopCheckFails : Prop :=
  ∀ (s t : State) (f : DecodeFields) (b : Bool), DecInv s → s.dec.phase = .decode f →
    decodeBit b s = .done .framingFail t →
    vote (f.buf ++ [b]) f.frameLength 0 = false ∧ vote (f.buf ++ [b]) f.frameLength 9 = false

/-- 45_decode_driver.md R212, its first step and each later UNPK.GET step: what DEC.RUN does with the answer
of UNPK.GET. A bit is kept for the next step, with no response; the end of the stream or an error ends the
run with the response that UNPK.GET gives. (One step for each UNPK.GET and DEC.BIT: log 12.) -/
def Obligations.DecRunFetchesLikeUnpkGet : Prop :=
  ∀ s t : State, decReady s = true → exec .unpkGet s = .next t →
    (∀ b : Bool, t.port.responses = s.port.responses ++ [{ rc := .ok, val := BitVec.ofNat 32 b.toNat }] →
      exec .decRun s = .next { t with dec := { t.dec with run := .bit b }, port := s.port }) ∧
    ((∀ v, t.port.responses ≠ s.port.responses ++ [{ rc := .ok, val := v }]) →
      exec .decRun s = .next { t with dec := { t.dec with run := .idle } }) ∧
    (s.port.inputs = [] → s.acq.runActive = false → s.dec.run = .fetch → step s = exec .decRun s)

/-- 45_decode_driver.md R212, its DEC.BIT steps: the bit in hand is given to the decoder as DEC.BIT does it,
without a response, and the run goes on with UNPK.GET. (One step for each UNPK.GET and DEC.BIT: log 12.) -/
def Obligations.DecRunGivesTheBitToDecBit : Prop :=
  ∀ (s t : State) (b : Bool), decReady s = true → s.port.inputs = [] → s.acq.runActive = false →
    s.dec.run = .bit b → exec (.decBit b) s = .next t →
    step s = .next { t with dec := { t.dec with run := .fetch }, port := s.port }

/-- DEC.RUN completes (45_decode_driver.md R212, "A second DEC.RUN after RC_EOS answers RC_EOS at once"): at
the sticky end of the stream it answers RC_EOS; with a bit left in the current word it takes it and is in
progress (log 12). -/
def Obligations.DecRunStarts : Prop :=
  ∀ s : State, decReady s = true →
    (s.dec.upEos = true → exec .decRun s = .next
      { s with
        dec := { s.dec with run := .idle }
        port := { s.port with responses := s.port.responses ++ [{ rc := .eos, val := 0 }] } }) ∧
    (s.dec.upEos = false → s.dec.upNleft ≠ 0 → exec .decRun s = .next
      { s with dec := { s.dec with
          upNleft := s.dec.upNleft - 1
          run := .bit (s.dec.upWord.getLsbD (s.dec.upNleft - 1)) } })

/-! ### Status registers -/

/-- 10_state.md R41 (and 45_decode_driver.md R215): RDSR of every listed number answers its content and
changes nothing else; of an unlisted number it answers RC_ILLEGAL. THE MODEL'S CHOICE in it: a `pk_nwords` of
2^24 or more reads as its low 24 bits in PK_FILL (log 30), bits 31:18 of DEC_CAUSE read 0 (log 31), and
CFG_TEST_MODE reads 1 for a true TEST_MODE and 0 for a false one (log 32). Bits
7:6 of PK_FILL and 31:16 of ACQ_CAUSE read 0 as in 95_test_vectors.md (0x208, 0x104). -/
def Obligations.StatusRegisterMap : Prop :=
  ∀ s : State,
    let lo := fun (d : DWord) => (BitVec.ofNat 32 d.toNat : Word)
    let hi := fun (d : DWord) => (BitVec.ofNat 32 (d.toNat / 2 ^ 32) : Word)
    let inDecode := fun (x : DecodeFields → Nat) =>
      match s.dec.phase with | .sync _ => 0 | .decode f => x f
    let fs := inDecode fun f => f.frameStart.toNat
    let code := fun (c : Cause) => match c with
      | .none => 0 | .cancelled => 1 | .cfgErr => 2 | .ioErr => 3 | .overrun => 4 | .eos => 5
    let table : List (Byte × Word) :=
      ([(0x00, match s.acq.acqState with | .idle => 0 | .running => 1 | .stopped => 2),
       (0x01, BitVec.ofNat 32 (s.acq.fOverrun.toNat + 2 * s.acq.fIoErr.toNat + 4 * s.acq.fCfgErr.toNat +
          8 * s.acq.fCancelled.toNat + 16 * s.acq.fVerifyErr.toNat + 32 * s.acq.cancel.toNat)),
       (0x02, BitVec.ofNat 32 (code s.acq.acqCause + 256 * s.acq.acqExit.toNat)),
       (0x03, s.acq.lastRead), (0x04, lo s.acq.totalBytes), (0x05, hi s.acq.totalBytes),
       (0x06, lo s.acq.pollCount), (0x07, hi s.acq.pollCount), (0x08, s.acq.peakUnread),
       (0x09, s.acq.ovrBefore), (0x0A, s.acq.ovrLast), (0x0B, s.acq.ovrGap), (0x0C, s.acq.pkWord),
       (0x0D, BitVec.ofNat 32 (s.acq.pkNbits % 64 + 256 * s.acq.pkBatch.length)),
       (0x0E, lo s.acq.vfyMismatch), (0x0F, hi s.acq.vfyMismatch),
       (0x10, s.acq.vfyFirstOff), (0x11, s.acq.vfyFirstGot)] : List (Byte × Word)) ++
      ([(0x20, match s.dec.phase with | .sync _ => 0 | .decode _ => 1),
       (0x21, BitVec.ofNat 32 (code s.dec.decCause + 256 * s.dec.decExit.toNat +
          65536 * s.dec.upEos.toNat + 131072 * s.dec.upIoErr.toNat)),
       (0x22, match s.dec.phase with | .sync f => f.consecutiveHighs | .decode _ => 0),
       (0x23, BitVec.ofNat 32 (inDecode fun f => f.frameLength)),
       (0x24, BitVec.ofNat 32 (inDecode fun f => f.buf.length)),
       (0x25, BitVec.ofNat 32 fs), (0x26, BitVec.ofNat 32 (fs / 2 ^ 32)),
       (0x27, lo s.dec.bitOffset), (0x28, hi s.dec.bitOffset),
       (0x29, lo s.dec.nBytes), (0x2A, hi s.dec.nBytes),
       (0x2B, lo s.dec.nFramingFail), (0x2C, hi s.dec.nFramingFail),
       (0x2D, lo s.dec.nResyncExhaust), (0x2E, hi s.dec.nResyncExhaust),
       (0x2F, lo s.dec.nSync), (0x30, hi s.dec.nSync)] : List (Byte × Word)) ++
      ([(0x40, s.cfg.capacity), (0x41, s.cfg.minCapacity), (0x42, s.cfg.shmBase), (0x43, s.cfg.choke),
       (0x44, BitVec.ofNat 32 s.cfg.signalBit), (0x45, if s.cfg.testMode then 1 else 0),
       (0x46, BitVec.ofNat 32 s.cfg.batchWords), (0x47, BitVec.ofNat 32 s.cfg.frameLen),
       (0x48, BitVec.ofNat 32 s.cfg.frameLenMax), (0x49, BitVec.ofNat 32 s.cfg.frameLenTol),
       (0x4A, match s.cfg.bitOrder with | .msbFirst => 0 | .lsbFirst => 1)] : List (Byte × Word))
    (∀ p ∈ table, exec (.rdsr p.1) s = .next { s with port := { s.port with
      responses := s.port.responses ++ [{ rc := .ok, val := p.2 }] } }) ∧
    (∀ n : Byte, n ∉ table.map Prod.fst → exec (.rdsr n) s = .next { s with port := { s.port with
      responses := s.port.responses ++ [{ rc := .illegal, val := 0 }] } })

/-! ### The whole machine -/

/-- The reset state meets the invariant. -/
def Obligations.InvariantAtReset : Prop := MachineInv State.reset

/-- Every step keeps the invariant (10_state.md R25, R30, R31, R33, R36; 00_scope.md R8; 60_exceptions.md R229;
44_frame_decoder.md R195): the regions stay canonical, `last_read` stays a multiple of 4, the packer and
unpacker counts stay in range, causes and exit codes agree, and the window of phase DECODE stays part-filled,
inside the frame buffer of FRS_MAX samples, with sample 0 equal to 0. -/
def Obligations.StepKeepsInvariant : Prop :=
  ∀ s t : State, MachineInv s → step s = .next t → MachineInv t

/-- From every state that meets the invariant no step faults: every MemRead of a poll is at an aligned offset
below CAPACITY (20_memory.md R66; the fault is the model's, log 11). -/
def Obligations.NoStepFaults : Prop :=
  ∀ s : State, MachineInv s → ∀ r, step s ≠ .fault r

/-- 10_state.md R40: no step changes a configuration register. -/
def Obligations.ConfigurationIsConstant : Prop :=
  ∀ s t : State, step s = .next t → t.cfg = s.cfg

/-- The units share no register (10_state.md R20; 30_encoding.md R91): a command of the ACQ unit changes no
DEC register and no byte of the decoded output; a command of the DEC unit changes no ACQ register, no
region and no persisted word; RDSR changes neither. -/
def Obligations.UnitsShareNoRegister : Prop :=
  ∀ (i : Instr) (s t : State), exec i s = .next t →
    ((i ∈ [.acqInit, .acqPoll, .acqCancel, .acqStop, .acqRun, .packFlush, .packClose] ∨
        (∃ b, i = .packAdd b) ∨ ∃ n, i = .rdsr n) →
      t.dec = s.dec ∧ t.env.output = s.env.output ∧ t.env.sourceTape = s.env.sourceTape) ∧
    ((i ∈ [.unpkGet, .decReset, .decRun] ∨ (∃ b, i = .decBit b) ∨ ∃ n, i = .rdsr n) →
      t.acq = s.acq ∧ t.env.shared = s.env.shared ∧ t.env.ctrl = s.env.ctrl ∧
      t.env.persisted = s.env.persisted ∧ t.env.schedule = s.env.schedule ∧
      t.env.sinkTape = s.env.sinkTape ∧ t.env.producer = s.env.producer)

/-- STOPPED is left by RESET alone (10_state.md R21; 60_exceptions.md R234): any other command leaves a STOPPED
unit STOPPED, with every ACQ register but `cancel` as it was. -/
def Obligations.OnlyResetLeavesStopped : Prop :=
  ∀ (i : Instr) (s t : State), s.acq.acqState = .stopped → i ≠ .reset → exec i s = .next t →
    t.acq = { s.acq with cancel := t.acq.cancel } ∧ (i ≠ .acqCancel → t.acq = s.acq)
end

