-- ==== Sys2Proof/Laws/State.lean ====
section
/-! SUPPORT. One lemma per field per update of the state, each true by rfl: no later proof unfolds a record
update. -/

namespace Sys2Proof.Machine

/-! ### logEvent -/

@[simp] theorem logEvent_cfg (s : State) (ev : BusEvent) : (s.logEvent ev).cfg = s.cfg := rfl
@[simp] theorem logEvent_acq (s : State) (ev : BusEvent) : (s.logEvent ev).acq = s.acq := rfl
@[simp] theorem logEvent_dec (s : State) (ev : BusEvent) : (s.logEvent ev).dec = s.dec := rfl
@[simp] theorem logEvent_port (s : State) (ev : BusEvent) : (s.logEvent ev).port = s.port := rfl
@[simp] theorem logEvent_env_shared (s : State) (ev : BusEvent) : (s.logEvent ev).env.shared = s.env.shared := rfl
@[simp] theorem logEvent_env_sharedEpoch (s : State) (ev : BusEvent) : (s.logEvent ev).env.sharedEpoch = s.env.sharedEpoch := rfl
@[simp] theorem logEvent_env_ctrl (s : State) (ev : BusEvent) : (s.logEvent ev).env.ctrl = s.env.ctrl := rfl
@[simp] theorem logEvent_env_ctrlEpoch (s : State) (ev : BusEvent) : (s.logEvent ev).env.ctrlEpoch = s.env.ctrlEpoch := rfl
@[simp] theorem logEvent_env_producer (s : State) (ev : BusEvent) : (s.logEvent ev).env.producer = s.env.producer := rfl
@[simp] theorem logEvent_env_schedule (s : State) (ev : BusEvent) : (s.logEvent ev).env.schedule = s.env.schedule := rfl
@[simp] theorem logEvent_env_sinkTape (s : State) (ev : BusEvent) : (s.logEvent ev).env.sinkTape = s.env.sinkTape := rfl
@[simp] theorem logEvent_env_persisted (s : State) (ev : BusEvent) : (s.logEvent ev).env.persisted = s.env.persisted := rfl
@[simp] theorem logEvent_env_sourceTape (s : State) (ev : BusEvent) : (s.logEvent ev).env.sourceTape = s.env.sourceTape := rfl
@[simp] theorem logEvent_env_output (s : State) (ev : BusEvent) : (s.logEvent ev).env.output = s.env.output := rfl
@[simp] theorem logEvent_env_trace (s : State) (ev : BusEvent) : (s.logEvent ev).env.trace = s.env.trace ++ [ev] := rfl

/-! ### barrier -/

@[simp] theorem barrier_cfg (s : State) : (barrier s).cfg = s.cfg := rfl
@[simp] theorem barrier_acq (s : State) : (barrier s).acq = s.acq := rfl
@[simp] theorem barrier_dec (s : State) : (barrier s).dec = s.dec := rfl
@[simp] theorem barrier_port (s : State) : (barrier s).port = s.port := rfl
@[simp] theorem barrier_env_shared (s : State) : (barrier s).env.shared = s.env.shared := rfl
@[simp] theorem barrier_env_sharedEpoch (s : State) : (barrier s).env.sharedEpoch = s.env.sharedEpoch := rfl
@[simp] theorem barrier_env_ctrl (s : State) : (barrier s).env.ctrl = s.env.ctrl := rfl
@[simp] theorem barrier_env_ctrlEpoch (s : State) : (barrier s).env.ctrlEpoch = s.env.ctrlEpoch := rfl
@[simp] theorem barrier_env_producer (s : State) : (barrier s).env.producer = s.env.producer := rfl
@[simp] theorem barrier_env_schedule (s : State) : (barrier s).env.schedule = s.env.schedule := rfl
@[simp] theorem barrier_env_sinkTape (s : State) : (barrier s).env.sinkTape = s.env.sinkTape := rfl
@[simp] theorem barrier_env_persisted (s : State) : (barrier s).env.persisted = s.env.persisted := rfl
@[simp] theorem barrier_env_sourceTape (s : State) : (barrier s).env.sourceTape = s.env.sourceTape := rfl
@[simp] theorem barrier_env_output (s : State) : (barrier s).env.output = s.env.output := rfl
@[simp] theorem barrier_env_trace (s : State) : (barrier s).env.trace = s.env.trace ++ [.barrier] := rfl

/-! ### ctrlWrite -/

@[simp] theorem ctrlWrite_cfg (w : CtrlWord) (v : Word) (s : State) : (ctrlWrite w v s).cfg = s.cfg := rfl
@[simp] theorem ctrlWrite_acq (w : CtrlWord) (v : Word) (s : State) : (ctrlWrite w v s).acq = s.acq := rfl
@[simp] theorem ctrlWrite_dec (w : CtrlWord) (v : Word) (s : State) : (ctrlWrite w v s).dec = s.dec := rfl
@[simp] theorem ctrlWrite_port (w : CtrlWord) (v : Word) (s : State) : (ctrlWrite w v s).port = s.port := rfl
@[simp] theorem ctrlWrite_env_shared (w : CtrlWord) (v : Word) (s : State) : (ctrlWrite w v s).env.shared = s.env.shared := rfl
@[simp] theorem ctrlWrite_env_sharedEpoch (w : CtrlWord) (v : Word) (s : State) : (ctrlWrite w v s).env.sharedEpoch = s.env.sharedEpoch := rfl
@[simp] theorem ctrlWrite_env_ctrl (w : CtrlWord) (v : Word) (s : State) : (ctrlWrite w v s).env.ctrl = s.env.ctrl.setWord (ctrlOffset s.cfg w) v := rfl
@[simp] theorem ctrlWrite_env_ctrlEpoch (w : CtrlWord) (v : Word) (s : State) : (ctrlWrite w v s).env.ctrlEpoch = s.env.ctrlEpoch := rfl
@[simp] theorem ctrlWrite_env_producer (w : CtrlWord) (v : Word) (s : State) : (ctrlWrite w v s).env.producer = s.env.producer := rfl
@[simp] theorem ctrlWrite_env_schedule (w : CtrlWord) (v : Word) (s : State) : (ctrlWrite w v s).env.schedule = s.env.schedule := rfl
@[simp] theorem ctrlWrite_env_sinkTape (w : CtrlWord) (v : Word) (s : State) : (ctrlWrite w v s).env.sinkTape = s.env.sinkTape := rfl
@[simp] theorem ctrlWrite_env_persisted (w : CtrlWord) (v : Word) (s : State) : (ctrlWrite w v s).env.persisted = s.env.persisted := rfl
@[simp] theorem ctrlWrite_env_sourceTape (w : CtrlWord) (v : Word) (s : State) : (ctrlWrite w v s).env.sourceTape = s.env.sourceTape := rfl
@[simp] theorem ctrlWrite_env_output (w : CtrlWord) (v : Word) (s : State) : (ctrlWrite w v s).env.output = s.env.output := rfl
@[simp] theorem ctrlWrite_env_trace (w : CtrlWord) (v : Word) (s : State) : (ctrlWrite w v s).env.trace = s.env.trace ++ [.ctrlWrite w v] := rfl

/-! ### prodReset -/

@[simp] theorem prodReset_cfg (s : State) : (prodReset s).cfg = s.cfg := rfl
@[simp] theorem prodReset_acq (s : State) : (prodReset s).acq = s.acq := rfl
@[simp] theorem prodReset_dec (s : State) : (prodReset s).dec = s.dec := rfl
@[simp] theorem prodReset_port (s : State) : (prodReset s).port = s.port := rfl
@[simp] theorem prodReset_env_shared (s : State) : (prodReset s).env.shared = s.env.shared := rfl
@[simp] theorem prodReset_env_sharedEpoch (s : State) : (prodReset s).env.sharedEpoch = s.env.sharedEpoch := rfl
@[simp] theorem prodReset_env_ctrl (s : State) : (prodReset s).env.ctrl = (Memory.setWord [] (ctrlOffset s.cfg .before) 0).setWord (ctrlOffset s.cfg .after) 0 := rfl
@[simp] theorem prodReset_env_ctrlEpoch (s : State) : (prodReset s).env.ctrlEpoch = s.env.ctrlEpoch + 1 := rfl
@[simp] theorem prodReset_env_producer (s : State) : (prodReset s).env.producer = .held := rfl
@[simp] theorem prodReset_env_schedule (s : State) : (prodReset s).env.schedule = s.env.schedule := rfl
@[simp] theorem prodReset_env_sinkTape (s : State) : (prodReset s).env.sinkTape = s.env.sinkTape := rfl
@[simp] theorem prodReset_env_persisted (s : State) : (prodReset s).env.persisted = s.env.persisted := rfl
@[simp] theorem prodReset_env_sourceTape (s : State) : (prodReset s).env.sourceTape = s.env.sourceTape := rfl
@[simp] theorem prodReset_env_output (s : State) : (prodReset s).env.output = s.env.output := rfl
@[simp] theorem prodReset_env_trace (s : State) : (prodReset s).env.trace = s.env.trace ++ [.prodReset] := rfl

/-! ### prodStart -/

@[simp] theorem prodStart_cfg (s : State) : (prodStart s).cfg = s.cfg := rfl
@[simp] theorem prodStart_acq (s : State) : (prodStart s).acq = s.acq := rfl
@[simp] theorem prodStart_dec (s : State) : (prodStart s).dec = s.dec := rfl
@[simp] theorem prodStart_port (s : State) : (prodStart s).port = s.port := rfl
@[simp] theorem prodStart_env_shared (s : State) : (prodStart s).env.shared = [] := rfl
@[simp] theorem prodStart_env_sharedEpoch (s : State) : (prodStart s).env.sharedEpoch = s.env.sharedEpoch + 1 := rfl
@[simp] theorem prodStart_env_ctrl (s : State) : (prodStart s).env.ctrl = s.env.ctrl := rfl
@[simp] theorem prodStart_env_ctrlEpoch (s : State) : (prodStart s).env.ctrlEpoch = s.env.ctrlEpoch := rfl
@[simp] theorem prodStart_env_producer (s : State) : (prodStart s).env.producer = .running := rfl
@[simp] theorem prodStart_env_schedule (s : State) : (prodStart s).env.schedule = s.env.schedule := rfl
@[simp] theorem prodStart_env_sinkTape (s : State) : (prodStart s).env.sinkTape = s.env.sinkTape := rfl
@[simp] theorem prodStart_env_persisted (s : State) : (prodStart s).env.persisted = s.env.persisted := rfl
@[simp] theorem prodStart_env_sourceTape (s : State) : (prodStart s).env.sourceTape = s.env.sourceTape := rfl
@[simp] theorem prodStart_env_output (s : State) : (prodStart s).env.output = s.env.output := rfl
@[simp] theorem prodStart_env_trace (s : State) : (prodStart s).env.trace = s.env.trace ++ [.prodStart] := rfl

/-! ### prodStop -/

@[simp] theorem prodStop_cfg (s : State) : (prodStop s).cfg = s.cfg := rfl
@[simp] theorem prodStop_acq (s : State) : (prodStop s).acq = s.acq := rfl
@[simp] theorem prodStop_dec (s : State) : (prodStop s).dec = s.dec := rfl
@[simp] theorem prodStop_port (s : State) : (prodStop s).port = s.port := rfl
@[simp] theorem prodStop_env_shared (s : State) : (prodStop s).env.shared = s.env.shared := rfl
@[simp] theorem prodStop_env_sharedEpoch (s : State) : (prodStop s).env.sharedEpoch = s.env.sharedEpoch := rfl
@[simp] theorem prodStop_env_ctrl (s : State) : (prodStop s).env.ctrl = s.env.ctrl := rfl
@[simp] theorem prodStop_env_ctrlEpoch (s : State) : (prodStop s).env.ctrlEpoch = s.env.ctrlEpoch := rfl
@[simp] theorem prodStop_env_producer (s : State) : (prodStop s).env.producer = .stopped := rfl
@[simp] theorem prodStop_env_schedule (s : State) : (prodStop s).env.schedule = s.env.schedule := rfl
@[simp] theorem prodStop_env_sinkTape (s : State) : (prodStop s).env.sinkTape = s.env.sinkTape := rfl
@[simp] theorem prodStop_env_persisted (s : State) : (prodStop s).env.persisted = s.env.persisted := rfl
@[simp] theorem prodStop_env_sourceTape (s : State) : (prodStop s).env.sourceTape = s.env.sourceTape := rfl
@[simp] theorem prodStop_env_output (s : State) : (prodStop s).env.output = s.env.output := rfl
@[simp] theorem prodStop_env_trace (s : State) : (prodStop s).env.trace = s.env.trace ++ [.prodStop] := rfl

/-! ### emitByte -/

@[simp] theorem emitByte_cfg (b : Byte) (s : State) : (emitByte b s).cfg = s.cfg := rfl
@[simp] theorem emitByte_acq (b : Byte) (s : State) : (emitByte b s).acq = s.acq := rfl
@[simp] theorem emitByte_dec (b : Byte) (s : State) : (emitByte b s).dec = s.dec := rfl
@[simp] theorem emitByte_port (b : Byte) (s : State) : (emitByte b s).port = s.port := rfl
@[simp] theorem emitByte_env_shared (b : Byte) (s : State) : (emitByte b s).env.shared = s.env.shared := rfl
@[simp] theorem emitByte_env_sharedEpoch (b : Byte) (s : State) : (emitByte b s).env.sharedEpoch = s.env.sharedEpoch := rfl
@[simp] theorem emitByte_env_ctrl (b : Byte) (s : State) : (emitByte b s).env.ctrl = s.env.ctrl := rfl
@[simp] theorem emitByte_env_ctrlEpoch (b : Byte) (s : State) : (emitByte b s).env.ctrlEpoch = s.env.ctrlEpoch := rfl
@[simp] theorem emitByte_env_producer (b : Byte) (s : State) : (emitByte b s).env.producer = s.env.producer := rfl
@[simp] theorem emitByte_env_schedule (b : Byte) (s : State) : (emitByte b s).env.schedule = s.env.schedule := rfl
@[simp] theorem emitByte_env_sinkTape (b : Byte) (s : State) : (emitByte b s).env.sinkTape = s.env.sinkTape := rfl
@[simp] theorem emitByte_env_persisted (b : Byte) (s : State) : (emitByte b s).env.persisted = s.env.persisted := rfl
@[simp] theorem emitByte_env_sourceTape (b : Byte) (s : State) : (emitByte b s).env.sourceTape = s.env.sourceTape := rfl
@[simp] theorem emitByte_env_output (b : Byte) (s : State) : (emitByte b s).env.output = s.env.output ++ [b] := rfl
@[simp] theorem emitByte_env_trace (b : Byte) (s : State) : (emitByte b s).env.trace = s.env.trace ++ [.emitByte b] := rfl

/-! ### respond -/

@[simp] theorem respond_cfg (s : State) (rc : RespCode) (val : Word) : (s.respond rc val).cfg = s.cfg := rfl
@[simp] theorem respond_acq (s : State) (rc : RespCode) (val : Word) : (s.respond rc val).acq = s.acq := rfl
@[simp] theorem respond_dec (s : State) (rc : RespCode) (val : Word) : (s.respond rc val).dec = s.dec := rfl
@[simp] theorem respond_port (s : State) (rc : RespCode) (val : Word) : (s.respond rc val).port = { s.port with responses := s.port.responses ++ [{ rc := rc, val := val }] } := rfl
@[simp] theorem respond_env (s : State) (rc : RespCode) (val : Word) : (s.respond rc val).env = s.env := rfl

/-! ### rbAdvance -/

@[simp] theorem rbAdvance_cfg (w : Word) (s : State) : (rbAdvance w s).cfg = s.cfg := rfl
@[simp] theorem rbAdvance_acq (w : Word) (s : State) : (rbAdvance w s).acq = { s.acq with lastRead := w } := rfl
@[simp] theorem rbAdvance_dec (w : Word) (s : State) : (rbAdvance w s).dec = s.dec := rfl
@[simp] theorem rbAdvance_port (w : Word) (s : State) : (rbAdvance w s).port = s.port := rfl
@[simp] theorem rbAdvance_env (w : Word) (s : State) : (rbAdvance w s).env = s.env := rfl

/-! ### rbStats -/

@[simp] theorem rbStats_cfg (n : Nat) (unread : Word) (s : State) : (rbStats n unread s).cfg = s.cfg := rfl
@[simp] theorem rbStats_dec (n : Nat) (unread : Word) (s : State) : (rbStats n unread s).dec = s.dec := rfl
@[simp] theorem rbStats_port (n : Nat) (unread : Word) (s : State) : (rbStats n unread s).port = s.port := rfl
@[simp] theorem rbStats_env (n : Nat) (unread : Word) (s : State) : (rbStats n unread s).env = s.env := rfl

@[simp] theorem rbStats_acq_totalBytes (n : Nat) (unread : Word) (s : State) :
    (rbStats n unread s).acq.totalBytes = s.acq.totalBytes + BitVec.ofNat 64 n := rfl
@[simp] theorem rbStats_acq_pollCount (n : Nat) (unread : Word) (s : State) :
    (rbStats n unread s).acq.pollCount = s.acq.pollCount + 1 := rfl
@[simp] theorem rbStats_acq_peakUnread (n : Nat) (unread : Word) (s : State) :
    (rbStats n unread s).acq.peakUnread = maxWord s.acq.peakUnread unread := rfl
@[simp] theorem rbStats_acq_acqState (n : Nat) (unread : Word) (s : State) :
    (rbStats n unread s).acq.acqState = s.acq.acqState := rfl
@[simp] theorem rbStats_acq_lastRead (n : Nat) (unread : Word) (s : State) :
    (rbStats n unread s).acq.lastRead = s.acq.lastRead := rfl
@[simp] theorem rbStats_acq_cancel (n : Nat) (unread : Word) (s : State) :
    (rbStats n unread s).acq.cancel = s.acq.cancel := rfl
@[simp] theorem rbStats_acq_fOverrun (n : Nat) (unread : Word) (s : State) :
    (rbStats n unread s).acq.fOverrun = s.acq.fOverrun := rfl
@[simp] theorem rbStats_acq_fIoErr (n : Nat) (unread : Word) (s : State) :
    (rbStats n unread s).acq.fIoErr = s.acq.fIoErr := rfl
@[simp] theorem rbStats_acq_fCfgErr (n : Nat) (unread : Word) (s : State) :
    (rbStats n unread s).acq.fCfgErr = s.acq.fCfgErr := rfl
@[simp] theorem rbStats_acq_fCancelled (n : Nat) (unread : Word) (s : State) :
    (rbStats n unread s).acq.fCancelled = s.acq.fCancelled := rfl
@[simp] theorem rbStats_acq_fVerifyErr (n : Nat) (unread : Word) (s : State) :
    (rbStats n unread s).acq.fVerifyErr = s.acq.fVerifyErr := rfl
@[simp] theorem rbStats_acq_acqCause (n : Nat) (unread : Word) (s : State) :
    (rbStats n unread s).acq.acqCause = s.acq.acqCause := rfl
@[simp] theorem rbStats_acq_acqExit (n : Nat) (unread : Word) (s : State) :
    (rbStats n unread s).acq.acqExit = s.acq.acqExit := rfl
@[simp] theorem rbStats_acq_ovrBefore (n : Nat) (unread : Word) (s : State) :
    (rbStats n unread s).acq.ovrBefore = s.acq.ovrBefore := rfl
@[simp] theorem rbStats_acq_ovrLast (n : Nat) (unread : Word) (s : State) :
    (rbStats n unread s).acq.ovrLast = s.acq.ovrLast := rfl
@[simp] theorem rbStats_acq_ovrGap (n : Nat) (unread : Word) (s : State) :
    (rbStats n unread s).acq.ovrGap = s.acq.ovrGap := rfl
@[simp] theorem rbStats_acq_pkWord (n : Nat) (unread : Word) (s : State) :
    (rbStats n unread s).acq.pkWord = s.acq.pkWord := rfl
@[simp] theorem rbStats_acq_pkNbits (n : Nat) (unread : Word) (s : State) :
    (rbStats n unread s).acq.pkNbits = s.acq.pkNbits := rfl
@[simp] theorem rbStats_acq_pkBatch (n : Nat) (unread : Word) (s : State) :
    (rbStats n unread s).acq.pkBatch = s.acq.pkBatch := rfl
@[simp] theorem rbStats_acq_vfyMismatch (n : Nat) (unread : Word) (s : State) :
    (rbStats n unread s).acq.vfyMismatch = s.acq.vfyMismatch := rfl
@[simp] theorem rbStats_acq_vfyFirstOff (n : Nat) (unread : Word) (s : State) :
    (rbStats n unread s).acq.vfyFirstOff = s.acq.vfyFirstOff := rfl
@[simp] theorem rbStats_acq_vfyFirstGot (n : Nat) (unread : Word) (s : State) :
    (rbStats n unread s).acq.vfyFirstGot = s.acq.vfyFirstGot := rfl
@[simp] theorem rbStats_acq_runActive (n : Nat) (unread : Word) (s : State) :
    (rbStats n unread s).acq.runActive = s.acq.runActive := rfl

/-! ### frmResync -/

@[simp] theorem frmResync_cfg (s : State) : (frmResync s).cfg = s.cfg := rfl
@[simp] theorem frmResync_acq (s : State) : (frmResync s).acq = s.acq := rfl
@[simp] theorem frmResync_dec (s : State) : (frmResync s).dec = { s.dec with phase := .sync SyncFields.entry } := rfl
@[simp] theorem frmResync_port (s : State) : (frmResync s).port = s.port := rfl
@[simp] theorem frmResync_env (s : State) : (frmResync s).env = s.env := rfl

/-! ### unpkNextWord -/

@[simp] theorem unpkNextWord_cfg (s : State) : (unpkNextWord s).cfg = s.cfg := rfl
@[simp] theorem unpkNextWord_acq (s : State) : (unpkNextWord s).acq = s.acq := rfl
@[simp] theorem unpkNextWord_dec (s : State) : (unpkNextWord s).dec = { s.dec with
      upWord := s.dec.upBatch.getD s.dec.upWidx (Config.unspecifiedWord s.dec.upWidx)
      upWidx := s.dec.upWidx + 1
      upNleft := 32 } := rfl
@[simp] theorem unpkNextWord_port (s : State) : (unpkNextWord s).port = s.port := rfl
@[simp] theorem unpkNextWord_env (s : State) : (unpkNextWord s).env = s.env := rfl

/-! ### frmEmit -/

@[simp] theorem frmEmit_cfg (b : Byte) (s : State) : (frmEmit b s).cfg = s.cfg := rfl
@[simp] theorem frmEmit_acq (b : Byte) (s : State) : (frmEmit b s).acq = s.acq := rfl
@[simp] theorem frmEmit_dec (b : Byte) (s : State) : (frmEmit b s).dec = { s.dec with nBytes := s.dec.nBytes + 1 } := rfl
@[simp] theorem frmEmit_port (b : Byte) (s : State) : (frmEmit b s).port = s.port := rfl
@[simp] theorem frmEmit_env_shared (b : Byte) (s : State) : (frmEmit b s).env.shared = s.env.shared := rfl
@[simp] theorem frmEmit_env_sharedEpoch (b : Byte) (s : State) : (frmEmit b s).env.sharedEpoch = s.env.sharedEpoch := rfl
@[simp] theorem frmEmit_env_ctrl (b : Byte) (s : State) : (frmEmit b s).env.ctrl = s.env.ctrl := rfl
@[simp] theorem frmEmit_env_ctrlEpoch (b : Byte) (s : State) : (frmEmit b s).env.ctrlEpoch = s.env.ctrlEpoch := rfl
@[simp] theorem frmEmit_env_producer (b : Byte) (s : State) : (frmEmit b s).env.producer = s.env.producer := rfl
@[simp] theorem frmEmit_env_schedule (b : Byte) (s : State) : (frmEmit b s).env.schedule = s.env.schedule := rfl
@[simp] theorem frmEmit_env_sinkTape (b : Byte) (s : State) : (frmEmit b s).env.sinkTape = s.env.sinkTape := rfl
@[simp] theorem frmEmit_env_persisted (b : Byte) (s : State) : (frmEmit b s).env.persisted = s.env.persisted := rfl
@[simp] theorem frmEmit_env_sourceTape (b : Byte) (s : State) : (frmEmit b s).env.sourceTape = s.env.sourceTape := rfl
@[simp] theorem frmEmit_env_output (b : Byte) (s : State) : (frmEmit b s).env.output = s.env.output ++ [b] := rfl
@[simp] theorem frmEmit_env_trace (b : Byte) (s : State) : (frmEmit b s).env.trace = s.env.trace ++ [.emitByte b] := rfl

/-! ### exitDec -/

@[simp] theorem exitDec_cfg (c : Cause) (s : State) : (exitDec c s).cfg = s.cfg := rfl
@[simp] theorem exitDec_acq (c : Cause) (s : State) : (exitDec c s).acq = s.acq := rfl
@[simp] theorem exitDec_dec (c : Cause) (s : State) : (exitDec c s).dec = { s.dec with decCause := c, decExit := 1 } := rfl
@[simp] theorem exitDec_port (c : Cause) (s : State) : (exitDec c s).port = { s.port with responses := s.port.responses ++ [{ rc := .exit, val := c.value }] } := rfl
@[simp] theorem exitDec_env (c : Cause) (s : State) : (exitDec c s).env = s.env := rfl

/-! ### endAcqRun -/

@[simp] theorem endAcqRun_cfg (s : State) : (endAcqRun s).cfg = s.cfg := rfl
@[simp] theorem endAcqRun_acq (s : State) : (endAcqRun s).acq = { s.acq with runActive := false } := rfl
@[simp] theorem endAcqRun_dec (s : State) : (endAcqRun s).dec = s.dec := rfl
@[simp] theorem endAcqRun_port (s : State) : (endAcqRun s).port = s.port := rfl
@[simp] theorem endAcqRun_env (s : State) : (endAcqRun s).env = s.env := rfl

/-! ### endDecRun -/

@[simp] theorem endDecRun_cfg (s : State) : (endDecRun s).cfg = s.cfg := rfl
@[simp] theorem endDecRun_acq (s : State) : (endDecRun s).acq = s.acq := rfl
@[simp] theorem endDecRun_dec (s : State) : (endDecRun s).dec = { s.dec with run := .idle } := rfl
@[simp] theorem endDecRun_port (s : State) : (endDecRun s).port = s.port := rfl
@[simp] theorem endDecRun_env (s : State) : (endDecRun s).env = s.env := rfl

end Sys2Proof.Machine
end

