-- ==== Sys2Proof/Laws/Memory.lean ====
section
/-! SUPPORT. The laws of memory: a read after a write, the canonical form, and what the producer's
writes do. -/

namespace Sys2Proof.Machine

theorem Memory.get?_set_same (m : Memory) (a : Nat) (b : Byte) : (m.set a b).get? a = some b := by
  induction m with
  | nil => simp [Memory.set, Memory.get?]
  | cons c m ih =>
    unfold Memory.set
    split_ifs with h1 h2
    · simp [Memory.get?]
    · simp [Memory.get?]
    · simp [Memory.get?, h2, ih]

theorem Memory.get?_set_ne (m : Memory) {a x : Nat} (b : Byte) (h : x ≠ a) :
    (m.set a b).get? x = m.get? x := by
  induction m with
  | nil => simp [Memory.set, Memory.get?, h.symm]
  | cons c m ih =>
    unfold Memory.set
    split_ifs with h1 h2
    · simp [Memory.get?, h.symm]
    · simp [Memory.get?, h2, h.symm]
    · simp [Memory.get?, ih]

theorem Memory.mem_set {m : Memory} {a : Nat} {b : Byte} {c : Host.Cell} (h : c ∈ m.set a b) :
    c = (a, b) ∨ c ∈ m := by
  induction m with
  | nil => simpa [Memory.set] using h
  | cons d m ih =>
    unfold Memory.set at h
    split_ifs at h with h1 h2
    · simpa using h
    · rcases List.mem_cons.mp h with h | h
      · exact .inl h
      · exact .inr (List.mem_cons_of_mem _ h)
    · rcases List.mem_cons.mp h with h | h
      · exact .inr (h ▸ List.mem_cons_self)
      · exact (ih h).imp id (List.mem_cons_of_mem _)

/-- Every byte write keeps the canonical form. -/
theorem Memory.wf_set {m : Memory} (h : m.wf) (a : Nat) (b : Byte) : (m.set a b).wf := by
  induction m with
  | nil => simp [Memory.set, Memory.wf]
  | cons c m ih =>
    obtain ⟨hc, hm⟩ := List.pairwise_cons.mp h
    unfold Memory.set
    split_ifs with h1 h2
    · refine List.pairwise_cons.mpr ⟨fun d hd => ?_, h⟩
      rcases List.mem_cons.mp hd with rfl | hd
      · exact h1
      · exact h1.trans (hc d hd)
    · exact List.pairwise_cons.mpr ⟨fun d hd => h2 ▸ hc d hd, hm⟩
    · refine List.pairwise_cons.mpr ⟨fun d hd => ?_, ih hm⟩
      rcases Memory.mem_set hd with rfl | hd
      · show c.1 < a; omega
      · exact hc d hd

theorem Memory.wf_nil : Memory.wf [] := List.Pairwise.nil

/-- Every word write keeps the canonical form. -/
theorem Memory.wf_setWord {m : Memory} (h : m.wf) (a : Nat) (v : Word) : (m.setWord a v).wf :=
  Memory.wf_set (Memory.wf_set (Memory.wf_set (Memory.wf_set h _ _) _ _) _ _) _ _

/-- The bytes that a word write stores. -/
theorem Memory.get?_setWord_byte (m : Memory) (a : Nat) (v : Word) {i : Nat} (h : i < 4) :
    (m.setWord a v).get? (a + i) = some (byteOf v i) := by
  unfold Memory.setWord
  obtain rfl | rfl | rfl | rfl : i = 0 ∨ i = 1 ∨ i = 2 ∨ i = 3 := by omega
  · rw [Memory.get?_set_ne _ _ (by omega), Memory.get?_set_ne _ _ (by omega),
      Memory.get?_set_ne _ _ (by omega)]
    exact Memory.get?_set_same _ _ _
  · rw [Memory.get?_set_ne _ _ (by omega), Memory.get?_set_ne _ _ (by omega)]
    exact Memory.get?_set_same _ _ _
  · rw [Memory.get?_set_ne _ _ (by omega)]
    exact Memory.get?_set_same _ _ _
  · exact Memory.get?_set_same _ _ _

/-- A word write leaves every byte outside its four alone. -/
theorem Memory.get?_setWord_ne (m : Memory) {a x : Nat} (v : Word) (h : x < a ∨ a + 4 ≤ x) :
    (m.setWord a v).get? x = m.get? x := by
  unfold Memory.setWord
  rw [Memory.get?_set_ne _ _ (by omega), Memory.get?_set_ne _ _ (by omega),
    Memory.get?_set_ne _ _ (by omega), Memory.get?_set_ne _ _ (by omega)]

/-- Little-endian bytes put a word together again (20_memory.md R65). -/
theorem wordOfBytes_byteOf (v : Word) :
    wordOfBytes (byteOf v 0) (byteOf v 1) (byteOf v 2) (byteOf v 3) = v := by
  apply BitVec.eq_of_getLsbD_eq
  intro i hi
  simp only [wordOfBytes, byteOf, BitVec.getLsbD_append, BitVec.getLsbD_extractLsb']
  have hi' : i < 32 := hi
  interval_cases i <;> simp

/-! ### A word of the control region, after a write -/

/-- A control word reads as it was last written (20_memory.md R83(d)). -/
theorem ctrlValue_written {cfg : Config} {e : Env} {m : Memory} {w : CtrlWord} {v : Word}
    (h : e.ctrl = m.setWord (ctrlOffset cfg w) v) : ctrlValue cfg e w = v := by
  have hb := fun i hi => Memory.get?_setWord_byte m (ctrlOffset cfg w) v (i := i) hi
  have h0 := hb 0 (by omega)
  rw [Nat.add_zero] at h0
  unfold ctrlValue ctrlByte
  rw [h, h0, hb 1 (by omega), hb 2 (by omega), hb 3 (by omega)]
  exact wordOfBytes_byteOf v

/-- A write elsewhere in the control region leaves a word alone. -/
theorem ctrlValue_elsewhere {cfg : Config} {e e' : Env} {a : Nat} {w : CtrlWord} {v : Word}
    (h : e.ctrl = e'.ctrl.setWord a v) (he : e.ctrlEpoch = e'.ctrlEpoch)
    (hw : ctrlOffset cfg w + 4 ≤ a ∨ a + 4 ≤ ctrlOffset cfg w) :
    ctrlValue cfg e w = ctrlValue cfg e' w := by
  unfold ctrlValue ctrlByte
  rw [h, he, Memory.get?_setWord_ne _ _ (by omega), Memory.get?_setWord_ne _ _ (by omega),
    Memory.get?_setWord_ne _ _ (by omega), Memory.get?_setWord_ne _ _ (by omega)]

/-- A configuration that ACQ.INIT accepts keeps the five control words apart (00_scope.md R7). -/
theorem acqCfgOk_layout {cfg : Config} (h : acqCfgOk cfg = true) : ctrlLayoutOk cfg := by
  simp only [acqCfgOk, ctrlOffsetsOk, Bool.and_eq_true, List.all_cons, List.all_nil, beq_iff_eq,
    decide_eq_true_eq, and_true, List.nodup_cons, List.mem_cons, List.not_mem_nil, or_false, not_or,
    not_false_eq_true, List.nodup_nil] at h
  obtain ⟨-, ⟨⟨h1, h2, h3, h4⟩, ⟨h5, h6, h7⟩, ⟨h8, h9⟩, h10⟩, m⟩ := h
  refine ⟨fun w => ?_, fun w w' => ?_⟩
  · cases w <;> simp only [ctrlOffset, m]
  · cases w <;> cases w' <;> simp_all [ctrlOffset, eq_comm]

/-! ### The producer's writes -/

/-- A write of the producer touches the two regions only. -/
theorem applyProdWrite_spec (cfg : Config) (e : Env) (w : ProdWrite) :
    ∃ sh ct, applyProdWrite cfg e w = { e with shared := sh, ctrl := ct } := by
  cases w <;> exact ⟨_, _, rfl⟩

/-- A batch of writes of the producer touches the two regions only. -/
theorem foldl_applyProdWrite_spec (cfg : Config) (ws : List ProdWrite) (e : Env) :
    ∃ sh ct, ws.foldl (applyProdWrite cfg) e = { e with shared := sh, ctrl := ct } := by
  induction ws generalizing e with
  | nil => exact ⟨_, _, rfl⟩
  | cons w ws ih =>
    obtain ⟨sh, ct, h⟩ := applyProdWrite_spec cfg e w
    obtain ⟨sh', ct', h'⟩ := ih { e with shared := sh, ctrl := ct }
    exact ⟨sh', ct', by rw [List.foldl_cons, h, h']⟩

/-- The producer's turn touches the two regions and takes one batch off the schedule. -/
theorem producerTurn_spec (s : State) :
    ∃ sh ct, producerTurn s =
      { s with env := { s.env with shared := sh, ctrl := ct, schedule := s.env.schedule.tail } } := by
  unfold producerTurn
  split
  case h_1 h => exact ⟨s.env.shared, s.env.ctrl, by rw [h, List.tail_nil, ← h]⟩
  case h_2 b rest h =>
    obtain ⟨sh, ct, hb⟩ := foldl_applyProdWrite_spec s.cfg b s.env
    exact ⟨sh, ct, by simp only [hb, h, List.tail_cons]⟩

/-- With nothing scheduled the producer does nothing. -/
theorem producerTurn_quiet {s : State} (h : s.env.schedule = []) : producerTurn s = s := by
  unfold producerTurn; rw [h]

theorem applyProdWrite_wf (cfg : Config) {e : Env} (w : ProdWrite)
    (h : e.shared.wf ∧ e.ctrl.wf) :
    (applyProdWrite cfg e w).shared.wf ∧ (applyProdWrite cfg e w).ctrl.wf := by
  cases w with
  | sample k v => exact ⟨Memory.wf_setWord h.1 _ _, h.2⟩
  | before v => exact ⟨h.1, Memory.wf_setWord h.2 _ _⟩
  | after v => exact ⟨h.1, Memory.wf_setWord h.2 _ _⟩

theorem foldl_applyProdWrite_wf (cfg : Config) (ws : List ProdWrite) {e : Env}
    (h : e.shared.wf ∧ e.ctrl.wf) :
    (ws.foldl (applyProdWrite cfg) e).shared.wf ∧ (ws.foldl (applyProdWrite cfg) e).ctrl.wf := by
  induction ws generalizing e with
  | nil => exact h
  | cons w ws ih => exact ih (applyProdWrite_wf cfg w h)

/-- The producer's turn keeps both regions canonical. -/
theorem producerTurn_canonical {s : State} (h : memoryCanonical s) :
    memoryCanonical (producerTurn s) := by
  unfold producerTurn
  split
  · exact h
  · exact foldl_applyProdWrite_wf s.cfg _ h

end Sys2Proof.Machine
end

