-- ==== Sys2Proof/Laws/Micro.lean ====
section
/-! SUPPORT. Sequencing of micro-operations: what `bind` answers, and a Hoare-style predicate `Post` with
its rules, so that a property of a sequence is proved piece by piece. -/

namespace Sys2Proof.Machine

variable {α β : Type}

@[simp] theorem Micro.bind_done (a : α) (s : State) (f : α → State → Micro β) :
    (Micro.done a s).bind f = f a s := rfl

@[simp] theorem Micro.bind_raised (c : Cause) (s : State) (f : α → State → Micro β) :
    (Micro.raised c s : Micro α).bind f = .raised c s := rfl

@[simp] theorem Micro.bind_fault (r : Fault) (f : α → State → Micro β) :
    (Micro.fault r : Micro α).bind f = .fault r := rfl

@[simp] theorem Micro.bind_refused (r : Refusal) (f : α → State → Micro β) :
    (Micro.refused r : Micro α).bind f = .refused r := rfl

/-- A sequence is done exactly when its first part is done and the rest is. -/
theorem Micro.bind_eq_done {m : Micro α} {f : α → State → Micro β} {b : β} {t : State} :
    m.bind f = .done b t ↔ ∃ a s, m = .done a s ∧ f a s = .done b t := by
  cases m <;> simp

/-- A sequence raises exactly when its first part does, or is done and the rest does. -/
theorem Micro.bind_eq_raised {m : Micro α} {f : α → State → Micro β} {c : Cause} {t : State} :
    m.bind f = .raised c t ↔
      m = .raised c t ∨ ∃ a s, m = .done a s ∧ f a s = .raised c t := by
  cases m <;> simp

theorem Micro.bind_assoc {γ : Type} (m : Micro α) (f : α → State → Micro β)
    (g : β → State → Micro γ) : (m.bind f).bind g = m.bind fun a s => (f a s).bind g := by
  cases m <;> rfl

@[simp] theorem Micro.onRaise_done (a : α) (s : State) (f : State → State) :
    (Micro.done a s).onRaise f = .done a s := rfl

@[simp] theorem Micro.onRaise_raised (c : Cause) (s : State) (f : State → State) :
    (Micro.raised c s : Micro α).onRaise f = .raised c (f s) := rfl

@[simp] theorem Micro.onRaise_fault (r : Fault) (f : State → State) :
    (Micro.fault r : Micro α).onRaise f = .fault r := rfl

@[simp] theorem Micro.onRaise_refused (r : Refusal) (f : State → State) :
    (Micro.refused r : Micro α).onRaise f = .refused r := rfl

/-- `onRaise` leaves a result alone. -/
theorem Micro.onRaise_eq_done {m : Micro α} {f : State → State} {a : α} {t : State} :
    m.onRaise f = .done a t ↔ m = .done a t := by
  cases m <;> simp

/-- `onRaise` leaves a stop alone. -/
theorem Micro.onRaise_eq_fault {m : Micro α} {f : State → State} {r : Fault} :
    m.onRaise f = .fault r ↔ m = .fault r := by
  cases m <;> simp

theorem Micro.onRaise_eq_refused {m : Micro α} {f : State → State} {r : Refusal} :
    m.onRaise f = .refused r ↔ m = .refused r := by
  cases m <;> simp

/-- What `onRaise` makes of a raised cause. -/
theorem Micro.onRaise_eq_raised {m : Micro α} {f : State → State} {c : Cause} {t : State} :
    m.onRaise f = .raised c t ↔ ∃ s, m = .raised c s ∧ f s = t := by
  cases m <;> simp

/-- `P` of the result if the micro-operation is done, `Q` of the state if it raises. -/
def Micro.Post (m : Micro α) (P : α → State → Prop) (Q : Cause → State → Prop) : Prop :=
  match m with
  | .done a s => P a s
  | .raised c s => Q c s
  | .fault _ => True
  | .refused _ => True

@[simp] theorem Micro.post_done (a : α) (s : State) (P : α → State → Prop)
    (Q : Cause → State → Prop) : (Micro.done a s).Post P Q = P a s := rfl

@[simp] theorem Micro.post_raised (c : Cause) (s : State) (P : α → State → Prop)
    (Q : Cause → State → Prop) : (Micro.raised c s : Micro α).Post P Q = Q c s := rfl

@[simp] theorem Micro.post_fault (r : Fault) (P : α → State → Prop) (Q : Cause → State → Prop) :
    (Micro.fault r : Micro α).Post P Q = True := rfl

@[simp] theorem Micro.post_refused (r : Refusal) (P : α → State → Prop)
    (Q : Cause → State → Prop) : (Micro.refused r : Micro α).Post P Q = True := rfl

theorem Micro.Post.bind {m : Micro α} {f : α → State → Micro β} {P : α → State → Prop}
    {P' : β → State → Prop} {Q : Cause → State → Prop} (h : m.Post P Q)
    (hf : ∀ a s, P a s → (f a s).Post P' Q) : (m.bind f).Post P' Q := by
  cases m with
  | done a s => exact hf a s h
  | raised c s => exact h
  | fault r => trivial
  | refused r => trivial

theorem Micro.Post.mono {m : Micro α} {P P' : α → State → Prop} {Q Q' : Cause → State → Prop}
    (h : m.Post P Q) (hP : ∀ a s, P a s → P' a s) (hQ : ∀ c s, Q c s → Q' c s) : m.Post P' Q' := by
  cases m with
  | done a s => exact hP a s h
  | raised c s => exact hQ c s h
  | fault r => trivial
  | refused r => trivial

/-- What `settleAcq` answers (60_exceptions.md R232). -/
theorem settleAcq_eq_next {m : Micro α} {k : α → State → State} {t : State} :
    settleAcq m k = .next t ↔
      (∃ a s, m = .done a s ∧ t = k a s) ∨ ∃ c s, m = .raised c s ∧ exitAcq c s = .next t := by
  cases m <;> simp [settleAcq, eq_comm]

/-- What `settleDec` answers (60_exceptions.md R232). -/
theorem settleDec_eq_next {m : Micro α} {k : α → State → State} {t : State} :
    settleDec m k = .next t ↔
      (∃ a s, m = .done a s ∧ t = k a s) ∨ ∃ c s, m = .raised c s ∧ t = exitDec c s := by
  cases m <;> simp [settleDec, eq_comm]

/-- What a step of ACQ.RUN answers: the run ends exactly when its poll raises (42_acquisition_loop.md R163). -/
theorem acqRunPoll_eq_next {s t : State} :
    acqRunPoll s = .next t ↔
      (∃ n u, poll s = .done n u ∧ t = { u with acq := { u.acq with runActive := true } }) ∨
      ∃ c u, poll s = .raised c u ∧ exitAcq c (endAcqRun u) = .next t := by
  rw [acqRunPoll, settleAcq_eq_next]
  simp only [Micro.onRaise_eq_done, Micro.onRaise_eq_raised]
  aesop

/-- What a UNPK.GET step of DEC.RUN answers: the run ends at the end of the stream, and when UNPK.GET raises
(45_decode_driver.md R212). -/
theorem decRunFetch_eq_next {s t : State} :
    decRunFetch s = .next t ↔
      (∃ r u, unpkBit s = .done r u ∧ t = decRunGot r u) ∨
      ∃ c u, unpkBit s = .raised c u ∧ t = exitDec c (endDecRun u) := by
  rw [decRunFetch, settleDec_eq_next]
  simp only [Micro.onRaise_eq_done, Micro.onRaise_eq_raised]
  aesop

end Sys2Proof.Machine
end

