-- ==== Sys2Proof/Laws/Ops.lean ====
section
/-! SUPPORT. For each shared operation, one lemma that says once everything it can do. -/

namespace Sys2Proof.Machine

/-! ### Reads of the two regions -/

/-- What a MemRead that is done did (00_scope.md R12). -/
theorem memRead_spec {off : Nat} {s t : State} {v : Word} (h : memRead off s = .done v t) :
    off % 4 = 0 ∧ off < capBytes s.cfg ∧ v = sharedWord (producerTurn s).env off ∧
      t = (producerTurn s).logEvent (.memRead off v) := by
  unfold memRead at h
  split_ifs at h with hc
  injection h with hv ht
  exact ⟨hc.1, hc.2, hv.symm, by rw [← hv]; exact ht.symm⟩

/-- A MemRead inside the region is done. -/
theorem memRead_inside {off : Nat} {s : State} (h4 : off % 4 = 0) (hc : off < capBytes s.cfg) :
    memRead off s = .done (sharedWord (producerTurn s).env off)
      ((producerTurn s).logEvent (.memRead off (sharedWord (producerTurn s).env off))) := by
  simp [memRead, h4, hc]

/-- What a CtrlRead that is done did (20_memory.md R63). -/
theorem ctrlRead_spec {w : CtrlWord} {s t : State} {v : Word} (h : ctrlRead w s = .done v t) :
    v = ctrlValue (producerTurn s).cfg (producerTurn s).env w ∧ v.toNat % 4 = 0 ∧
      t = (producerTurn s).logEvent (.ctrlRead w v) := by
  unfold ctrlRead at h
  dsimp only at h
  split_ifs at h with hc
  injection h with hv ht
  exact ⟨hv.symm, by rw [← hv]; exact hc, by rw [← hv]; exact ht.symm⟩

/-- A CtrlRead raises no cause. -/
theorem ctrlRead_not_raised (w : CtrlWord) (s t : State) (c : Cause) :
    ctrlRead w s ≠ .raised c t := by
  unfold ctrlRead; dsimp only; split_ifs <;> simp

/-- A MemRead raises no cause. -/
theorem memRead_not_raised (off : Nat) (s t : State) (c : Cause) : memRead off s ≠ .raised c t := by
  unfold memRead; split_ifs <;> simp

/-! ### The streams -/

/-- What a SinkWrite that is done did (20_memory.md R67). -/
theorem sinkWrite_spec {ws : List Word} {s t : State} {n : Nat} (h : sinkWrite ws s = .done n t) :
    n = s.env.sinkTape.headD ws.length ∧ n ≤ ws.length ∧
      t = State.logEvent
        { s with env := { s.env with
            sinkTape := s.env.sinkTape.tail
            persisted := s.env.persisted ++ ws.take n } } (.sinkWrite ws n) := by
  unfold sinkWrite at h
  dsimp only at h
  split_ifs at h with hc
  injection h with hn ht
  exact ⟨hn.symm, by rw [← hn]; exact hc, by rw [← hn]; exact ht.symm⟩

theorem sinkWrite_not_raised (ws : List Word) (s t : State) (c : Cause) :
    sinkWrite ws s ≠ .raised c t := by
  unfold sinkWrite; dsimp only; split_ifs <;> simp

/-- What a SourceRead that is done did (20_memory.md R68). -/
theorem sourceRead_spec {max : Nat} {s t : State} {ans : SourceAnswer}
    (h : sourceRead max s = .done ans t) :
    ans = s.env.sourceTape.headD .eos ∧
      (∀ ws, ans = .data ws → 1 ≤ ws.length ∧ ws.length ≤ max) ∧
      t = State.logEvent { s with env := { s.env with sourceTape := s.env.sourceTape.tail } }
        (.sourceRead max ans) := by
  unfold sourceRead at h
  dsimp only at h
  split at h
  case h_1 ws hw =>
    split_ifs at h with hc
    injection h with ha ht
    subst ha
    exact ⟨rfl, fun ws' h' => by rw [hw] at h'; injection h' with h'; exact h' ▸ hc, ht.symm⟩
  case h_2 hw =>
    injection h with ha ht
    subst ha
    exact ⟨rfl, fun ws' h' => by rw [hw] at h'; simp at h', ht.symm⟩
  case h_3 hw =>
    injection h with ha ht
    subst ha
    exact ⟨rfl, fun ws' h' => by rw [hw] at h'; simp at h', ht.symm⟩

theorem sourceRead_not_raised (max : Nat) (s t : State) (c : Cause) :
    sourceRead max s ≠ .raised c t := by
  unfold sourceRead; dsimp only; split <;> (try split_ifs) <;> simp

/-! ### Flush and close -/

/-- What a flush that is done did: nothing on an empty buffer, one fully accepted write otherwise
(41_bit_packer_unpacker.md R141). -/
theorem packFlush_done {s t : State} (h : packFlush s = .done () t) :
    (s.acq.pkBatch = [] ∧ t = s) ∨
    (s.acq.pkBatch ≠ [] ∧ sinkAccepts s.env s.acq.pkBatch.length ∧
      t = { s with
        acq := { s.acq with pkBatch := [] }
        env := { s.env with
          sinkTape := s.env.sinkTape.tail
          persisted := s.env.persisted ++ s.acq.pkBatch
          trace := s.env.trace ++ [.sinkWrite s.acq.pkBatch s.acq.pkBatch.length] } }) := by
  unfold packFlush at h
  split_ifs at h with h0
  · exact .inl ⟨h0, by injection h with _ h; exact h.symm⟩
  · refine .inr ⟨h0, ?_⟩
    obtain ⟨n, s1, h1, h2⟩ := Micro.bind_eq_done.mp h
    obtain ⟨hn, -, rfl⟩ := sinkWrite_spec h1
    dsimp only at h2
    split_ifs at h2 with hk
    injection h2 with _ ht
    subst hk
    refine ⟨hn.symm, ?_⟩
    rw [← ht, List.take_length]
    rfl

/-- What a flush that raises did: IO_ERR, after a write that the sink did not fully accept
(41_bit_packer_unpacker.md R141). -/
theorem packFlush_raised {s t : State} {c : Cause} (h : packFlush s = .raised c t) :
    c = .ioErr ∧ s.acq.pkBatch ≠ [] ∧ ∃ n, n < s.acq.pkBatch.length ∧
      s.env.sinkTape.headD s.acq.pkBatch.length = n ∧
      t = { s with
        acq := { s.acq with pkBatch := [], fIoErr := true }
        env := { s.env with
          sinkTape := s.env.sinkTape.tail
          persisted := s.env.persisted ++ s.acq.pkBatch.take n
          trace := s.env.trace ++ [.sinkWrite s.acq.pkBatch n] } } := by
  unfold packFlush at h
  split_ifs at h with h0
  rcases Micro.bind_eq_raised.mp h with h1 | ⟨n, s1, h1, h2⟩
  · exact absurd h1 (sinkWrite_not_raised _ _ _ _)
  · obtain ⟨hn, hle, rfl⟩ := sinkWrite_spec h1
    dsimp only at h2
    split_ifs at h2 with hk
    injection h2 with hc ht
    exact ⟨hc.symm, h0, n, by omega, hn.symm, by rw [← ht]; rfl⟩

/-- A flush whose write is fully accepted is done. -/
theorem packFlush_accepted {s : State} (h0 : s.acq.pkBatch ≠ [])
    (ha : sinkAccepts s.env s.acq.pkBatch.length) :
    packFlush s = .done () { s with
      acq := { s.acq with pkBatch := [] }
      env := { s.env with
        sinkTape := s.env.sinkTape.tail
        persisted := s.env.persisted ++ s.acq.pkBatch
        trace := s.env.trace ++ [.sinkWrite s.acq.pkBatch s.acq.pkBatch.length] } } := by
  unfold packFlush
  rw [if_neg h0]
  unfold sinkWrite
  unfold sinkAccepts at ha
  simp only [ha, le_refl, if_true, Micro.bind_done, List.take_length]
  rfl

/-- A flush whose write is accepted in part raises IO_ERR (41_bit_packer_unpacker.md R141). -/
theorem packFlush_short {s : State} {n : Nat} (h : s.env.sinkTape.head? = some n)
    (hn : n < s.acq.pkBatch.length) :
    packFlush s = .raised .ioErr { s with
      acq := { s.acq with pkBatch := [], fIoErr := true }
      env := { s.env with
        sinkTape := s.env.sinkTape.tail
        persisted := s.env.persisted ++ s.acq.pkBatch.take n
        trace := s.env.trace ++ [.sinkWrite s.acq.pkBatch n] } } := by
  have h0 : s.acq.pkBatch ≠ [] := by intro h0; rw [h0] at hn; simp at hn
  have hd : s.env.sinkTape.headD s.acq.pkBatch.length = n := by
    rw [List.headD_eq_head?_getD, h]; rfl
  unfold packFlush sinkWrite
  simp only [h0, if_false, hd, hn.le, if_true, Micro.bind_done, Nat.ne_of_lt hn]
  rfl

/-- A flush of which the sink claims more words than it was offered is refused
(93_implementation_defined.md U8; log 8). -/
theorem packFlush_refused {s : State} {n : Nat} (h : s.env.sinkTape.head? = some n)
    (h0 : s.acq.pkBatch ≠ []) (hn : s.acq.pkBatch.length < n) :
    packFlush s = .refused (.sinkOverAccepts n) := by
  have hd : s.env.sinkTape.headD s.acq.pkBatch.length = n := by
    rw [List.headD_eq_head?_getD, h]; rfl
  unfold packFlush sinkWrite
  simp only [h0, if_false, hd, Nat.not_le.mpr hn, Micro.bind_refused]

/-- A flush of an empty buffer does nothing (41_bit_packer_unpacker.md R141). -/
theorem packFlush_empty {s : State} (h0 : s.acq.pkBatch = []) : packFlush s = .done () s := by
  unfold packFlush; rw [if_pos h0]

/-- A close is a flush and then the clearing of the partial word (41_bit_packer_unpacker.md R142). -/
theorem packClose_done {s t : State} (h : packClose s = .done () t) :
    ∃ u, packFlush s = .done () u ∧ t = { u with acq := { u.acq with pkWord := 0, pkNbits := 0 } } := by
  obtain ⟨_, u, h1, h2⟩ := Micro.bind_eq_done.mp h
  injection h2 with _ h2
  exact ⟨u, h1, h2.symm⟩

/-- A close raises only what its flush raises. -/
theorem packClose_raised {s t : State} {c : Cause} (h : packClose s = .raised c t) :
    packFlush s = .raised c t := by
  rcases Micro.bind_eq_raised.mp h with h1 | ⟨_, u, _, h2⟩
  · exact h1
  · simp at h2

/-! ### The exit sequence -/

@[simp] theorem leaveAcq_cfg (c : Cause) (s : State) : (leaveAcq c s).cfg = s.cfg := by
  unfold leaveAcq; dsimp only; split_ifs <;> rfl

@[simp] theorem leaveAcq_dec (c : Cause) (s : State) : (leaveAcq c s).dec = s.dec := by
  unfold leaveAcq; dsimp only; split_ifs <;> rfl

@[simp] theorem leaveAcq_acq (c : Cause) (s : State) :
    (leaveAcq c s).acq = { s.acq with
      acqCause := c
      acqExit := if c = .cancelled then 0 else 1
      acqState := .stopped } := by
  unfold leaveAcq; dsimp only; split_ifs <;> rfl

@[simp] theorem leaveAcq_port (c : Cause) (s : State) :
    (leaveAcq c s).port =
      { s.port with responses := s.port.responses ++ [{ rc := .exit, val := c.value }] } := by
  unfold leaveAcq; dsimp only; split_ifs <;> rfl

/-- The end of the exit sequence stops the producer exactly when the unit is RUNNING
(60_exceptions.md R232). -/
theorem leaveAcq_env (c : Cause) (s : State) :
    (leaveAcq c s).env =
      if s.acq.acqState = .running then
        { s.env with producer := .stopped, trace := s.env.trace ++ [.barrier] ++ [.prodStop] }
      else s.env := by
  unfold leaveAcq; dsimp only; split_ifs <;> rfl

/-- Everything the exit sequence can do: after a close (CANCELLED, OVERRUN) or without one, it leaves
with the cause, or with IO_ERR where the close raised it (60_exceptions.md R232, R234). -/
theorem exitAcq_spec {c : Cause} {s t : State} (h : exitAcq c s = .next t) :
    ((c = .cancelled ∨ c = .overrun) ∧
      ((∃ u, packClose s = .done () u ∧ t = leaveAcq c u) ∨
       ∃ u, packClose s = .raised .ioErr u ∧ t = leaveAcq .ioErr u)) ∨
    (c ≠ .cancelled ∧ c ≠ .overrun ∧ t = leaveAcq c s) := by
  unfold exitAcq at h
  split_ifs at h with hc
  · refine .inl ⟨hc, ?_⟩
    split at h
    case h_1 u hu => exact .inl ⟨u, hu, by injection h with h; exact h.symm⟩
    case h_2 c' u hu =>
      obtain ⟨rfl, -⟩ := packFlush_raised (packClose_raised hu)
      exact .inr ⟨u, hu, by injection h with h; exact h.symm⟩
    case h_3 => simp at h
    case h_4 => simp at h
  · push Not at hc
    exact .inr ⟨hc.1, hc.2, by injection h with h; exact h.symm⟩

/-! ### The packer and the verifier -/

/-- Everything PACK.ADD can do when it is done (41_bit_packer_unpacker.md R140). -/
theorem packBit_done {b : Bool} {s t : State} (h : packBit b s = .done () t) :
    (s.acq.pkNbits + 1 ≠ 32 ∧
      t = { s with acq := { s.acq with
        pkWord := shiftIn s.acq.pkWord b
        pkNbits := s.acq.pkNbits + 1 } }) ∨
    (s.acq.pkNbits + 1 = 32 ∧ s.acq.pkBatch.length + 1 ≠ s.cfg.batchWords ∧
      t = { s with acq := { s.acq with
        pkBatch := s.acq.pkBatch ++ [shiftIn s.acq.pkWord b]
        pkWord := 0
        pkNbits := 0 } }) ∨
    (s.acq.pkNbits + 1 = 32 ∧ s.acq.pkBatch.length + 1 = s.cfg.batchWords ∧
      packFlush { s with acq := { s.acq with
        pkBatch := s.acq.pkBatch ++ [shiftIn s.acq.pkWord b]
        pkWord := 0
        pkNbits := 0 } } = .done () t) := by
  unfold packBit at h
  simp only [List.length_append, List.length_cons, List.length_nil, Nat.zero_add] at h
  split_ifs at h with h1 h2
  · exact .inr (.inr ⟨h1, h2, h⟩)
  · exact .inr (.inl ⟨h1, h2, by injection h with _ h; exact h.symm⟩)
  · exact .inl ⟨h1, by injection h with _ h; exact h.symm⟩

/-- PACK.ADD raises only from the flush of the batch it fills (41_bit_packer_unpacker.md R140). -/
theorem packBit_raised {b : Bool} {s t : State} {c : Cause} (h : packBit b s = .raised c t) :
    s.acq.pkNbits + 1 = 32 ∧ s.acq.pkBatch.length + 1 = s.cfg.batchWords ∧
      packFlush { s with acq := { s.acq with
        pkBatch := s.acq.pkBatch ++ [shiftIn s.acq.pkWord b]
        pkWord := 0
        pkNbits := 0 } } = .raised c t := by
  unfold packBit at h
  simp only [List.length_append, List.length_cons, List.length_nil, Nat.zero_add] at h
  split_ifs at h with h1 h2
  exact ⟨h1, h2, h⟩

/-- VFY.CHECK touches the verifier's registers only (41_bit_packer_unpacker.md R147). -/
theorem verifyCheck_spec (v off : Word) (s : State) :
    ∃ m o g f, verifyCheck v off s = { s with acq := { s.acq with
      vfyMismatch := m, vfyFirstOff := o, vfyFirstGot := g, fVerifyErr := f } } := by
  unfold verifyCheck
  split_ifs
  · exact ⟨s.acq.vfyMismatch, s.acq.vfyFirstOff, s.acq.vfyFirstGot, s.acq.fVerifyErr, rfl⟩
  all_goals exact ⟨_, _, _, _, rfl⟩

end Sys2Proof.Machine
end

