-- ==== Sys2Proof/Laws/Decoder.lean ====
section
/-! SUPPORT. The decode unit: everything UNPK.GET, SYNC.BIT, FRM.BIT and DEC.BIT can do. -/

namespace Sys2Proof.Machine

/-! ### The frame buffer -/

/-- Every window of a legal frame_length fits into the frame buffer (00_scope.md R8). -/
theorem frs_le_frsMax {cfg : Config} {fl : Nat} (h : fl ≤ cfg.frameLenMax) : frs fl ≤ frsMax cfg := by
  unfold frsMax frs; omega

/-! ### The unpacker -/

/-- Everything a refill that is done did (41_bit_packer_unpacker.md R145). -/
theorem unpkRefill_done {s t : State} {more : Bool} (h : unpkRefill s = .done more t) :
    (∃ ws, more = true ∧ s.env.sourceTape.headD .eos = .data ws ∧ 1 ≤ ws.length ∧
      ws.length ≤ s.cfg.batchWords ∧
      t = { s with
        dec := { s.dec with upBatch := ws, upWidx := 0 }
        env := { s.env with
          sourceTape := s.env.sourceTape.tail
          trace := s.env.trace ++ [.sourceRead s.cfg.batchWords (.data ws)] } }) ∨
    (more = false ∧ s.env.sourceTape.headD .eos = .eos ∧
      t = { s with
        dec := { s.dec with upEos := true, decCause := .eos, decExit := 0 }
        env := { s.env with
          sourceTape := s.env.sourceTape.tail
          trace := s.env.trace ++ [.sourceRead s.cfg.batchWords .eos] } }) := by
  obtain ⟨ans, s1, h1, h2⟩ := Micro.bind_eq_done.mp h
  obtain ⟨ha, hlen, rfl⟩ := sourceRead_spec h1
  cases ans with
  | data ws =>
    injection h2 with hb ht
    exact .inl ⟨ws, hb.symm, ha.symm, (hlen ws rfl).1, (hlen ws rfl).2, ht.symm⟩
  | eos =>
    injection h2 with hb ht
    exact .inr ⟨hb.symm, ha.symm, ht.symm⟩
  | err => simp at h2

/-- A refill raises IO_ERR exactly on the source's failure (41_bit_packer_unpacker.md R145). -/
theorem unpkRefill_raised {s t : State} {c : Cause} (h : unpkRefill s = .raised c t) :
    c = .ioErr ∧ s.env.sourceTape.headD .eos = .err ∧
      t = { s with
        dec := { s.dec with upIoErr := true }
        env := { s.env with
          sourceTape := s.env.sourceTape.tail
          trace := s.env.trace ++ [.sourceRead s.cfg.batchWords .err] } } := by
  rcases Micro.bind_eq_raised.mp h with h1 | ⟨ans, s1, h1, h2⟩
  · exact absurd h1 (sourceRead_not_raised _ _ _ _)
  obtain ⟨ha, -, rfl⟩ := sourceRead_spec h1
  cases ans with
  | data ws => simp at h2
  | eos => simp at h2
  | err =>
    injection h2 with hc ht
    exact ⟨hc.symm, ha.symm, ht.symm⟩

/-- Everything UNPK.GET can do when it is done (41_bit_packer_unpacker.md R144): the sticky end of the
stream, the end met by a refill, or a bit of the current word, of the next buffered word, or of the
first word of a refill. -/
theorem unpkBit_done {s t : State} {r : Option Bool} (h : unpkBit s = .done r t) :
    (s.dec.upEos = true ∧ r = none ∧ t = s) ∨
    (s.dec.upEos = false ∧ s.dec.upNleft ≠ 0 ∧ unpkTakeBit s = .done r t) ∨
    (s.dec.upEos = false ∧ s.dec.upNleft = 0 ∧ s.dec.upWidx ≠ s.dec.upBatch.length ∧
      unpkTakeBit (unpkNextWord s) = .done r t) ∨
    (s.dec.upEos = false ∧ s.dec.upNleft = 0 ∧ s.dec.upWidx = s.dec.upBatch.length ∧
      ((∃ u, unpkRefill s = .done true u ∧ unpkTakeBit (unpkNextWord u) = .done r t) ∨
       (unpkRefill s = .done false t ∧ r = none))) := by
  unfold unpkBit at h
  split_ifs at h with h0 h1 h2
  · injection h with hr ht
    exact .inl ⟨h0, hr.symm, ht.symm⟩
  · obtain ⟨more, u, h3, h4⟩ := Micro.bind_eq_done.mp h
    refine .inr (.inr (.inr ⟨by simpa using h0, h1, h2, ?_⟩))
    cases more with
    | true => exact .inl ⟨u, h3, h4⟩
    | false =>
      injection h4 with hr ht
      subst ht
      exact .inr ⟨h3, hr.symm⟩
  · exact .inr (.inr (.inl ⟨by simpa using h0, h1, h2, h⟩))
  · exact .inr (.inl ⟨by simpa using h0, h1, h⟩)

/-- UNPK.GET raises only from its refill (41_bit_packer_unpacker.md R144). -/
theorem unpkBit_raised {s t : State} {c : Cause} (h : unpkBit s = .raised c t) :
    s.dec.upEos = false ∧ s.dec.upNleft = 0 ∧ s.dec.upWidx = s.dec.upBatch.length ∧
      unpkRefill s = .raised c t := by
  unfold unpkBit at h
  split_ifs at h with h0 h1 h2
  · rcases Micro.bind_eq_raised.mp h with h3 | ⟨more, u, -, h4⟩
    · exact ⟨by simpa using h0, h1, h2, h3⟩
    · cases more <;> simp [unpkTakeBit] at h4
  · simp [unpkTakeBit] at h
  · simp [unpkTakeBit] at h

/-! ### The sync detector -/

/-- Everything SYNC.BIT can do when it is done: commit, or go on counting (43_sync_detector.md R175,
R176). -/
theorem syncBit_done {f : SyncFields} {b : Bool} {off : DWord} {s t : State} {ev : DecEvent}
    (h : syncBit f b off s = .done ev t) :
    (b = false ∧ f.lastBit = true ∧ syncMin s.cfg.frameLen ≤ f.consecutiveHighs.toNat ∧
      11 ≤ learn s.cfg.learn s.cfg.frameLen f.consecutiveHighs.toNat ∧
      learn s.cfg.learn s.cfg.frameLen f.consecutiveHighs.toNat ≤ s.cfg.frameLenMax ∧
      ev = .commit ∧
      t = { s with dec := { s.dec with
        phase := .decode
          { frameLength := learn s.cfg.learn s.cfg.frameLen f.consecutiveHighs.toNat
            buf := [b], frameStart := off }
        nSync := s.dec.nSync + 1 } }) ∨
    (¬ (b = false ∧ f.lastBit = true ∧ syncMin s.cfg.frameLen ≤ f.consecutiveHighs.toNat) ∧
      ev = .none ∧ t = { s with dec := { s.dec with phase := .sync (syncNext f b) } }) := by
  unfold syncBit syncCommit at h
  dsimp only at h
  split_ifs at h with h1 h2
  · injection h with he ht
    exact .inl ⟨h1.1, h1.2.1, h1.2.2, h2.1, h2.2, he.symm, ht.symm⟩
  · injection h with he ht
    exact .inr ⟨h1, he.symm, ht.symm⟩

theorem syncBit_not_raised (f : SyncFields) (b : Bool) (off : DWord) (s t : State) (c : Cause) :
    syncBit f b off s ≠ .raised c t := by
  unfold syncBit syncCommit; dsimp only; split_ifs <;> simp

/-! ### The frame decoder -/

/-- FRM.BIT never stops and never raises (44_frame_decoder.md R185). -/
theorem frmBit_is_done (f : DecodeFields) (b : Bool) (s : State) :
    ∃ ev t, frmBit f b s = .done ev t := by
  unfold frmBit frmEval
  dsimp only
  split_ifs
  · split <;> exact ⟨_, _, rfl⟩
  · exact ⟨_, _, rfl⟩

/-- Everything FRM.BIT can do: buffer the bit, or evaluate the window it completes
(44_frame_decoder.md R185, R186). -/
theorem frmBit_done {f : DecodeFields} {b : Bool} {s t : State} {ev : DecEvent}
    (h : frmBit f b s = .done ev t) :
    (f.buf.length + 1 ≠ frs f.frameLength ∧ ev = .none ∧
      t = { s with dec := { s.dec with phase := .decode { f with buf := f.buf ++ [b] } } }) ∨
    (f.buf.length + 1 = frs f.frameLength ∧
      evalWindow (f.buf ++ [b]) f.frameLength s.cfg.bitOrder = .framingFail ∧ ev = .framingFail ∧
      t = { s with dec := { s.dec with
        phase := .sync SyncFields.entry, nFramingFail := s.dec.nFramingFail + 1 } }) ∨
    (∃ x j, f.buf.length + 1 = frs f.frameLength ∧
      evalWindow (f.buf ++ [b]) f.frameLength s.cfg.bitOrder = .byte x (some j) ∧ ev = .byte x ∧
      t = { frmEmit x s with dec := { s.dec with
        phase := .decode (frmShift { f with buf := f.buf ++ [b] } j), nBytes := s.dec.nBytes + 1 } }) ∨
    (∃ x, f.buf.length + 1 = frs f.frameLength ∧
      evalWindow (f.buf ++ [b]) f.frameLength s.cfg.bitOrder = .byte x none ∧ ev = .byteExhausted x ∧
      t = { frmEmit x s with dec := { s.dec with
        phase := .sync SyncFields.entry, nBytes := s.dec.nBytes + 1
        nResyncExhaust := s.dec.nResyncExhaust + 1 } }) := by
  unfold frmBit frmEval at h
  simp only [List.length_append, List.length_cons, List.length_nil, Nat.zero_add] at h
  split_ifs at h with h1
  · split at h
    case h_1 hw =>
      injection h with he ht
      exact .inr (.inl ⟨h1, hw, he.symm, ht.symm⟩)
    case h_2 x j hw =>
      injection h with he ht
      exact .inr (.inr (.inl ⟨x, j, h1, hw, he.symm, ht.symm⟩))
    case h_3 x hw =>
      injection h with he ht
      exact .inr (.inr (.inr ⟨x, h1, hw, he.symm, ht.symm⟩))
  · injection h with he ht
    exact .inl ⟨h1, he.symm, ht.symm⟩

/-- DEC.BIT raises nothing (45_decode_driver.md R206). -/
theorem decodeBit_not_raised (b : Bool) (s t : State) (c : Cause) : decodeBit b s ≠ .raised c t := by
  unfold decodeBit
  dsimp only
  split
  · exact syncBit_not_raised _ _ _ _ _ _
  · obtain ⟨ev, t', h⟩ := frmBit_is_done ‹_› b
      { s with dec := { s.dec with bitOffset := s.dec.bitOffset + 1 } }
    rw [h]; simp

end Sys2Proof.Machine
end

