-- ==== Sys2Proof/Laws/PerInstr.lean ====
section
/-! SUPPORT. Statements made per command, one lemma per constructor. -/

namespace Sys2Proof

/-- The bits of a made command word (30_encoding.md R90). -/
theorem CmdWord.make_getLsbD (op : Byte) (arg : Word) (i : Nat) :
    (CmdWord.make op arg).getLsbD i = if i < 32 then arg.getLsbD i else op.getLsbD (i - 32) :=
  BitVec.getLsbD_append (x := op) (y := arg) (i := i)

/-- The fields of a made command word read back (30_encoding.md R90). -/
theorem CmdWord.op_make (op : Byte) (arg : Word) : CmdWord.op (CmdWord.make op arg) = op := by
  apply BitVec.eq_of_getLsbD_eq
  intro i hi
  rw [CmdWord.op, BitVec.getLsbD_extractLsb', CmdWord.make_getLsbD]
  simp [hi]

theorem CmdWord.arg_make (op : Byte) (arg : Word) : CmdWord.arg (CmdWord.make op arg) = arg := by
  apply BitVec.eq_of_getLsbD_eq
  intro i hi
  rw [CmdWord.arg, BitVec.getLsbD_extractLsb', CmdWord.make_getLsbD]
  simp [hi]

/-- A word is made of its two fields (30_encoding.md R90). -/
theorem CmdWord.make_op_arg (w : CmdWord) : CmdWord.make (CmdWord.op w) (CmdWord.arg w) = w := by
  apply BitVec.eq_of_getLsbD_eq
  intro i hi
  rw [CmdWord.make_getLsbD, CmdWord.op, CmdWord.arg, BitVec.getLsbD_extractLsb',
    BitVec.getLsbD_extractLsb']
  by_cases h : i < 32
  · simp [h]
  · have h1 : i - 32 < 8 := by omega
    have h2 : 32 + (i - 32) = i := by omega
    simp [h, h1, h2]

namespace Laws.FieldsOfEncoding

/-- The encoding of a command holds its opcode and its operand in their fields, and only the operand's
bits are set in `arg` (30_encoding.md R90 to R92). -/
def Statement (i : Instr) : Prop :=
  CmdWord.op (encode i) = i.opcode ∧ CmdWord.arg (encode i) = i.arg ∧
    (i.arg.toNat < match i with
      | .packAdd _ | .decBit _ => 2
      | .rdsr _ => 256
      | _ => 1)

theorem fields (i : Instr) :
    CmdWord.op (encode i) = i.opcode ∧ CmdWord.arg (encode i) = i.arg :=
  ⟨CmdWord.op_make _ _, CmdWord.arg_make _ _⟩

theorem reset : Statement .reset := ⟨(fields _).1, (fields _).2, by decide⟩
theorem acqInit : Statement .acqInit := ⟨(fields _).1, (fields _).2, by decide⟩
theorem acqPoll : Statement .acqPoll := ⟨(fields _).1, (fields _).2, by decide⟩
theorem acqCancel : Statement .acqCancel := ⟨(fields _).1, (fields _).2, by decide⟩
theorem acqStop : Statement .acqStop := ⟨(fields _).1, (fields _).2, by decide⟩
theorem acqRun : Statement .acqRun := ⟨(fields _).1, (fields _).2, by decide⟩
theorem packAdd (b : Bool) : Statement (.packAdd b) :=
  ⟨(fields _).1, (fields _).2, by cases b <;> decide⟩
theorem packFlush : Statement .packFlush := ⟨(fields _).1, (fields _).2, by decide⟩
theorem packClose : Statement .packClose := ⟨(fields _).1, (fields _).2, by decide⟩
theorem unpkGet : Statement .unpkGet := ⟨(fields _).1, (fields _).2, by decide⟩
theorem decReset : Statement .decReset := ⟨(fields _).1, (fields _).2, by decide⟩
theorem decBit (b : Bool) : Statement (.decBit b) :=
  ⟨(fields _).1, (fields _).2, by cases b <;> decide⟩
theorem decRun : Statement .decRun := ⟨(fields _).1, (fields _).2, by decide⟩
theorem rdsr (n : Byte) : Statement (.rdsr n) := by
  refine ⟨(fields _).1, (fields _).2, ?_⟩
  have : n.toNat < 256 := n.isLt
  simp only [Instr.arg, BitVec.truncate_eq_setWidth, BitVec.toNat_setWidth]
  omega

end Laws.FieldsOfEncoding

end Sys2Proof
end

