-- ==== Sys2Proof/Laws/Ring.lean ====
section
/-! SUPPORT. The poll: its loops as one packaged induction, and everything one poll can do. -/

namespace Sys2Proof.Machine

/-- A property that every MemRead and every Sample keeps is kept by a span's loop. -/
theorem sampleLoop_post {P : State → Prop} {Q : Cause → State → Prop}
    (hm : ∀ off s, P s → (memRead off s).Post (fun _ => P) Q)
    (hr : ∀ v off s, P s → (rbSample v off s).Post (fun _ => P) Q) :
    ∀ n o off s, P s → (sampleLoop n o off s).Post (fun _ => P) Q := by
  intro n
  induction n with
  | zero => intro o off s h; exact h
  | succ n ih =>
    intro o off s h
    exact (hm o s h).bind fun v s1 h1 => (hr v off s1 h1).bind fun _ s2 h2 => ih _ _ s2 h2

/-- A property that every MemRead and every Sample keeps is kept by the data phase of a poll. -/
theorem spanLoop_post {P : State → Prop} {Q : Cause → State → Prop}
    (hm : ∀ off s, P s → (memRead off s).Post (fun _ => P) Q)
    (hr : ∀ v off s, P s → (rbSample v off s).Post (fun _ => P) Q) :
    ∀ spans off s, P s → (spanLoop spans off s).Post (fun _ => P) Q := by
  intro spans
  induction spans with
  | nil => intro off s h; exact h
  | cons sp rest ih =>
    intro off s h
    exact (sampleLoop_post hm hr _ _ _ s h).bind fun off' s' h' => ih off' s' h'

/-- The overrun check raises OVERRUN with its report, or changes nothing (40_ring_consumer.md R120). -/
theorem rbOvrChk_cases (b : Word) (s : State) :
    (capBytes s.cfg < (sub32 b s.acq.lastRead).toNat ∧
      rbOvrChk b s = .raised .overrun { s with acq := { s.acq with
        fOverrun := true
        ovrBefore := b
        ovrLast := s.acq.lastRead
        ovrGap := sub32 b s.acq.lastRead } }) ∨
    ((sub32 b s.acq.lastRead).toNat ≤ capBytes s.cfg ∧ rbOvrChk b s = .done () s) := by
  unfold rbOvrChk
  split_ifs with h
  · exact .inl ⟨h, rfl⟩
  · exact .inr ⟨Nat.le_of_not_lt h, rfl⟩

/-- The state in which a poll takes its final look at BEFORE: after the data, RB.ADVANCE and RB.STATS
(40_ring_consumer.md R110). -/
def pollChecked (cfg : Config) (l w : Word) (s : State) : State :=
  barrier (rbStats (spanBytes (rbSpans (capBytes cfg) l w)) (sub32 w l) (rbAdvance w s))

/-- Everything a poll that is done did (40_ring_consumer.md R110). -/
theorem poll_done {s t : State} {n : Nat} (h : poll s = .done n t) :
    s.acq.cancel = false ∧ ∃ w s1 o s2 b,
      ctrlRead .after s = .done w s1 ∧
      spanLoop (rbSpans (capBytes s1.cfg) s1.acq.lastRead w) s1.acq.lastRead (barrier s1) = .done o s2 ∧
      ctrlRead .before (pollChecked s1.cfg s1.acq.lastRead w s2) = .done b t ∧
      (sub32 b t.acq.lastRead).toNat ≤ capBytes t.cfg ∧
      n = spanBytes (rbSpans (capBytes s1.cfg) s1.acq.lastRead w) := by
  obtain ⟨_, s0, h0, h⟩ := Micro.bind_eq_done.mp h
  unfold rbCancelChk at h0
  split_ifs at h0 with hc
  injection h0 with _ h0
  subst h0
  obtain ⟨w, s1, h1, h⟩ := Micro.bind_eq_done.mp h
  obtain ⟨o, s2, h2, h⟩ := Micro.bind_eq_done.mp h
  obtain ⟨b, s3, h3, h⟩ := Micro.bind_eq_done.mp h
  obtain ⟨_, s4, h4, h⟩ := Micro.bind_eq_done.mp h
  injection h with hn ht
  rcases rbOvrChk_cases b s3 with ⟨-, hr⟩ | ⟨hle, hr⟩
  · simp [hr] at h4
  · rw [hr] at h4
    injection h4 with _ h4
    subst h4 ht
    exact ⟨by simpa using hc, w, s1, o, s2, b, h1, h2, h3, hle, hn.symm⟩

/-- Everything a poll that raises did: CANCELLED before any access, IO_ERR among the Samples, OVERRUN at
the end (40_ring_consumer.md R110, R111, R117, R120). -/
theorem poll_raised {s t : State} {c : Cause} (h : poll s = .raised c t) :
    (s.acq.cancel = true ∧ c = .cancelled ∧ t = { s with acq := { s.acq with fCancelled := true } }) ∨
    (s.acq.cancel = false ∧ ∃ w s1, ctrlRead .after s = .done w s1 ∧
      (spanLoop (rbSpans (capBytes s1.cfg) s1.acq.lastRead w) s1.acq.lastRead (barrier s1) = .raised c t ∨
       ∃ o s2 b s3,
        spanLoop (rbSpans (capBytes s1.cfg) s1.acq.lastRead w) s1.acq.lastRead (barrier s1) = .done o s2 ∧
        ctrlRead .before (pollChecked s1.cfg s1.acq.lastRead w s2) = .done b s3 ∧
        capBytes s3.cfg < (sub32 b s3.acq.lastRead).toNat ∧ c = .overrun ∧
        t = { s3 with acq := { s3.acq with
          fOverrun := true
          ovrBefore := b
          ovrLast := s3.acq.lastRead
          ovrGap := sub32 b s3.acq.lastRead } })) := by
  rcases Micro.bind_eq_raised.mp h with h0 | ⟨_, s0, h0, h⟩
  · unfold rbCancelChk at h0
    split_ifs at h0 with hc
    injection h0 with h0 h1
    exact .inl ⟨hc, h0.symm, h1.symm⟩
  · unfold rbCancelChk at h0
    split_ifs at h0 with hc
    injection h0 with _ h0
    subst h0
    refine .inr ⟨by simpa using hc, ?_⟩
    rcases Micro.bind_eq_raised.mp h with h1 | ⟨w, s1, h1, h⟩
    · exact absurd h1 (ctrlRead_not_raised _ _ _ _)
    refine ⟨w, s1, h1, ?_⟩
    rcases Micro.bind_eq_raised.mp h with h2 | ⟨o, s2, h2, h⟩
    · exact .inl h2
    rcases Micro.bind_eq_raised.mp h with h3 | ⟨b, s3, h3, h⟩
    · exact absurd h3 (ctrlRead_not_raised _ _ _ _)
    rcases Micro.bind_eq_raised.mp h with h4 | ⟨_, s4, _, h⟩
    · rcases rbOvrChk_cases b s3 with ⟨hlt, hr⟩ | ⟨-, hr⟩
      · rw [hr] at h4
        injection h4 with h4 h5
        exact .inr ⟨o, s2, b, s3, h2, h3, hlt, h4.symm, h5.symm⟩
      · simp [hr] at h4
    · simp at h

/-! ### What a poll leaves alone -/

/-- What the data phase of a poll leaves alone, whatever the producer and the sink do meanwhile: all but
the packer, the verifier's registers, `f_io_err`, the two regions with their schedule, the sink and the
trace (40_ring_consumer.md R117). -/
structure DataFrame (s t : State) : Prop where
  cfg : t.cfg = s.cfg
  dec : t.dec = s.dec
  port : t.port = s.port
  acq : t.acq = { s.acq with
    pkWord := t.acq.pkWord, pkNbits := t.acq.pkNbits, pkBatch := t.acq.pkBatch
    vfyMismatch := t.acq.vfyMismatch, vfyFirstOff := t.acq.vfyFirstOff
    vfyFirstGot := t.acq.vfyFirstGot, fVerifyErr := t.acq.fVerifyErr, fIoErr := t.acq.fIoErr }
  env : t.env = { s.env with
    shared := t.env.shared, ctrl := t.env.ctrl, schedule := t.env.schedule
    sinkTape := t.env.sinkTape, persisted := t.env.persisted, trace := t.env.trace }

theorem DataFrame.refl (s : State) : DataFrame s s := ⟨rfl, rfl, rfl, rfl, rfl⟩

theorem DataFrame.trans {s t u : State} (h : DataFrame s t) (h' : DataFrame t u) : DataFrame s u :=
  ⟨h'.cfg.trans h.cfg, h'.dec.trans h.dec, h'.port.trans h.port,
    by rw [h'.acq, h.acq], by rw [h'.env, h.env]⟩

theorem producerTurn_frame (s : State) : DataFrame s (producerTurn s) := by
  obtain ⟨sh, ct, h⟩ := producerTurn_spec s
  rw [h]; exact ⟨rfl, rfl, rfl, rfl, rfl⟩

theorem logEvent_frame (s : State) (ev : BusEvent) : DataFrame s (s.logEvent ev) := ⟨rfl, rfl, rfl, rfl, rfl⟩

/-- A flush keeps the frame, done or raised (41_bit_packer_unpacker.md R141). -/
theorem packFlush_frame (s : State) :
    (packFlush s).Post (fun _ => DataFrame s) (fun c t => c = .ioErr ∧ DataFrame s t) := by
  cases h : packFlush s with
  | done a t =>
    rcases packFlush_done h with ⟨-, rfl⟩ | ⟨-, -, rfl⟩
    · exact .refl _
    · exact ⟨rfl, rfl, rfl, rfl, rfl⟩
  | raised c t =>
    obtain ⟨hc, -, n, -, -, rfl⟩ := packFlush_raised h
    exact ⟨hc, rfl, rfl, rfl, rfl, rfl⟩
  | fault r => trivial
  | refused r => trivial

theorem packBit_frame (b : Bool) (s : State) :
    (packBit b s).Post (fun _ => DataFrame s) (fun c t => c = .ioErr ∧ DataFrame s t) := by
  unfold packBit
  dsimp only
  split_ifs
  · refine (packFlush_frame _).mono (fun _ _ h => .trans ?_ h) (fun _ _ h => ⟨h.1, .trans ?_ h.2⟩)
    all_goals exact ⟨rfl, rfl, rfl, rfl, rfl⟩
  · exact ⟨rfl, rfl, rfl, rfl, rfl⟩
  · exact ⟨rfl, rfl, rfl, rfl, rfl⟩

theorem rbSample_frame (v off : Word) (s : State) :
    (rbSample v off s).Post (fun _ => DataFrame s) (fun c t => c = .ioErr ∧ DataFrame s t) := by
  unfold rbSample
  split_ifs
  · obtain ⟨m, o, g, f, h⟩ := verifyCheck_spec v off s
    rw [Micro.post_done, h]; exact ⟨rfl, rfl, rfl, rfl, rfl⟩
  · exact packBit_frame _ s

theorem memRead_frame (off : Nat) (s : State) :
    (memRead off s).Post (fun _ => DataFrame s) (fun c t => c = .ioErr ∧ DataFrame s t) := by
  unfold memRead
  split_ifs
  · exact (producerTurn_frame s).trans (logEvent_frame _ _)
  · trivial

/-- The data phase of a poll keeps the frame, done or raised; it raises IO_ERR only
(40_ring_consumer.md R117). -/
theorem spanLoop_frame (spans : List (Nat × Nat)) (off : Word) (s : State) :
    (spanLoop spans off s).Post (fun _ => DataFrame s) (fun c t => c = .ioErr ∧ DataFrame s t) := by
  refine spanLoop_post (P := DataFrame s) (Q := fun c t => c = .ioErr ∧ DataFrame s t)
    (fun o u hu => ?_) (fun v o u hu => ?_) spans off s (.refl s)
  · exact (memRead_frame o u).mono (fun _ _ h => hu.trans h) (fun _ _ h => ⟨h.1, hu.trans h.2⟩)
  · exact (rbSample_frame v o u).mono (fun _ _ h => hu.trans h) (fun _ _ h => ⟨h.1, hu.trans h.2⟩)

/-- A CtrlRead keeps the frame. -/
theorem ctrlRead_frame {w : CtrlWord} {s t : State} {v : Word} (h : ctrlRead w s = .done v t) :
    DataFrame s t := by
  obtain ⟨-, -, rfl⟩ := ctrlRead_spec h
  exact (producerTurn_frame s).trans (logEvent_frame _ _)


/-- What a poll leaves alone, done or raised: beside what its data phase touches it writes the read counter,
the statistics, the overrun report and two flags (40_ring_consumer.md R111, R118 to R120). -/
structure PollFrame (s t : State) : Prop where
  cfg : t.cfg = s.cfg
  dec : t.dec = s.dec
  port : t.port = s.port
  acq : t.acq = { s.acq with
    pkWord := t.acq.pkWord, pkNbits := t.acq.pkNbits, pkBatch := t.acq.pkBatch
    vfyMismatch := t.acq.vfyMismatch, vfyFirstOff := t.acq.vfyFirstOff
    vfyFirstGot := t.acq.vfyFirstGot, fVerifyErr := t.acq.fVerifyErr, fIoErr := t.acq.fIoErr
    lastRead := t.acq.lastRead, totalBytes := t.acq.totalBytes, pollCount := t.acq.pollCount
    peakUnread := t.acq.peakUnread, fCancelled := t.acq.fCancelled, fOverrun := t.acq.fOverrun
    ovrBefore := t.acq.ovrBefore, ovrLast := t.acq.ovrLast, ovrGap := t.acq.ovrGap }
  env : t.env = { s.env with
    shared := t.env.shared, ctrl := t.env.ctrl, schedule := t.env.schedule
    sinkTape := t.env.sinkTape, persisted := t.env.persisted, trace := t.env.trace }

theorem PollFrame.trans {s t u : State} (h : PollFrame s t) (h' : PollFrame t u) : PollFrame s u :=
  ⟨h'.cfg.trans h.cfg, h'.dec.trans h.dec, h'.port.trans h.port,
    by rw [h'.acq, h.acq], by rw [h'.env, h.env]⟩

theorem DataFrame.pollFrame {s t : State} (h : DataFrame s t) : PollFrame s t :=
  ⟨h.cfg, h.dec, h.port, by rw [h.acq], h.env⟩

/-- A poll leaves a run in progress to the command that made it (42_acquisition_loop.md R163). -/
theorem PollFrame.runActive {s t : State} (h : PollFrame s t) :
    t.acq.runActive = s.acq.runActive := by
  rw [h.acq]

theorem PollFrame.acqState {s t : State} (h : PollFrame s t) : t.acq.acqState = s.acq.acqState := by
  rw [h.acq]

theorem pollChecked_frame (cfg : Config) (l w : Word) (s : State) :
    PollFrame s (pollChecked cfg l w s) := ⟨rfl, rfl, rfl, rfl, rfl⟩

/-- A poll keeps the frame, and raises CANCELLED, IO_ERR or OVERRUN only. -/
theorem poll_frame (s : State) :
    (poll s).Post (fun _ => PollFrame s)
      (fun c t => (c = .cancelled ∨ c = .ioErr ∨ c = .overrun) ∧ PollFrame s t) := by
  have data : ∀ spans off u, PollFrame s u → (spanLoop spans off u).Post (fun _ => PollFrame s)
      (fun c t => c = .ioErr ∧ PollFrame s t) := fun spans off u hu =>
    (spanLoop_frame spans off u).mono (fun _ _ h => hu.trans h.pollFrame)
      (fun _ _ h => ⟨h.1, hu.trans h.2.pollFrame⟩)
  have bar : ∀ u, PollFrame s u → PollFrame s (barrier u) := fun u hu =>
    hu.trans (logEvent_frame u _).pollFrame
  cases h : poll s with
  | done n t =>
    obtain ⟨-, w, s1, o, s2, b, h1, h2, h3, -, -⟩ := poll_done h
    have f1 := (ctrlRead_frame h1).pollFrame
    have f2 := data (rbSpans (capBytes s1.cfg) s1.acq.lastRead w) s1.acq.lastRead _ (bar s1 f1)
    rw [h2] at f2
    exact (f2.trans (pollChecked_frame _ _ _ _)).trans (ctrlRead_frame h3).pollFrame
  | raised c t =>
    rcases poll_raised h with ⟨-, rfl, rfl⟩ | ⟨-, w, s1, h1, h2 | ⟨o, s2, b, s3, h2, h3, -, rfl, rfl⟩⟩
    · exact ⟨.inl rfl, rfl, rfl, rfl, rfl, rfl⟩
    · have f2 := data (rbSpans (capBytes s1.cfg) s1.acq.lastRead w) s1.acq.lastRead _ (bar s1 (ctrlRead_frame h1).pollFrame)
      rw [h2] at f2
      exact ⟨.inr (.inl f2.1), f2.2⟩
    · have f2 := data (rbSpans (capBytes s1.cfg) s1.acq.lastRead w) s1.acq.lastRead _ (bar s1 (ctrlRead_frame h1).pollFrame)
      rw [h2] at f2
      refine ⟨.inr (.inr rfl), .trans ((f2.trans (pollChecked_frame _ _ _ _)).trans
        (ctrlRead_frame h3).pollFrame) ?_⟩
      exact ⟨rfl, rfl, rfl, rfl, rfl⟩
  | fault r => trivial
  | refused r => trivial

end Sys2Proof.Machine
end

