-- ==== Sys2Proof/Laws/Schedule.lean ====
section
/-! SUPPORT. Whose turn it is: everything the choice of the next turn can be, and when a command waits. -/

namespace Sys2Proof.Machine

theorem acqBusy_eq_true {s : State} :
    acqBusy s = true ↔ s.acq.runActive = true ∧ s.acq.acqState = .running := by
  simp [acqBusy]

theorem acqBusy_eq_false {s : State} :
    acqBusy s = false ↔ s.acq.runActive = false ∨ s.acq.acqState ≠ .running := by
  simp [acqBusy, ← Bool.not_eq_true, or_iff_not_imp_left]

/-- An ACQ command waits only for an ACQ.RUN that the unit is busy with (log 13). -/
theorem heldBack_acq {i : Instr} {s : State} (h : heldBack i s = true) (ha : addressesAcq i = true) :
    acqBusy s = true := by
  cases i <;> simp_all [heldBack, addressesAcq]

/-- A command of the DEC unit waits only for a DEC.RUN in progress (log 13). -/
theorem heldBack_dec {i : Instr} {s : State} (h : heldBack i s = true) (ha : addressesAcq i = false) :
    s.dec.run ≠ .idle := by
  cases i <;> simp_all [heldBack, addressesAcq]

/-- What a step may leave on the port when it takes no command: all of it, or all but a turn. -/
def turnTaken (s : State) (p : Port) : Prop :=
  p = s.port ∨ ∃ i rest, (i = .acqTurn ∨ i = .decTurn) ∧ s.port.inputs = i :: rest ∧
    p = { s.port with inputs := rest }

/-- Everything the choice of the next turn can be: no command is taken (nothing to do, or a run goes on),
or the first input is a command word that is illegal or is taken (log 1, 13). -/
theorem nextTurn_spec (s : State) :
    (∃ p, turnTaken s p ∧
      (nextTurn s = .rest { s with port := p } ∨
       nextTurn s = .acqRun { s with port := p } ∧ s.acq.runActive = true ∨
       nextTurn s = .decRun { s with port := p })) ∨
    ∃ w rest, s.port.inputs = .command w :: rest ∧
      ((∃ e, decode w = .error e ∧
          nextTurn s = .illegal { s with port := { s.port with inputs := rest } }) ∨
       ∃ i, decode w = .ok i ∧ heldBack i s = false ∧
          nextTurn s = .command i { s with port := { s.port with inputs := rest } }) := by
  unfold nextTurn
  split
  case h_1 =>
    refine .inl ⟨s.port, .inl rfl, ?_⟩
    unfold turnWithoutInput
    split_ifs with h1
    · exact .inr (.inl ⟨rfl, (acqBusy_eq_true.mp h1).1⟩)
    · exact .inr (.inr rfl)
    · exact .inl rfl
  case h_2 rest hi =>
    refine .inl ⟨_, .inr ⟨_, rest, .inl rfl, hi, rfl⟩, ?_⟩
    dsimp only
    split_ifs with h1
    · exact .inr (.inl ⟨rfl, h1⟩)
    · exact .inl rfl
  case h_3 rest hi => exact .inl ⟨_, .inr ⟨_, rest, .inr rfl, hi, rfl⟩, .inr (.inr rfl)⟩
  case h_4 w rest hi =>
    dsimp only
    split
    case h_1 i hd =>
      split_ifs with h1 h2
      · exact .inl ⟨s.port, .inl rfl, .inr (.inl ⟨rfl, (acqBusy_eq_true.mp (heldBack_acq h1 h2)).1⟩)⟩
      · exact .inl ⟨s.port, .inl rfl, .inr (.inr rfl)⟩
      · exact .inr ⟨w, rest, hi, .inr ⟨i, hd, by simpa using h1, rfl⟩⟩
    case h_2 e hd => exact .inr ⟨w, rest, hi, .inl ⟨e, hd, rfl⟩⟩

end Sys2Proof.Machine
end

