-- ==== Sys2Proof/Tests/Slice0.lean ====
section
/-! SUPPORT. Tests: words written out from the spec's encoding, ill-formed terms refused, one or two single
steps per command with expected values from 95_test_vectors.md, and for each statement with hypotheses a
witness that meets them. -/

namespace Sys2Proof.Tests

open Sys2Proof.Machine

/-! ### Helpers -/

/-- The next state of an outcome, if it has one. -/
def nextState? : Host.Outcome State Fault Refusal → Option State
  | .next s => some s
  | .fault _ => none
  | .refused _ => none

theorem has_next {o : Host.Outcome State Fault Refusal} (h : (nextState? o).isSome = true) :
    ∃ t, o = .next t := by
  cases o with
  | next s => exact ⟨s, rfl⟩
  | fault r => simp [nextState?] at h
  | refused r => simp [nextState?] at h

/-- A field of the next state. -/
def after {α : Type} (o : Host.Outcome State Fault Refusal) (f : State → α) : Option α :=
  (nextState? o).map f

/-- 95_test_vectors.md section 3: CAPACITY = 16, BATCH_WORDS = 4, MIN_CAPACITY = 16. -/
def cfg16 : Config := { Config.reference with capacity := 16 }

/-- A RUNNING unit with CAPACITY = 16: `last_read`, AFTER and BEFORE as given, Samples 0 to 3 at their offsets. -/
def running (last aft bef : Word) (w0 w1 w2 w3 : Word) : State :=
  { State.reset with
    cfg := cfg16
    acq := { Acq.reset with acqState := .running, lastRead := last }
    env := { Env.quiet with
      producer := .running
      shared := (((Memory.setWord [] 0 w0).setWord 4 w1).setWord 8 w2).setWord 12 w3
      ctrl := (Memory.setWord [] 12 bef).setWord 16 aft } }

/-- A state with the given packer, in IDLE. -/
def packer (word : Word) (nbits : Nat) (batch : List Word) : State :=
  { State.reset with acq := { Acq.reset with pkWord := word, pkNbits := nbits, pkBatch := batch } }

/-- The same state with another `acq_state`. -/
def inMode (m : AcqMode) (s : State) : State := { s with acq := { s.acq with acqState := m } }

/-- The same state with these answers of the sink to come. -/
def sinking (tape : List Nat) (s : State) : State := { s with env := { s.env with sinkTape := tape } }

/-- The same state with these inputs on the port. -/
def offering (is : List Input) (s : State) : State := { s with port := { s.port with inputs := is } }

/-- A decoder in phase SYNC. -/
def syncing (highs : Word) (last : Bool) : State :=
  { State.reset with dec := { Dec.reset with phase := .sync { consecutiveHighs := highs, lastBit := last } } }

/-- A decoder in phase DECODE with FRAME_LEN = 30. -/
def decoding (buf : List Bool) : State :=
  { State.reset with dec := { Dec.reset with phase := .decode { frameLength := 30, buf := buf, frameStart := 60 } } }

/-- A reset unpacker with these answers of the source to come. -/
def sourcing (tape : List SourceAnswer) : State :=
  { State.reset with env := { Env.quiet with sourceTape := tape } }

/-- A string of `n` equal samples. -/
def rep (n : Nat) (b : Bool) : List Bool := List.replicate n b

/-- frame(0x55, 30) of 95_test_vectors.md. -/
def frame55 : List Bool :=
  rep 6 false ++ rep 3 true ++ rep 3 false ++ rep 3 true ++ rep 3 false ++ rep 3 true ++ rep 3 false ++
    rep 6 true

/-! ### Ill-formed terms are refused (30_encoding.md R93) -/

theorem test_rdsr_0x12_ill_formed : (Instr.rdsr 0x12).wellFormed = false := by decide
theorem test_rdsr_0x1F_ill_formed : (Instr.rdsr 0x1F).wellFormed = false := by decide
theorem test_rdsr_0x31_ill_formed : (Instr.rdsr 0x31).wellFormed = false := by decide
theorem test_rdsr_0x4B_ill_formed : (Instr.rdsr 0x4B).wellFormed = false := by decide
theorem test_rdsr_0xFF_ill_formed : (Instr.rdsr 0xFF).wellFormed = false := by decide
theorem test_rdsr_bounds_well_formed :
    [0x00, 0x11, 0x20, 0x30, 0x40, 0x4A].all (fun n => (Instr.rdsr n).wellFormed) = true := by decide

/-! ### Words written out from 30_encoding.md R91 and R92 (V1 to V8 of 95_test_vectors.md) -/

theorem test_word_reset : decode 0b0000000100000000000000000000000000000000 = .ok .reset := by decide
theorem test_word_acqInit : decode 0b0001000000000000000000000000000000000000 = .ok .acqInit := by decide
theorem test_word_acqPoll : decode 0b0001000100000000000000000000000000000000 = .ok .acqPoll := by decide
theorem test_word_acqCancel : decode 0b0001001000000000000000000000000000000000 = .ok .acqCancel := by decide
theorem test_word_acqStop : decode 0b0001001100000000000000000000000000000000 = .ok .acqStop := by decide
theorem test_word_acqRun : decode 0b0001010000000000000000000000000000000000 = .ok .acqRun := by decide
theorem test_word_packAdd : decode 0b0010000000000000000000000000000000000001 = .ok (.packAdd true) := by decide
theorem test_word_packAdd_0 : decode 0x2000000000 = .ok (.packAdd false) := by decide
theorem test_word_packFlush : decode 0b0010000100000000000000000000000000000000 = .ok .packFlush := by decide
theorem test_word_packClose : decode 0b0010001000000000000000000000000000000000 = .ok .packClose := by decide
theorem test_word_unpkGet : decode 0b0011000000000000000000000000000000000000 = .ok .unpkGet := by decide
theorem test_word_decReset : decode 0b0100000000000000000000000000000000000000 = .ok .decReset := by decide
theorem test_word_decBit : decode 0b0100000100000000000000000000000000000001 = .ok (.decBit true) := by decide
theorem test_word_decBit_0 : decode 0x4100000000 = .ok (.decBit false) := by decide
theorem test_word_decRun : decode 0b0100001000000000000000000000000000000000 = .ok .decRun := by decide
theorem test_word_rdsr : decode 0b0101000000000000000000000000000000001011 = .ok (.rdsr 0x0B) := by decide
theorem test_word_rdsr_n_bytes : decode 0x5000000029 = .ok (.rdsr 0x29) := by decide
theorem test_word_reserved_bit : decode 0x2000000002 = .error (.reservedBits 2) := by decide
theorem test_word_opcode_02 : decode 0x0200000000 = .error (.opcode 0x02) := by decide
theorem test_word_opcode_FF : decode 0xFF00000000 = .error (.opcode 0xFF) := by decide
theorem test_word_arg_not_zero : decode 0x1000000001 = .error (.reservedBits 1) := by decide
theorem test_word_rdsr_unlisted : decode 0x5000000012 = .error (.statusRegister 0x12) := by decide
theorem test_word_rdsr_reserved : decode 0x5000000100 = .error (.reservedBits 0x100) := by decide
theorem test_table_word : decodeTableWord 40 0x5000000029 = some (.rdsr 0x29) := by decide

/-! ### The assembler (30_encoding.md R101, R102; 95_test_vectors.md section 2 and V5) -/

theorem test_assemble : assembleText "RESET\nPACK.BITS 1*3 01 ; xx\n\nRDSR 0x0B\nRDSR N_BYTES_LO\n".toList =
    some [0x0100000000, 0x2000000001, 0x2000000001, 0x2000000001, 0x2000000000, 0x2000000001,
      0x500000000B, 0x5000000029] := by decide
theorem test_assemble_malformed : assembleText "PACK.ADD 2".toList = none := by decide

/-! ### Single steps -/

/-- V67: RESET while RUNNING: Barrier, ProdStop, no SinkWrite, the packer cleared. -/
theorem test_reset_running : after (exec .reset (inMode .running (packer 0x1F 5 [1, 2, 3])))
    (fun t => (t.acq, t.env.trace, t.env.producer)) =
    some (Acq.reset, [.barrier, .prodStop], .stopped) := by decide

/-- 30_encoding.md R95: a RESET during an ACQ.RUN answers for itself, and the run is still to answer. -/
theorem test_reset_keeps_the_run : after (exec .reset (let s := inMode .running State.reset
      { s with acq := { s.acq with runActive := true } }))
    (fun t => (t.acq.acqState, t.acq.runActive, t.port.responses)) = some (.idle, true, [⟨.ok, 0⟩]) := by decide

/-- 42_acquisition_loop.md R160: the accesses of ACQ.INIT, and both counters 0. -/
theorem test_acqInit : after (exec .acqInit State.reset)
    (fun t => (t.acq.acqState, t.env.trace, ctrlValue t.cfg t.env .size)) =
    some (.running, [.prodReset, .ctrlWrite .base 0, .ctrlWrite .size 0x800000, .ctrlWrite .choke 0,
      .barrier, .prodStart], 0x800000) := by decide

/-- V61: CAPACITY = 0x0060_0000 is no power of two. -/
theorem test_acqInit_bad_capacity :
    after (exec .acqInit { State.reset with cfg := { Config.reference with capacity := 0x600000 } })
      (fun t => (acqFlags t.acq, causeWord t.acq.acqCause t.acq.acqExit, t.env.trace, t.port.responses)) =
    some (0x04, 0x102, [], [⟨.exit, 2⟩]) := by decide

/-- V29a: a poll that wraps round the ring. -/
theorem test_acqPoll_wraps : after (exec .acqPoll (running 12 20 20 0 0 0 1))
    (fun t => (t.acq.lastRead, t.acq.totalBytes, pkFill t.acq, t.env.trace)) =
    some (20, 8, 2, [.ctrlRead .after 20, .barrier, .memRead 12 1, .memRead 0 0, .barrier,
      .ctrlRead .before 20]) := by decide

/-- P5, its second poll: OVERRUN with gap 20. -/
theorem test_acqPoll_overrun : after (exec .acqPoll (running 8 16 36 0 0 1 0xFFFFFFFE))
    (fun t => (acqFlags t.acq, t.acq.ovrGap, t.acq.lastRead, t.port.responses)) =
    some (0x01, 20, 16, [⟨.exit, 4⟩]) := by decide

/-- V69: ACQ.CANCEL in IDLE sets its one bit (ACQ_FLAGS bit 5). -/
theorem test_acqCancel : after (exec .acqCancel State.reset)
    (fun t => (acqFlags t.acq, t.acq.acqState, t.port.responses)) =
    some (0x20, .idle, [⟨.ok, 0⟩]) := by decide

/-- V66: ACQ.STOP writes the complete words, drops 5 bits, and leaves `cancel` at 0. -/
theorem test_acqStop : after (exec .acqStop (inMode .running (packer 0x1F 5 [1, 2, 3])))
    (fun t => (acqFlags t.acq, t.env.persisted, t.acq.pkNbits, causeWord t.acq.acqCause t.acq.acqExit,
      t.port.responses)) =
    some (0x08, [1, 2, 3], 0, 0x001, [⟨.exit, 1⟩]) := by decide

/-- 42_acquisition_loop.md R163: the first poll of ACQ.RUN gives no response, and the run is in progress. -/
theorem test_acqRun : after (exec .acqRun (running 0 8 8 1 0 0 0))
    (fun t => (t.acq.runActive, t.acq.lastRead, t.acq.pkWord, t.port.responses)) =
    some (true, 8, 0b10, []) := by decide

/-- V29c: with `cancel` set there is no access, and `last_read` stays. -/
theorem test_acqRun_cancelled :
    after (exec .acqRun (let s := running 8 16 16 0 0 0 0; { s with acq := { s.acq with cancel := true } }))
      (fun t => (t.acq.lastRead, t.env.trace, t.acq.acqState, t.port.responses)) =
    some (8, [.barrier, .prodStop], .stopped, [⟨.exit, 1⟩]) := by decide

/-- V30, its last bit: 0xDEADBEEF is complete. -/
theorem test_packAdd_completes : after (exec (.packAdd true) (packer 0x6F56DF77 31 []))
    (fun t => (t.acq.pkBatch, t.acq.pkWord, t.acq.pkNbits, t.env.trace)) =
    some ([0xDEADBEEF], 0, 0, []) := by decide

/-- V39b: a full batch of which the sink accepts one word. -/
theorem test_packAdd_short_write :
    after (exec (.packAdd true) (sinking [1] { packer 0 31 [0xDEADBEEF] with
        cfg := { Config.reference with batchWords := 2 } }))
      (fun t => (t.env.persisted, t.acq.pkBatch, t.acq.fIoErr, t.acq.acqCause, t.port.responses)) =
    some ([0xDEADBEEF], [], true, .ioErr, [⟨.exit, 3⟩]) := by decide

/-- V39a: a flush of an empty buffer makes no access. -/
theorem test_packFlush_empty : after (exec .packFlush (packer 5 3 []))
    (fun t => (t.env.trace, t.acq.pkNbits, t.port.responses)) = some ([], 3, [⟨.ok, 0⟩]) := by decide

/-- V36: a close writes a part batch and drops five bits. -/
theorem test_packClose : after (exec .packClose (packer 0x1F 5 [0x33333333]))
    (fun t => (t.env.persisted, t.acq.pkWord, t.acq.pkNbits, t.port.responses)) =
    some ([0x33333333], 0, 0, [⟨.ok, 0⟩]) := by decide

/-- V65: a close whose write is cut short leaves the partial word. -/
theorem test_packClose_short : after (exec .packClose (sinking [1] (packer 0x1F 5 [1, 2, 3])))
    (fun t => (t.env.persisted, t.acq.pkWord, t.acq.pkNbits, t.acq.fIoErr)) =
    some ([1], 0x1F, 5, true) := by decide

/-- V37: the first bit of 0x8000_0001. -/
theorem test_unpkGet : after (exec .unpkGet (sourcing [.data [0x80000001]]))
    (fun t => (t.dec.upNleft, t.dec.upWidx, t.port.responses)) = some (31, 1, [⟨.ok, 1⟩]) := by decide

/-- V39: the source fails. -/
theorem test_unpkGet_err : after (exec .unpkGet (sourcing [.err]))
    (fun t => (t.dec.upIoErr, t.dec.decCause, t.dec.decExit, t.port.responses)) =
    some (true, .ioErr, 1, [⟨.exit, 3⟩]) := by decide

/-- V68: DEC.RESET with FRAME_LEN = 10. -/
theorem test_decReset_bad :
    after (exec .decReset { State.reset with cfg := { Config.reference with frameLen := 10 } })
      (fun t => (t.dec.decCause, t.dec.decExit, t.port.responses)) =
    some (.cfgErr, 1, [⟨.exit, 2⟩]) := by decide

/-- V40, its last bit: a run of exactly 60 highs, then a fall, commits. -/
theorem test_decBit_commits : after (exec (.decBit false) (syncing 60 true))
    (fun t => (t.dec.phase, t.dec.nSync, t.port.responses)) =
    some (.decode { frameLength := 30, buf := [false], frameStart := 0 }, 1, [⟨.ok, 0x200⟩]) := by decide

/-- V47 at 92: byte 0x55, and the next frame found at sample 30 of the window. -/
theorem test_decBit_byte : after (exec (.decBit false) (decoding (frame55 ++ [false, false])))
    (fun t => (t.env.output, t.dec.phase, t.port.responses)) =
    some ([0x55], .decode { frameLength := 30, buf := rep 3 false, frameStart := 90 },
      [⟨.ok, 0x155⟩]) := by decide

/-- 45_decode_driver.md R212: at the sticky end of the stream DEC.RUN answers RC_EOS at once. -/
theorem test_decRun_eos :
    after (exec .decRun { State.reset with dec := { Dec.reset with upEos := true, decCause := .eos } })
      (fun t => (t.dec.run, t.port.responses)) = some (.idle, [⟨.eos, 0⟩]) := by decide

/-- 45_decode_driver.md R212: the bit that UNPK.GET yields is kept for DEC.BIT. -/
theorem test_decRun_fetches : after (exec .decRun (sourcing [.data [0x80000001]]))
    (fun t => (t.dec.run, t.dec.upNleft, t.port.responses)) = some (.bit true, 31, []) := by decide

/-- P5: RDSR 0x02 after the overrun is 0x104. -/
theorem test_rdsr_acqCause :
    after (exec (.rdsr 0x02) { State.reset with acq := { Acq.reset with acqCause := .overrun, acqExit := 1 } })
      (fun t => t.port.responses) = some [⟨.ok, 0x104⟩] := by decide

/-- P1: RDSR 0x0D with 8 bits and 2 words is 0x208. -/
theorem test_rdsr_pkFill : after (exec (.rdsr 0x0D) (packer 0xAA 8 [0xDEADBEEF, 1]))
    (fun t => t.port.responses) = some [⟨.ok, 0x208⟩] := by decide

/-! ### Shared operations (95_test_vectors.md sections 3 to 5) -/

/-- V17: the 32-bit wrap and the ring wrap together. -/
theorem test_spans_wrap : rbSpans 16 0xFFFFFFF8 4 = [(8, 16), (0, 4)] := by decide

/-- V14: the full-buffer corner. -/
theorem test_spans_full : rbSpans 16 4 20 = [(4, 4)] := by decide

/-- V39d: a mismatch of the verifier. -/
theorem test_verify_mismatch : (let t := verifyCheck 9 0x20 State.reset
    (t.acq.vfyMismatch, t.acq.vfyFirstOff, t.acq.vfyFirstGot, t.acq.fVerifyErr)) = (1, 0x20, 9, true) := by
  decide

/-- V58: the search is exhausted. -/
theorem test_window_exhausted : evalWindow (frame55 ++ rep 3 true) 30 .msbFirst = .byte 0x55 none := by decide

/-- V46: LSB_FIRST reads the same window as 0xAA. -/
theorem test_window_lsb_first : evalWindow (frame55 ++ rep 3 true) 30 .lsbFirst = .byte 0xAA none := by decide

/-- V55: a window whose start bit is 1. -/
theorem test_window_start_bit :
    evalWindow (rep 3 true ++ frame55.drop 3 ++ rep 3 true) 30 .msbFirst = .framingFail := by decide

/-- A command word taken from the port by a step, and what stands there afterwards. -/
theorem test_step_takes_the_command : after (step (State.reset.withFetchWord 40 0x1200000000))
    (fun t => (t.acq.cancel, t.port.inputs, t.port.responses)) = some (true, [], [⟨.ok, 0⟩]) := by decide

/-! ### Witnesses: each statement's hypotheses are met together -/

theorem cfg16_ok : acqCfgOk cfg16 = true := by decide

theorem running_inv (last aft bef w0 w1 w2 w3 : Word) (h : last.toNat % 4 = 0) :
    AcqInv (running last aft bef w0 w1 w2 w3) where
  lastReadAligned := h
  nbitsBelow := by simp [running, Acq.reset]
  wordBelow := by simp [running, Acq.reset]
  batchRoom := fun h => h
  runningCfg := fun _ => cfg16_ok
  causeStopped := by simp [running, Acq.reset]
  causeCode := by simp [running, Acq.reset]
  exitCode := rfl
  overrunGap := by simp [running, Acq.reset]

theorem layout16 : ctrlLayoutOk cfg16 :=
  ⟨fun w => by cases w <;> decide, fun w w' => by cases w <;> cases w' <;> decide⟩

theorem witness_DecodeIsInverseOfEncode :
    (Instr.rdsr 0x4A).wellFormed = true ∧ decode 0x500000004A = .ok (.rdsr 0x4A) := by decide

theorem witness_IllegalWordChangesNothing : (¬ ∃ i, decode 0x5000000012 = .ok i) ∧
    (offering [.command 0x5000000012] State.reset).port.inputs = .command 0x5000000012 :: [] := by
  refine ⟨?_, rfl⟩
  rintro ⟨i, h⟩
  have h' : decode 0x5000000012 = .error (.statusRegister 0x12) := by decide
  rw [h'] at h
  simp at h

theorem witness_StepRunsTheDecodedCommand :
    decode 0x1200000000 = .ok .acqCancel ∧ decode 0x5000000000 = .ok (.rdsr 0) ∧
    decode 0x1100000000 = .ok .acqPoll ∧ decode 0x4200000000 = .ok .decRun ∧
    (running 0 8 8 0 0 0 0).acq.runActive = false ∧ (running 0 8 8 0 0 0 0).dec.run = .idle ∧
    (offering [.command 0x1100000000] (running 0 8 8 0 0 0 0)).port.inputs =
      .command 0x1100000000 :: [] := by decide

/-- A RUNNING unit with an ACQ.RUN in progress. -/
def inRun : State :=
  let s := running 0 8 8 0 0 0 0
  { s with acq := { s.acq with runActive := true } }

/-- A DEC unit with this step of a DEC.RUN to come. -/
def decInRun (r : DecRun) : State := { State.reset with dec := { Dec.reset with run := r } }

/-- Both units: with an empty port, and with a command that waits. -/
theorem witness_BusyUnitHoldsItsCommands :
    (inRun.acq.runActive = true ∧ inRun.acq.acqState = .running ∧ inRun.port.inputs = [] ∧
      decode 0x1100000000 = .ok .acqPoll ∧
      (offering [.command 0x1100000000] inRun).port.inputs = .command 0x1100000000 :: []) ∧
    (decReady (decInRun .fetch) = true ∧ (decInRun .fetch).port.inputs = [] ∧
      (decInRun .fetch).acq.runActive = false ∧ (decInRun .fetch).dec.run = .fetch ∧
      decode 0x3000000000 = .ok .unpkGet ∧
      (offering [.command 0x3000000000] (decInRun .fetch)).port.inputs = .command 0x3000000000 :: []) ∧
    (decReady (decInRun (.bit true)) = true ∧ (decInRun (.bit true)).dec.run = .bit true ∧
      decode 0x4100000001 = .ok (.decBit true) ∧
      ∃ t, exec (.decBit true) (offering [.command 0x4100000001] (decInRun (.bit true))) = .next t) :=
  ⟨by decide, by decide, by decide, by decide, by decide, has_next (by decide)⟩

/-- Each clause: a run to go on, and none; an ACQ.RUN outside RUNNING is none. -/
theorem witness_TurnInputsRunTheirUnit :
    (offering [.acqTurn] inRun).port.inputs = .acqTurn :: [] ∧ inRun.acq.runActive = true ∧
    inRun.acq.acqState = .running ∧ (inMode .idle inRun).acq.runActive = true ∧
    (inMode .idle inRun).acq.acqState ≠ .running ∧ State.reset.acq.runActive = false ∧
    (offering [.decTurn] (decInRun .fetch)).port.inputs = .decTurn :: [] ∧
    decReady (decInRun .fetch) = true ∧ (decInRun .fetch).dec.run = .fetch ∧
    (decInRun (.bit true)).dec.run = .bit true ∧ State.reset.dec.run = .idle ∧
    ∃ t, exec (.decBit true) (decInRun (.bit true)) = .next t :=
  ⟨by decide, by decide, by decide, by decide, by decide, by decide, by decide, by decide, by decide,
    by decide, by decide, has_next (by decide)⟩

/-- The least such state, and one with an ACQ.RUN left over by a RESET. -/
theorem witness_IdleMachineDoesNothing :
    State.reset.port.inputs = [] ∧ State.reset.acq.runActive = false ∧ State.reset.dec.run = .idle ∧
    (inMode .idle inRun).port.inputs = [] ∧ (inMode .idle inRun).acq.runActive = true ∧
    (inMode .idle inRun).acq.acqState ≠ .running ∧ (inMode .idle inRun).dec.run = .idle := by decide

theorem witness_LegalityByState : State.reset.acq.acqState = .idle ∧
    (∃ t, exec .acqInit State.reset = .next t) ∧ (∃ t, exec .unpkGet State.reset = .next t) ∧
    (∃ t, exec .acqPoll (running 0 8 8 0 0 0 0) = .next t) ∧
    (inMode .stopped (packer 0 0 [])).acq.acqState = .stopped :=
  ⟨by decide, has_next (by decide), has_next (by decide), has_next (by decide), by decide⟩

theorem witness_OneResponsePerCommand : (∃ t, exec .reset State.reset = .next t) ∧
    (∃ t, exec .acqRun (running 0 8 8 0 0 0 0) = .next t) ∧ ∃ t, exec .decRun State.reset = .next t :=
  ⟨has_next (by decide), has_next (by decide), has_next (by decide)⟩

/-- A RESET during a run, and an iteration of the run. -/
theorem witness_EveryCommandAnsweredOnce :
    (∃ t, step (offering [.command 0x0100000000] inRun) = .next t) ∧ ∃ t, step inRun = .next t :=
  ⟨has_next (by decide), has_next (by decide)⟩

/-- Legal configurations at the least CAPACITY and at the greatest, and one that breaks each constraint. -/
theorem witness_AcqInit : State.reset.acq.acqState = .idle ∧ acqCfgOk State.reset.cfg = true ∧
    acqCfgOk { Config.reference with capacity := 4, minCapacity := 0, signalBit := 31, batchWords := 1 } = true ∧
    acqCfgOk { Config.reference with capacity := 0x80000000 } = true ∧
    acqCfgOk { Config.reference with capacity := 2, minCapacity := 0 } = false ∧
    acqCfgOk { Config.reference with signalBit := 32 } = false ∧
    acqCfgOk { Config.reference with minCapacity := 18 } = false ∧
    acqCfgOk { Config.reference with ctrlOffAfter := 12 } = false ∧
    acqCfgOk { Config.reference with ctrlOffAfter := 18 } = false ∧
    (running 0 0 0 0 0 0 0).acq.acqState ≠ .idle := by decide

theorem witness_AcqInitControlRegion : State.reset.acq.acqState = .idle ∧
    acqCfgOk State.reset.cfg = true ∧ ∃ t, exec .acqInit State.reset = .next t :=
  ⟨by decide, by decide, has_next (by decide)⟩

/-- A RUNNING unit with a full packer and `cancel` set. -/
def cancelled : State :=
  let s := inMode .running (packer 0x1F 5 [1, 2, 3])
  { s with acq := { s.acq with cancel := true } }

theorem witness_CleanExit : cancelled.acq.acqState = .running ∧ cancelled.acq.cancel = true ∧
    sinkAccepts cancelled.env cancelled.acq.pkBatch.length ∧
    (inMode .running State.reset).acq.pkBatch = [] := by
  refine ⟨rfl, rfl, rfl, rfl⟩

theorem witness_CleanExitWithFailingSink : (sinking [2] cancelled).acq.acqState = .running ∧
    (sinking [2] cancelled).acq.cancel = true ∧ (sinking [2] cancelled).env.sinkTape.head? = some 2 ∧
    2 < (sinking [2] cancelled).acq.pkBatch.length := by decide

/-- The configuration of `cfg16` in self-test mode. -/
def selfTesting (s : State) : State := { s with cfg := { cfg16 with testMode := true } }

/-- With BEFORE exactly CAPACITY ahead; and in self-test mode, with a sink that would fail. -/
theorem witness_PollOfQuietProducer :
    let s := running 12 20 36 0 0 0 1
    let u := selfTesting (sinking [0] s)
    AcqInv s ∧ AcqInv u ∧ s.acq.acqState = .running ∧ s.acq.cancel = false ∧ s.env.schedule = [] ∧
    (ctrlValue s.cfg s.env .after).toNat % 4 = 0 ∧ (ctrlValue s.cfg s.env .before).toNat % 4 = 0 ∧
    (sub32 (ctrlValue s.cfg s.env .before) (ctrlValue s.cfg s.env .after)).toNat = s.cfg.capacity.toNat ∧
    s.cfg.testMode = false ∧ s.env.sinkTape = [] ∧
    u.acq.acqState = .running ∧ u.acq.cancel = false ∧ u.env.schedule = [] ∧
    (ctrlValue u.cfg u.env .after).toNat % 4 = 0 ∧ (ctrlValue u.cfg u.env .before).toNat % 4 = 0 ∧
    (sub32 (ctrlValue u.cfg u.env .before) (ctrlValue u.cfg u.env .after)).toNat = u.cfg.capacity.toNat ∧
    u.cfg.testMode = true :=
  ⟨running_inv _ _ _ _ _ _ _ (by decide), by constructor <;> decide, by decide⟩

/-- A poll that completes, and one that overruns; one that the sink ends is `failingPoll`. -/
theorem witness_PollAccessOrder :
    let s := running 12 20 20 0 0 0 1
    let o := running 8 16 36 0 0 1 0xFFFFFFFE
    s.acq.acqState = .running ∧ s.acq.cancel = false ∧ (∃ t, exec .acqPoll s = .next t) ∧
    o.acq.acqState = .running ∧ o.acq.cancel = false ∧ ∃ t, exec .acqPoll o = .next t :=
  ⟨by decide, by decide, has_next (by decide), by decide, by decide, has_next (by decide)⟩

theorem witness_OnlyTheProducerWrites : Instr.acqPoll ≠ .acqInit ∧
    ∃ t, exec .acqPoll (running 12 20 20 0 0 0 1) = .next t := ⟨by decide, has_next (by decide)⟩

theorem witness_ReadSeesLatestProducerWrite : acqCfgOk cfg16 = true ∧ ctrlLayoutOk cfg16 ∧
    12 % 4 = 0 ∧ 12 ≠ 4 * 4 % capBytes cfg16 := ⟨cfg16_ok, layout16, by decide, by decide⟩

theorem witness_RingRangeCorrect : acqCfgOk cfg16 = true ∧ (sub32 15 0 : Word).toNat < cfg16.capacity.toNat ∧
    acqCfgOk { Config.reference with capacity := 4, minCapacity := 0 } = true ∧
    acqCfgOk { Config.reference with capacity := 0x80000000 } = true := by decide

theorem witness_WrappedCounterArithmetic :
    acqCfgOk cfg16 = true ∧ 1 ≤ 2 ^ 32 ∧ 2 ^ 32 - 1 < 2 ^ 32 := by decide

theorem witness_OverrunTakesTheExit :
    let s := running 8 16 36 0 0 1 0xFFFFFFFE
    AcqInv s ∧ AcqInv (selfTesting s) ∧ (selfTesting s).cfg.testMode = true ∧ s.cfg.testMode = false ∧
    [s, selfTesting s].all (fun u =>
      u.acq.acqState == .running && !u.acq.cancel && u.env.schedule == [] && u.env.sinkTape == [] &&
      (ctrlValue u.cfg u.env .after).toNat % 4 == 0 && (ctrlValue u.cfg u.env .before).toNat % 4 == 0 &&
      decide (u.cfg.capacity.toNat <
        (sub32 (ctrlValue u.cfg u.env .before) (ctrlValue u.cfg u.env .after)).toNat)) = true :=
  ⟨running_inv _ _ _ _ _ _ _ (by decide), by constructor <;> decide, by decide⟩

/-- An overrun with two words buffered, `nbits` bits packed, and a sink that accepts one word. -/
def overrunShort (nbits : Nat) (testMode : Bool) : State :=
  let s := running 8 16 36 0 0 1 0xFFFFFFFE
  { s with
    cfg := { cfg16 with testMode := testMode }
    acq := { s.acq with pkBatch := [1, 2], pkNbits := nbits }
    env := { s.env with sinkTape := [1] } }

/-- Two Samples up to 31 bits, and in self-test mode none beside 31. -/
theorem witness_OverrunWithFailingSink :
    [overrunShort 29 false, overrunShort 31 true].all (fun s =>
      s.acq.acqState == .running && !s.acq.cancel && s.env.schedule == [] &&
      (ctrlValue s.cfg s.env .after).toNat % 4 == 0 && (ctrlValue s.cfg s.env .before).toNat % 4 == 0 &&
      decide (s.cfg.capacity.toNat <
        (sub32 (ctrlValue s.cfg s.env .before) (ctrlValue s.cfg s.env .after)).toNat) &&
      s.acq.pkNbits + (if s.cfg.testMode then 0 else
        (sub32 (ctrlValue s.cfg s.env .after) s.acq.lastRead).toNat % s.cfg.capacity.toNat / 4) == 31 &&
      s.env.sinkTape.head? == some 1 && decide (1 < s.acq.pkBatch.length)) = true ∧
    AcqInv (overrunShort 29 false) ∧ AcqInv (overrunShort 31 true) :=
  ⟨by decide, by constructor <;> decide, by constructor <;> decide⟩

/-- A poll whose one Sample completes the batch of one word, which the sink does not accept. -/
def failingPoll : State :=
  let s := running 0 4 4 1 0 0 0
  { s with
    cfg := { cfg16 with batchWords := 1 }
    acq := { s.acq with pkNbits := 31, pkWord := 1 }
    env := { s.env with sinkTape := [0] } }

theorem failingPoll_inv : AcqInv failingPoll := by
  constructor <;> decide

theorem witness_IoErrorInsidePoll : AcqInv failingPoll ∧ failingPoll.acq.acqState = .running ∧
    failingPoll.acq.cancel = false ∧ failingPoll.acq.fOverrun = false ∧
    ∃ t, exec .acqPoll failingPoll = .next t ∧ t.acq.acqCause = .ioErr ∧ t.acq.fOverrun = false := by
  refine ⟨failingPoll_inv, by decide, by decide, by decide, ?_⟩
  obtain ⟨t, h⟩ := has_next (o := exec .acqPoll failingPoll) (by decide)
  have h1 : after (exec .acqPoll failingPoll) (fun t => (t.acq.acqCause, t.acq.fOverrun)) =
      some (.ioErr, false) := by decide
  rw [h] at h1
  simp only [after, nextState?, Option.map_some, Option.some.injEq, Prod.mk.injEq] at h1
  exact ⟨t, h, h1.1, h1.2⟩

/-- A misaligned AFTER, and a misaligned BEFORE behind an aligned AFTER. -/
theorem witness_MisalignedCounterRefused :
    let s := running 0 2 4 0 0 0 0
    let u := running 0 4 6 0 0 0 0
    s.acq.acqState = .running ∧ s.acq.cancel = false ∧ s.env.schedule = [] ∧
    (ctrlValue s.cfg s.env .after).toNat % 4 ≠ 0 ∧
    u.acq.acqState = .running ∧ u.acq.cancel = false ∧ u.env.schedule = [] ∧ AcqInv u ∧
    (ctrlValue u.cfg u.env .after).toNat % 4 = 0 ∧ (ctrlValue u.cfg u.env .before).toNat % 4 ≠ 0 ∧
    u.env.sinkTape = [] :=
  ⟨by decide, by decide, by decide, by decide, by decide, by decide, by decide,
    running_inv _ _ _ _ _ _ _ (by decide), by decide⟩

/-- The clauses of BrokenInterfaceRefused, each one word above what was offered or asked for. -/
theorem witness_BrokenInterfaceRefused :
    (sinking [4] cancelled).env.sinkTape.head? = some 4 ∧ (sinking [4] cancelled).acq.pkBatch ≠ [] ∧
    (sinking [4] cancelled).acq.pkBatch.length < 4 ∧ (sinking [4] cancelled).acq.acqState = .running ∧
    (sinking [4] cancelled).acq.cancel = true ∧
    (sinking [5] (packer 1 31 [7, 7, 7])).env.sinkTape.head? = some 5 ∧
    (packer 1 31 [7, 7, 7]).acq.pkNbits + 1 = 32 ∧
    (packer 1 31 [7, 7, 7]).acq.pkBatch.length + 1 = Config.reference.batchWords ∧
    Config.reference.batchWords < 5 ∧
    decReady (sourcing [.data []]) = true ∧ Dec.reset.upEos = false ∧ Dec.reset.upNleft = 0 ∧
    Dec.reset.upWidx = Dec.reset.upBatch.length ∧
    (sourcing [.data []]).env.sourceTape.head? = some (.data []) ∧
    decReady (sourcing [.data [1, 2, 3, 4, 5]]) = true ∧
    Config.reference.batchWords < [(1 : Word), 2, 3, 4, 5].length := by decide

theorem witness_VerifierChecksSample : State.reset.cfg.verify = .sampleIndex ∧
    (8 : Word).toNat = (0x20 : Word).toNat / 4 ∧ (9 : Word).toNat ≠ (0x20 : Word).toNat / 4 ∧
    State.reset.acq.vfyMismatch = 0 ∧
    { Acq.reset with vfyMismatch := 0xFFFFFFFFFFFFFFFF }.vfyMismatch ≠ 0 := by decide

/-- P6, a poll of the self-test: Samples 3, 4, 5 at offsets 12, 0, 4. -/
def selfTest : State := selfTesting (running 12 24 24 4 5 0 3)

theorem selfTest_inv : AcqInv selfTest := by
  constructor <;> decide

theorem witness_SelfTestPollFindsNoMismatch : AcqInv selfTest ∧ selfTest.acq.acqState = .running ∧
    selfTest.acq.cancel = false ∧ selfTest.cfg.testMode = true ∧ selfTest.cfg.verify = .sampleIndex ∧
    selfTest.env.schedule = [] ∧
    (∀ j, 4 * j < (sub32 (ctrlValue selfTest.cfg selfTest.env .after) selfTest.acq.lastRead).toNat %
        selfTest.cfg.capacity.toNat →
      (sharedWord selfTest.env ((selfTest.acq.lastRead.toNat + 4 * j) % selfTest.cfg.capacity.toNat)).toNat =
        (selfTest.acq.lastRead.toNat + 4 * j) % 2 ^ 32 / 4) ∧
    ∃ t, exec .acqPoll selfTest = .next t := by
  refine ⟨selfTest_inv, by decide, by decide, by decide, by decide, by decide, fun j hj => ?_,
    has_next (by decide)⟩
  have h12 : (sub32 (ctrlValue selfTest.cfg selfTest.env .after) selfTest.acq.lastRead).toNat %
      selfTest.cfg.capacity.toNat = 12 := by decide
  rw [h12] at hj
  obtain rfl | rfl | rfl : j = 0 ∨ j = 1 ∨ j = 2 := by omega
  all_goals decide

theorem witness_CancelCommutesWithThePoll :
    (match pollFrom 20 (running 12 20 20 0 0 0 1) with | .done _ _ => true | _ => false) = true ∧
    (match pollFrom 16 (running 8 16 36 0 0 0 1) with | .raised _ _ => true | _ => false) = true ∧
    (match pollFrom 8 (running 1 8 8 0 0 0 1) with | .fault _ => true | _ => false) = true ∧
    (match pollFrom 8 (running 0 8 9 0 0 0 1) with | .refused _ => true | _ => false) = true := by decide

/-- A producer that publishes two Samples before the block's first read. -/
def publishing : List (List LogicalWrite) := [[.before 8, .sample 0 7, .sample 1 9, .after 8]]

/-- A poll of that producer. -/
def racing : State :=
  let s := running 0 0 0 0 0 0 0
  { s with env := { s.env with schedule := publishing.map fun b => b.map LogicalWrite.concrete } }

theorem racing_inv : AcqInv racing := by
  constructor <;> decide

theorem racing_poll : ∃ t, exec .acqPoll racing = .next t ∧
    t.port.responses = racing.port.responses ++ [{ rc := .ok, val := BitVec.ofNat 32 8 }] := by
  obtain ⟨t, h⟩ := has_next (o := exec .acqPoll racing) (by decide)
  have h1 : after (exec .acqPoll racing) (fun t => t.port.responses) =
      some [{ rc := .ok, val := BitVec.ofNat 32 8 }] := by decide
  rw [h] at h1
  simp only [after, nextState?, Option.map_some, Option.some.injEq] at h1
  exact ⟨t, h, h1⟩

theorem witness_PollUnderInterleaving : AcqInv racing ∧ racing.acq.acqState = .running ∧ 8 < 2 ^ 32 ∧
    ∃ t, exec .acqPoll racing = .next t ∧
      t.port.responses = racing.port.responses ++ [{ rc := .ok, val := BitVec.ofNat 32 8 }] :=
  ⟨racing_inv, by decide, by decide, racing_poll⟩

theorem publishing_keeps_contract :
    contractKept { before := 0, after := 0, written := [] } publishing.flatten := by
  simp only [publishing, List.flatten_cons, List.flatten_nil, List.append_nil, contractKept,
    LogicalWrite.allowed, ProducerLog.next, and_true]
  refine ⟨by decide, by decide, by decide, by decide, by decide, by decide, fun k _ hk => ?_⟩
  obtain rfl | rfl : k = 0 ∨ k = 1 := by omega
  all_goals simp

theorem witness_LossFreeWhenBeforeIsNear :
    let g : ProducerLog := { before := 0, after := 0, written := [] }
    AcqInv racing ∧ racing.acq.acqState = .running ∧
    racing.acq.lastRead = BitVec.ofNat 32 0 ∧
    ctrlValue racing.cfg racing.env .before = BitVec.ofNat 32 g.before ∧
    ctrlValue racing.cfg racing.env .after = BitVec.ofNat 32 g.after ∧
    racing.env.schedule = publishing.map (fun b => b.map LogicalWrite.concrete) ∧
    contractKept g publishing.flatten ∧ 8 < 2 ^ 32 ∧
    (∃ t, exec .acqPoll racing = .next t ∧
      t.port.responses = racing.port.responses ++ [{ rc := .ok, val := BitVec.ofNat 32 8 }]) ∧
    (logAfter g publishing (8 / 4 + 2)).before ≤ 0 + capBytes racing.cfg :=
  ⟨racing_inv, by decide, by decide, by decide, by decide, rfl, publishing_keeps_contract,
    by decide, racing_poll, by decide⟩

/-- The five clauses of PackAdd, at 30 and 31 bits. -/
theorem witness_PackAdd :
    (packer 1 30 []).acq.acqState ≠ .stopped ∧ (packer 1 30 []).acq.pkNbits + 1 ≠ 32 ∧
    (packer 1 31 [7, 7]).acq.pkNbits + 1 = 32 ∧
    ((packer 1 31 [7, 7]).acq.pkBatch ++ [0]).length ≠ (packer 1 31 [7, 7]).cfg.batchWords ∧
    ((packer 1 31 [7, 7, 7]).acq.pkBatch ++ [0]).length = (packer 1 31 [7, 7, 7]).cfg.batchWords ∧
    (packer 1 31 [7, 7, 7]).env.sinkTape.headD 4 = 4 ∧
    (sinking [3] (packer 1 31 [7, 7, 7])).env.sinkTape.head? = some 3 ∧
    3 < ((packer 1 31 [7, 7, 7]).acq.pkBatch ++ [0]).length ∧
    (inMode .stopped (packer 1 31 [])).acq.acqState = .stopped := by decide

theorem witness_PackFlush : (packer 1 3 []).acq.acqState ≠ .stopped ∧ (packer 1 3 []).acq.pkBatch = [] ∧
    (packer 1 3 [7]).acq.pkBatch ≠ [] ∧ (packer 1 3 [7]).env.sinkTape.headD 1 = 1 ∧
    (sinking [0] (packer 1 3 [7])).env.sinkTape.head? = some 0 ∧ 0 < (packer 1 3 [7]).acq.pkBatch.length ∧
    (inMode .stopped (packer 1 3 [])).acq.acqState = .stopped := by decide

theorem witness_PackClose : (packer 1 3 []).acq.acqState ≠ .stopped ∧ (packer 1 3 []).acq.pkBatch = [] ∧
    (packer 1 31 [7]).acq.pkBatch ≠ [] ∧ (packer 1 31 [7]).env.sinkTape.headD 1 = 1 ∧
    (sinking [0] (packer 1 31 [7])).env.sinkTape.head? = some 0 ∧
    0 < (packer 1 31 [7]).acq.pkBatch.length ∧
    (inMode .stopped (packer 1 31 [7])).acq.acqState = .stopped := by decide

theorem witness_LaneLaw : State.reset.acq.pkNbits = 0 ∧ State.reset.acq.pkBatch = [] ∧
    State.reset.env.sinkTape = [] ∧ ∃ t, packAll (rep 33 true) State.reset = .done () t :=
  ⟨by decide, by decide, by decide, _, rfl⟩

theorem witness_PackUnpackRoundTrip : State.reset.acq.pkNbits = 0 ∧ State.reset.acq.pkBatch = [] ∧
    State.reset.env.persisted = [] ∧
    (∃ t t', packAll (rep 33 true) State.reset = .done () t ∧ packClose t = .done () t' ∧
      [[(0xFFFFFFFF : Word)]].flatten = t'.env.persisted) ∧
    (sourcing [.data [0xFFFFFFFF], .eos]).dec = Dec.reset ∧
    (∀ p ∈ [[(0xFFFFFFFF : Word)]], 1 ≤ p.length ∧ p.length ≤ Config.reference.batchWords) ∧
    (sourcing [.data [0xFFFFFFFF], .eos]).env.sourceTape =
      [[(0xFFFFFFFF : Word)]].map .data ++ [.eos] ∧
    [SourceAnswer.eos].headD .eos = .eos :=
  ⟨by decide, by decide, by decide, ⟨_, _, rfl, rfl, rfl⟩, by decide, by decide, by decide, by decide⟩

/-- The clauses of UnpkGet: sticky end, last bit of a word, next word, the three answers of the source. -/
theorem witness_UnpkGet : decReady State.reset = true ∧
    decReady { State.reset with dec := { Dec.reset with upIoErr := true } } = false ∧
    { Dec.reset with upEos := true }.upEos = true ∧
    { Dec.reset with upNleft := 1 }.upNleft ≠ 0 ∧
    { Dec.reset with upBatch := [7, 7, 7, 7], upWidx := 3 }.upWidx <
      { Dec.reset with upBatch := [7, 7, 7, 7], upWidx := 3 }.upBatch.length ∧
    Dec.reset.upEos = false ∧ Dec.reset.upNleft = 0 ∧ Dec.reset.upWidx = Dec.reset.upBatch.length ∧
    (sourcing [.data [1, 2, 3, 4]]).env.sourceTape.head? = some (.data (1 :: [2, 3, 4])) ∧
    [(2 : Word), 3, 4].length + 1 ≤ State.reset.cfg.batchWords ∧
    (sourcing [.eos]).env.sourceTape.head? = some .eos ∧
    (sourcing [.err]).env.sourceTape.head? = some .err := by decide

theorem witness_DecReset : decCfgOk Config.reference = true ∧
    decCfgOk { Config.reference with frameLen := 11, frameLenMax := 11, batchWords := 1 } = true ∧
    decCfgOk { Config.reference with frameLen := 10 } = false ∧
    decCfgOk { Config.reference with frameLenMax := 2 ^ 31 } = false := by decide

/-- The clauses of DecBitInSync, at runs of 59 and 60 for FRAME_LEN = 30, and at the saturated counter. -/
theorem witness_DecBitInSync : decReady (syncing 60 true) = true ∧
    (syncing 60 true).dec.phase = .sync { consecutiveHighs := 60, lastBit := true } ∧
    (syncing 0xFFFFFFFF true).dec.phase = .sync { consecutiveHighs := 0xFFFFFFFF, lastBit := true } ∧
    (syncing 0 false).dec.phase = .sync { consecutiveHighs := 0, lastBit := false } ∧
    (59 : Word).toNat < 2 * Config.reference.frameLen ∧ 2 * Config.reference.frameLen ≤ (60 : Word).toNat ∧
    11 ≤ learn Config.reference.learn Config.reference.frameLen 60 ∧
    learn Config.reference.learn Config.reference.frameLen 60 ≤ Config.reference.frameLenMax ∧
    Config.reference.learn = .configured := by decide

theorem witness_CommitNeedsLearnInRange : decReady (syncing 60 true) = true ∧
    (syncing 60 true).dec.phase = .sync { consecutiveHighs := 60, lastBit := true } ∧
    2 * (syncing 60 true).cfg.frameLen ≤ (60 : Word).toNat := by decide

/-- The clauses of DecBitInDecode: one sample short of the window, and its three results. -/
theorem witness_DecBitInDecode : decReady (decoding frame55) = true ∧
    (rep 31 false ++ [true]).length ≠ frs 30 ∧
    (frame55 ++ [true, true] ++ [true]).length = frs 30 ∧
    evalWindow (frame55.take 27 ++ rep 6 false) 30 .msbFirst = .framingFail ∧
    evalWindow (frame55 ++ rep 3 false) 30 .msbFirst = .byte 0x55 (some 30) ∧
    evalWindow (frame55 ++ rep 3 true) 30 .msbFirst = .byte 0x55 none := by decide

/-- The clauses of WindowEvaluation, at fl = 11 and fl = 30: start bit 1, stop bit 0, a valid frame. -/
theorem witness_WindowEvaluation : (rep 12 true).length = 11 + 11 / 8 ∧
    vote (rep 12 true) 11 0 = true ∧ vote (rep 12 false) 11 9 = false ∧
    (frame55 ++ rep 3 true).length = 30 + 30 / 8 ∧
    vote (frame55 ++ rep 3 true) 30 0 = false ∧ vote (frame55 ++ rep 3 true) 30 9 = true := by decide

/-- Both clauses of FrameOfByteDecodes: the ideal frame of 0x55, and a window that starts with three 1s. -/
theorem witness_FrameOfByteDecodes : (frame55 ++ rep 3 true).length = frs 30 ∧
    ((List.range 10).all fun i => (List.range 3).all fun t =>
      (frame55 ++ rep 3 true)[30 * i / 10 + t]? == some
        (if i = 0 then false else if i = 9 then true else (0x55 : Byte).getLsbD (8 - i))) = true ∧
    (rep 33 true).length = frs 30 ∧ (rep 33 true)[0]? = some true ∧ (rep 33 true)[1]? = some true ∧
    (rep 33 true)[2]? = some true := by decide

theorem witness_SyncThreshold : decCfgOk State.reset.cfg = true ∧ State.reset.cfg.learn = .configured ∧
    State.reset.dec.phase = .sync { consecutiveHighs := 0, lastBit := false } ∧
    2 * State.reset.cfg.frameLen ≤ 60 ∧ 59 < 2 * State.reset.cfg.frameLen := by decide

/-- The reset state with an unpacker part-way through a word and a stopped ACQ unit. -/
def otherUnits : State :=
  { State.reset with
    acq := { Acq.reset with acqState := .stopped, acqCause := .ioErr, acqExit := 1 }
    dec := { Dec.reset with upBatch := [5, 6], upWidx := 1, upWord := 5, upNleft := 7 } }

theorem witness_DecoderDependsOnBitsOnly : State.reset.cfg = otherUnits.cfg ∧
    State.reset.dec.phase = otherUnits.dec.phase ∧ State.reset.dec.bitOffset = otherUnits.dec.bitOffset ∧
    State.reset.dec.nBytes = otherUnits.dec.nBytes ∧
    State.reset.dec.nFramingFail = otherUnits.dec.nFramingFail ∧
    State.reset.dec.nResyncExhaust = otherUnits.dec.nResyncExhaust ∧
    State.reset.dec.nSync = otherUnits.dec.nSync ∧
    ∃ evs t, decodeAll [true, false] State.reset = .done evs t :=
  ⟨rfl, rfl, rfl, rfl, rfl, rfl, rfl, _, _, rfl⟩

/-- A decoder whose next bit completes a window with a low stop bit. -/
def lowStop : State := decoding (frame55.take 27 ++ rep 5 false)

theorem lowStop_inv : DecInv lowStop := by
  constructor
  case window =>
    intro f hf
    injection hf with hf
    subst hf
    decide
  case syncFields => intro f hf; simp [lowStop, decoding] at hf
  all_goals decide

theorem witness_OnlyTheStopCheckFails : DecInv lowStop ∧
    lowStop.dec.phase = .decode { frameLength := 30, buf := frame55.take 27 ++ rep 5 false, frameStart := 60 } ∧
    (match decodeBit false lowStop with | .done ev _ => ev == .framingFail | _ => false) = true :=
  ⟨lowStop_inv, rfl, by decide⟩

/-- The clauses of SampledIndicesInBounds, where they meet: 11 and 10, and the least of each. -/
theorem witness_SampledIndicesInBounds : 11 ≤ 11 ∧ 9 ≤ 9 ∧ ofs 11 9 + 2 ≤ frs 11 - 1 ∧
    1 ≤ 10 ∧ 10 ≤ 10 ∧ frs 10 - 1 < ofs 10 9 + 2 ∧ frs 1 - 1 < ofs 1 9 + 2 := by decide

theorem witness_SelfResynchronization : ∃ t t1 evs, decodeBit false lowStop = .done .framingFail t ∧
    decodeAll [true, false] t = .done evs t1 :=
  ⟨_, _, _, rfl, rfl⟩

theorem witness_DecRunFetchesLikeUnpkGet : decReady (sourcing [.data [1]]) = true ∧
    (∃ t, exec .unpkGet (sourcing [.data [1]]) = .next t) ∧ decReady (sourcing [.err]) = true ∧
    (∃ t, exec .unpkGet (sourcing [.err]) = .next t) ∧ (sourcing [.err]).port.inputs = [] ∧
    (sourcing [.err]).acq.runActive = false ∧ { Dec.reset with run := .fetch }.run = .fetch :=
  ⟨by decide, has_next (by decide), by decide, has_next (by decide), by decide, by decide, by decide⟩

theorem witness_DecRunGivesTheBitToDecBit : decReady (decInRun (.bit true)) = true ∧ (decInRun (.bit true)).port.inputs = [] ∧
    (decInRun (.bit true)).acq.runActive = false ∧ (decInRun (.bit true)).dec.run = .bit true ∧
    ∃ t, exec (.decBit true) (decInRun (.bit true)) = .next t :=
  ⟨by decide, by decide, by decide, by decide, has_next (by decide)⟩

theorem witness_DecRunStarts : decReady State.reset = true ∧
    decReady { State.reset with dec := { Dec.reset with upEos := true } } = true ∧
    decReady { State.reset with dec := { Dec.reset with upNleft := 32 } } = true := by decide

/-- Numbers just inside and just outside the map. -/
theorem witness_StatusRegisterMap : (statusReg? 0x11).isSome = true ∧ statusReg? 0x12 = none ∧
    statusReg? 0x1F = none ∧ (statusReg? 0x20).isSome = true ∧ (statusReg? 0x30).isSome = true ∧
    statusReg? 0x31 = none ∧ (statusReg? 0x4A).isSome = true ∧ statusReg? 0x4B = none := by decide

/-- The reset state with ACQ.INIT on its port. -/
def initOffered : State := offering [.command 0x1000000000] State.reset

theorem initOffered_inv : MachineInv initOffered where
  memory := ⟨List.Pairwise.nil, List.Pairwise.nil⟩
  acq := by constructor <;> decide
  dec := by
    constructor <;> first | decide | simp [initOffered, offering, State.reset, Dec.reset, SyncFields.entry]

theorem witness_StepKeepsInvariant : MachineInv initOffered ∧ ∃ t, step initOffered = .next t :=
  ⟨initOffered_inv, has_next (by decide)⟩

theorem witness_NoStepFaults : MachineInv initOffered := initOffered_inv

theorem witness_ConfigurationIsConstant : ∃ t, step State.reset = .next t := ⟨_, rfl⟩

theorem witness_UnitsShareNoRegister : (∃ t, exec .acqPoll (running 0 8 8 0 0 0 0) = .next t) ∧
    (∃ t, exec .unpkGet State.reset = .next t) ∧ ∃ t, exec (.rdsr 3) State.reset = .next t :=
  ⟨has_next (by decide), has_next (by decide), has_next (by decide)⟩

theorem witness_OnlyResetLeavesStopped :
    let s := inMode .stopped State.reset
    s.acq.acqState = .stopped ∧ Instr.acqCancel ≠ .reset ∧ (∃ t, exec .acqCancel s = .next t) ∧
    ∃ t, exec .acqInit s = .next t :=
  ⟨by decide, by decide, has_next (by decide), has_next (by decide)⟩

end Sys2Proof.Tests
end

/-! Every step keeps the invariant (statement O56): the invariant's parts under a change of the state,
then unit by unit what each micro-operation and each command keeps, then the step. -/

namespace Sys2Proof.Machine

/-! ### The invariant sees the two regions, the configuration and the registers only -/

theorem AcqInv.congr {s t : State} (h : AcqInv s) (hc : t.cfg = s.cfg) (ha : t.acq = s.acq) :
    AcqInv t := by
  obtain ⟨cfg, acq, _, _, _⟩ := t
  obtain rfl : cfg = s.cfg := hc
  obtain rfl : acq = s.acq := ha
  exact { h with }

theorem DecInv.congr {s t : State} (h : DecInv s) (hc : t.cfg = s.cfg) (hd : t.dec = s.dec) :
    DecInv t := by
  obtain ⟨cfg, _, dec, _, _⟩ := t
  obtain rfl : cfg = s.cfg := hc
  obtain rfl : dec = s.dec := hd
  exact { h with }

/-- The command port is no part of the invariant. -/
theorem MachineInv.withPort {s : State} (h : MachineInv s) (p : Port) :
    MachineInv { s with port := p } :=
  ⟨h.memory, h.acq.congr rfl rfl, h.dec.congr rfl rfl⟩

theorem MachineInv.respond {s : State} (h : MachineInv s) (rc : RespCode) (v : Word) :
    MachineInv (s.respond rc v) :=
  h.withPort _

/-- The trace of accesses is no part of the invariant. -/
theorem MachineInv.logEvent {s : State} (h : MachineInv s) (ev : BusEvent) :
    MachineInv (s.logEvent ev) :=
  ⟨h.memory, h.acq.congr rfl rfl, h.dec.congr rfl rfl⟩

theorem MachineInv.barrier {s : State} (h : MachineInv s) : MachineInv (barrier s) :=
  h.logEvent _

theorem MachineInv.producerTurn {s : State} (h : MachineInv s) : MachineInv (producerTurn s) :=
  have frame := producerTurn_frame s
  have hacq : (Machine.producerTurn s).acq = s.acq := by
    obtain ⟨sh, ct, hp⟩ := producerTurn_spec s
    rw [hp]
  ⟨producerTurn_canonical h.memory, h.acq.congr frame.cfg hacq, h.dec.congr frame.cfg frame.dec⟩

theorem MachineInv.endAcqRun {s : State} (h : MachineInv s) : MachineInv (endAcqRun s) :=
  ⟨h.memory, { h.acq with }, h.dec.congr rfl rfl⟩

/-- A command that is refused in this state changes the responses only (30_encoding.md R94). -/
theorem refuseInState_keepsInv {s t : State} (h : MachineInv s) (hs : refuseInState s = .next t) :
    MachineInv t := by
  obtain rfl := Host.Outcome.next.inj hs
  exact h.respond _ _

/-! ### The packer -/

/-- The packer's registers may take any value in range (10_state.md R30, R31). -/
theorem MachineInv.withPacker {s : State} (h : MachineInv s) {w : Word} {n : Nat} {ws : List Word}
    (hn : n < 32) (hw : w.toNat < 2 ^ n)
    (hb : 1 ≤ s.cfg.batchWords → ws.length < s.cfg.batchWords) :
    MachineInv { s with acq := { s.acq with pkWord := w, pkNbits := n, pkBatch := ws } } :=
  ⟨h.memory, { h.acq with nbitsBelow := hn, wordBelow := hw, batchRoom := hb }, h.dec.congr rfl rfl⟩

/-- At a word boundary only the batch is left to bound (10_state.md R31). -/
theorem MachineInv.withBatch {s : State} (h : MachineInv s) {ws : List Word}
    (hb : 1 ≤ s.cfg.batchWords → ws.length < s.cfg.batchWords) :
    MachineInv { s with acq := { s.acq with pkWord := 0, pkNbits := 0, pkBatch := ws } } :=
  h.withPacker (by decide) (by decide) hb

/-- A cause that the ACQ unit can raise, in a state that meets the invariant: what the exit sequence
starts from (60_exceptions.md R229, R232). -/
def RaisedInv (c : Cause) (s : State) : Prop := (c ≠ .none ∧ c ≠ .eos) ∧ MachineInv s

/-- A flush needs room in its result only: the batch it starts from may be full
(41_bit_packer_unpacker.md R140, R141). -/
theorem packFlush_keepsInv {s : State}
    (h : MachineInv { s with acq := { s.acq with pkBatch := [] } }) :
    (packFlush s).Post (fun _ => MachineInv) RaisedInv := by
  cases hf : packFlush s with
  | done a t =>
    rcases packFlush_done hf with ⟨hempty, rfl⟩ | ⟨-, -, rfl⟩
    · rwa [← hempty] at h
    · exact ⟨h.memory, h.acq.congr rfl rfl, h.dec.congr rfl rfl⟩
  | raised c t =>
    obtain ⟨rfl, -, n, -, -, rfl⟩ := packFlush_raised hf
    exact ⟨by decide, h.memory, { h.acq with }, h.dec.congr rfl rfl⟩
  | fault r => trivial
  | refused r => trivial

theorem MachineInv.emptied {s : State} (h : MachineInv s) :
    MachineInv { s with acq := { s.acq with pkBatch := [] } } :=
  h.withPacker h.acq.nbitsBelow h.acq.wordBelow id

theorem packClose_keepsInv {s : State} (h : MachineInv s) :
    (packClose s).Post (fun _ => MachineInv) RaisedInv :=
  (packFlush_keepsInv h.emptied).bind fun _ _ hu => hu.withBatch hu.acq.batchRoom

/-- One more bit makes a word of one more bit (41_bit_packer_unpacker.md R140). -/
theorem shiftIn_below {w : Word} {n : Nat} (b : Bool) (h : w.toNat < 2 ^ n) :
    (shiftIn w b).toNat < 2 ^ (n + 1) := by
  have shifted : (w <<< 1).toNat < 2 ^ (n + 1) := by
    rw [BitVec.toNat_shiftLeft, Nat.shiftLeft_eq, pow_succ]
    exact (Nat.mod_le _ _).trans_lt (by omega)
  have bit : ((BitVec.ofBool b).zeroExtend 32).toNat < 2 ^ (n + 1) :=
    calc ((BitVec.ofBool b).zeroExtend 32).toNat < 2 ^ 1 := by cases b <;> decide
      _ ≤ 2 ^ (n + 1) := Nat.pow_le_pow_right (by decide) (by omega)
  rw [shiftIn, BitVec.toNat_or]
  exact Nat.or_lt_two_pow shifted bit

theorem packBit_keepsInv (b : Bool) {s : State} (h : MachineInv s) :
    (packBit b s).Post (fun _ => MachineInv) RaisedInv := by
  have flushed := packFlush_keepsInv (s := { s with acq := { s.acq with
    pkBatch := s.acq.pkBatch ++ [shiftIn s.acq.pkWord b], pkWord := 0, pkNbits := 0 } })
    (h.withBatch (ws := []) id)
  have below := h.acq.nbitsBelow
  cases hp : packBit b s with
  | done a t =>
    rcases packBit_done hp with ⟨hpart, rfl⟩ | ⟨-, hroom, rfl⟩ | ⟨-, -, hflush⟩
    · exact h.withPacker (by omega) (shiftIn_below b h.acq.wordBelow) h.acq.batchRoom
    · refine h.withBatch fun hw => ?_
      have := h.acq.batchRoom hw
      rw [List.length_append, List.length_singleton]
      omega
    · rwa [hflush] at flushed
  | raised c t =>
    obtain ⟨-, -, hflush⟩ := packBit_raised hp
    rwa [hflush] at flushed
  | fault r => trivial
  | refused r => trivial

/-! ### The exit sequence of the ACQ unit -/

/-- The exit sequence leaves the exit code of its cause (60_exceptions.md R229, R232). -/
theorem Cause.exitCode_of_raised {c : Cause} (hn : c ≠ .none) (he : c ≠ .eos) :
    (if c = .cancelled then 0 else 1) = c.exitCode := by
  cases c with
  | none => exact absurd rfl hn
  | eos => exact absurd rfl he
  | cancelled | cfgErr | ioErr | overrun => rfl

/-- STOPPED with a cause and the exit code of that cause (10_state.md R25; 60_exceptions.md R229). -/
theorem AcqInv.stopped {s : State} (h : AcqInv s) {c : Cause} (hn : c ≠ .none) (he : c ≠ .eos) :
    AcqInv { s with acq := { s.acq with
      acqCause := c
      acqExit := if c = .cancelled then 0 else 1
      acqState := .stopped } } :=
  { h with
    runningCfg := nofun
    causeStopped := by simp [hn]
    causeCode := he
    exitCode := Cause.exitCode_of_raised hn he }

theorem leaveAcq_keepsInv {c : Cause} {s : State} (h : RaisedInv c s) : MachineInv (leaveAcq c s) := by
  obtain ⟨⟨hn, he⟩, h⟩ := h
  refine ⟨?_, (h.acq.stopped hn he).congr (leaveAcq_cfg c s) (leaveAcq_acq c s),
    h.dec.congr (leaveAcq_cfg c s) (leaveAcq_dec c s)⟩
  unfold memoryCanonical
  rw [leaveAcq_env]
  split_ifs <;> exact h.memory

theorem exitAcq_keepsInv {c : Cause} {s t : State} (h : RaisedInv c s) (hs : exitAcq c s = .next t) :
    MachineInv t := by
  have close := packClose_keepsInv h.2
  rcases exitAcq_spec hs with ⟨-, ⟨u, hu, rfl⟩ | ⟨u, hu, rfl⟩⟩ | ⟨-, -, rfl⟩
  · rw [hu] at close
    exact leaveAcq_keepsInv ⟨h.1, close⟩
  · rw [hu] at close
    exact leaveAcq_keepsInv close
  · exact leaveAcq_keepsInv h

/-- An ACQ command keeps the invariant when its micro-operations and its ending do. -/
theorem settleAcq_keepsInv {α : Type} {m : Micro α} {k : α → State → State} {t : State}
    (hm : m.Post (fun _ => MachineInv) RaisedInv) (hk : ∀ a s, MachineInv s → MachineInv (k a s))
    (hs : settleAcq m k = .next t) : MachineInv t := by
  rcases settleAcq_eq_next.mp hs with ⟨a, u, rfl, rfl⟩ | ⟨c, u, rfl, hexit⟩
  · exact hk a u hm
  · exact exitAcq_keepsInv hm hexit

theorem packerCommand_keepsInv {m : State → Micro Unit} {s t : State} (h : MachineInv s)
    (hm : (m s).Post (fun _ => MachineInv) RaisedInv) (hs : packerCommand m s = .next t) :
    MachineInv t := by
  unfold packerCommand at hs
  split_ifs at hs
  · exact refuseInState_keepsInv h hs
  · exact settleAcq_keepsInv hm (fun _ _ hu => hu.respond _ _) hs

/-! ### The poll -/

theorem ctrlRead_keepsInv (w : CtrlWord) {s : State} (h : MachineInv s) :
    (ctrlRead w s).Post (fun v t => v.toNat % 4 = 0 ∧ MachineInv t) RaisedInv := by
  cases hr : ctrlRead w s with
  | done v t =>
    obtain ⟨-, haligned, rfl⟩ := ctrlRead_spec hr
    exact ⟨haligned, h.producerTurn.logEvent _⟩
  | raised c t => exact absurd hr (ctrlRead_not_raised _ _ _ _)
  | fault r => trivial
  | refused r => trivial

theorem memRead_keepsInv (off : Nat) {s : State} (h : MachineInv s) :
    (memRead off s).Post (fun _ => MachineInv) RaisedInv := by
  cases hr : memRead off s with
  | done v t =>
    obtain ⟨-, -, -, rfl⟩ := memRead_spec hr
    exact h.producerTurn.logEvent _
  | raised c t => exact absurd hr (memRead_not_raised _ _ _ _)
  | fault r => trivial
  | refused r => trivial

theorem rbSample_keepsInv (v off : Word) {s : State} (h : MachineInv s) :
    (rbSample v off s).Post (fun _ => MachineInv) RaisedInv := by
  unfold rbSample
  split_ifs
  · obtain ⟨m, o, g, f, hv⟩ := verifyCheck_spec v off s
    rw [Micro.post_done, hv]
    exact ⟨h.memory, { h.acq with }, h.dec.congr rfl rfl⟩
  · exact packBit_keepsInv _ h

theorem spanLoop_keepsInv (spans : List (Nat × Nat)) (off : Word) {s : State} (h : MachineInv s) :
    (spanLoop spans off s).Post (fun _ => MachineInv) RaisedInv :=
  spanLoop_post (fun off _ => memRead_keepsInv off) (fun v off _ => rbSample_keepsInv v off)
    spans off s h

/-- `last_read` takes a snapshot, which is a multiple of 4 (20_memory.md R66). -/
theorem pollChecked_keepsInv (cfg : Config) (l : Word) {w : Word} (hw : w.toNat % 4 = 0) {s : State}
    (h : MachineInv s) : MachineInv (pollChecked cfg l w s) :=
  ⟨h.memory, { h.acq with lastReadAligned := hw }, h.dec.congr rfl rfl⟩

theorem rbOvrChk_keepsInv (b : Word) {s : State} (h : MachineInv s) :
    (rbOvrChk b s).Post (fun _ => MachineInv) RaisedInv := by
  rcases rbOvrChk_cases b s with ⟨hgap, hr⟩ | ⟨-, hr⟩
  · rw [hr]
    exact ⟨by decide, h.memory, { h.acq with overrunGap := fun _ => ⟨rfl, hgap⟩ }, h.dec.congr rfl rfl⟩
  · rwa [hr]

theorem rbCancelChk_keepsInv {s : State} (h : MachineInv s) :
    (rbCancelChk s).Post (fun _ => MachineInv) RaisedInv := by
  unfold rbCancelChk
  split_ifs
  · exact ⟨by decide, h.memory, { h.acq with }, h.dec.congr rfl rfl⟩
  · exact h

/-- A poll keeps the invariant, and so does each cause it raises, before the exit sequence
(40_ring_consumer.md R110). -/
theorem poll_keepsInv {s : State} (h : MachineInv s) :
    (poll s).Post (fun _ => MachineInv) RaisedInv :=
  (rbCancelChk_keepsInv h).bind fun _ _ h1 =>
    (ctrlRead_keepsInv .after h1).bind fun _ _ ⟨hw, h2⟩ =>
      (spanLoop_keepsInv _ _ h2.barrier).bind fun _ _ h3 =>
        (ctrlRead_keepsInv .before (pollChecked_keepsInv _ _ hw h3)).bind fun _ _ ⟨_, h4⟩ =>
          (rbOvrChk_keepsInv _ h4).bind fun _ _ h5 => h5

/-! ### The commands of the ACQ unit -/

theorem acqRunPoll_keepsInv {s t : State} (h : MachineInv s) (hs : acqRunPoll s = .next t) :
    MachineInv t := by
  have hpoll := poll_keepsInv h
  rcases acqRunPoll_eq_next.mp hs with ⟨n, u, hu, rfl⟩ | ⟨c, u, hu, hexit⟩
  · rw [hu] at hpoll
    exact ⟨hpoll.memory, { hpoll.acq with }, hpoll.dec.congr rfl rfl⟩
  · rw [hu] at hpoll
    exact exitAcq_keepsInv ⟨hpoll.1, hpoll.2.endAcqRun⟩ hexit

theorem acqRunTurn_keepsInv {s t : State} (h : MachineInv s) (hs : acqRunTurn s = .next t) :
    MachineInv t := by
  unfold acqRunTurn at hs
  split_ifs at hs
  · exact acqRunPoll_keepsInv h hs
  · obtain rfl := Host.Outcome.next.inj hs
    exact h

theorem execAcqRun_keepsInv {s t : State} (h : MachineInv s) (hs : execAcqRun s = .next t) :
    MachineInv t := by
  unfold execAcqRun at hs
  split_ifs at hs
  · exact acqRunPoll_keepsInv h hs
  · exact refuseInState_keepsInv h hs

theorem execAcqPoll_keepsInv {s t : State} (h : MachineInv s) (hs : execAcqPoll s = .next t) :
    MachineInv t := by
  unfold execAcqPoll at hs
  split_ifs at hs
  · exact settleAcq_keepsInv (poll_keepsInv h) (fun _ _ hu => hu.respond _ _) hs
  · exact refuseInState_keepsInv h hs

theorem execAcqStop_keepsInv {s t : State} (h : MachineInv s) (hs : execAcqStop s = .next t) :
    MachineInv t := by
  unfold execAcqStop at hs
  split_ifs at hs
  · exact exitAcq_keepsInv (s := { s with acq := { s.acq with fCancelled := true } })
      ⟨by decide, h.memory, { h.acq with }, h.dec.congr rfl rfl⟩ hs
  · exact refuseInState_keepsInv h hs

theorem execAcqCancel_keepsInv {s t : State} (h : MachineInv s) (hs : execAcqCancel s = .next t) :
    MachineInv t := by
  obtain rfl := Host.Outcome.next.inj hs
  exact ⟨h.memory, { h.acq with }, h.dec.congr rfl rfl⟩

/-- The accesses of ACQ.INIT leave both regions canonical (42_acquisition_loop.md R160). -/
theorem programProducer_canonical (s : State) : memoryCanonical (programProducer s) :=
  ⟨Memory.wf_nil, by
    simp only [programProducer, prodStart_env_ctrl, barrier_env_ctrl, ctrlWrite_env_ctrl,
      prodReset_env_ctrl]
    iterate 5 apply Memory.wf_setWord
    exact Memory.wf_nil⟩

@[simp] theorem programProducer_cfg (s : State) : (programProducer s).cfg = s.cfg := by
  simp [programProducer]
@[simp] theorem programProducer_acq (s : State) : (programProducer s).acq = s.acq := by
  simp [programProducer]
@[simp] theorem programProducer_dec (s : State) : (programProducer s).dec = s.dec := by
  simp [programProducer]

/-- RUNNING is entered with cleared registers and a legal configuration (42_acquisition_loop.md R160). -/
theorem MachineInv.enterRunning {s : State} {a : Acq} (hm : memoryCanonical s) (hd : DecInv s)
    (hcfg : acqCfgOk s.cfg = true) (ha : s.acq = clearForInit a) :
    MachineInv { s with acq := { s.acq with acqState := .running } } := by
  rw [ha]
  exact ⟨hm, {
    lastReadAligned := rfl
    nbitsBelow := (by decide : 0 < 32)
    wordBelow := (by decide : (0 : Word).toNat < 2 ^ 0)
    batchRoom := id
    runningCfg := fun _ => hcfg
    causeStopped := by simp [clearForInit]
    causeCode := nofun
    exitCode := rfl
    overrunGap := nofun }, hd.congr rfl rfl⟩

theorem execAcqInit_keepsInv {s t : State} (h : MachineInv s) (hs : execAcqInit s = .next t) :
    MachineInv t := by
  unfold execAcqInit at hs
  split_ifs at hs with hidle hcfg
  · obtain rfl := Host.Outcome.next.inj hs
    refine (MachineInv.enterRunning (a := s.acq) (programProducer_canonical _)
      (h.dec.congr ?_ ?_) ?_ ?_).respond _ _
    all_goals simp only [programProducer_cfg, programProducer_acq, programProducer_dec, hcfg]
  · exact exitAcq_keepsInv (s := { s with acq := { s.acq with fCfgErr := true } })
      ⟨by decide, h.memory, { h.acq with }, h.dec.congr rfl rfl⟩ hs
  · exact refuseInState_keepsInv h hs

/-! ### The decoder: what a bit leaves alone, and its two phases -/

/-- What the invariant asks of a phase (43_sync_detector.md R175; 10_state.md R36). -/
def PhaseOk (cfg : Config) : Phase → Prop
  | .sync f => f.lastBit = false → f.consecutiveHighs = 0
  | .decode f => 11 ≤ f.frameLength ∧ f.frameLength ≤ cfg.frameLenMax ∧ f.buf.head? = some false ∧
      f.buf.length < frs f.frameLength

/-- The invariant's two fields about the phase are `PhaseOk`: a part-filled window lies inside the frame
buffer (00_scope.md R8). -/
theorem phaseOk_iff {cfg : Config} {p : Phase} :
    PhaseOk cfg p ↔
      (∀ f, p = .sync f → f.lastBit = false → f.consecutiveHighs = 0) ∧
      ∀ f, p = .decode f → 11 ≤ f.frameLength ∧ f.frameLength ≤ cfg.frameLenMax ∧
        f.buf.head? = some false ∧ f.buf.length < frs f.frameLength ∧ f.buf.length < frsMax cfg := by
  cases p with
  | sync f => simp [PhaseOk]
  | decode f =>
    simp only [PhaseOk, reduceCtorEq, false_implies, implies_true, true_and, Phase.decode.injEq,
      forall_eq']
    constructor
    · rintro ⟨hmin, hmax, hhead, hlen⟩
      exact ⟨hmin, hmax, hhead, hlen, hlen.trans_le (frs_le_frsMax hmax)⟩
    · rintro ⟨hmin, hmax, hhead, hlen, -⟩
      exact ⟨hmin, hmax, hhead, hlen⟩

theorem DecInv.phaseOk {s : State} (h : DecInv s) : PhaseOk s.cfg s.dec.phase :=
  phaseOk_iff.mpr ⟨h.syncFields, h.window⟩

/-- What a DEC.BIT leaves alone: all but the decoder's own registers, the output and the trace
(45_decode_driver.md R206). -/
structure DecoderFrame (s t : State) : Prop where
  cfg : t.cfg = s.cfg
  acq : t.acq = s.acq
  port : t.port = s.port
  dec : t.dec = { s.dec with
    phase := t.dec.phase, bitOffset := t.dec.bitOffset, nBytes := t.dec.nBytes
    nFramingFail := t.dec.nFramingFail, nResyncExhaust := t.dec.nResyncExhaust, nSync := t.dec.nSync }
  env : t.env = { s.env with output := t.env.output, trace := t.env.trace }

theorem DecoderFrame.decReady {s t : State} (f : DecoderFrame s t) : decReady t = decReady s := by
  unfold Machine.decReady
  rw [f.dec, f.cfg]

/-- Under the frame of a DEC.BIT the invariant turns on the phase alone. -/
theorem DecoderFrame.keepsInv {s t : State} (f : DecoderFrame s t) (h : MachineInv s)
    (hp : PhaseOk t.cfg t.dec.phase) : MachineInv t := by
  obtain ⟨hsync, hwindow⟩ := phaseOk_iff.mp hp
  refine ⟨?_, h.acq.congr f.cfg f.acq, ?_⟩
  · unfold memoryCanonical
    rw [f.env]
    exact h.memory
  · have moved : DecInv { s with dec := t.dec } := by
      rw [f.dec]
      exact { h.dec with syncFields := hsync, window := f.cfg ▸ hwindow }
    exact moved.congr f.cfg rfl

theorem syncNext_keepsPhaseOk {cfg : Config} {f : SyncFields} (b : Bool) (h : PhaseOk cfg (.sync f)) :
    PhaseOk cfg (.sync (syncNext f b)) := by
  intro hlow
  obtain rfl : b = false := hlow
  show (if f.lastBit = true then 0 else f.consecutiveHighs) = 0
  split_ifs with hlast
  · rfl
  · exact h (by simpa using hlast)

/-- SYNC.BIT goes on counting, or commits to a window of the one falling-edge bit (43_sync_detector.md R176). -/
theorem syncBit_keeps {f : SyncFields} {b : Bool} {off : DWord} {s t : State} {ev : DecEvent}
    (h : syncBit f b off s = .done ev t) (hp : PhaseOk s.cfg (.sync f)) :
    DecoderFrame s t ∧ PhaseOk t.cfg t.dec.phase := by
  rcases syncBit_done h with ⟨rfl, -, -, hmin, hmax, -, rfl⟩ | ⟨-, -, rfl⟩
  · refine ⟨⟨rfl, rfl, rfl, rfl, rfl⟩, hmin, hmax, rfl, ?_⟩
    exact (by decide : 1 < 11).trans_le (hmin.trans (Nat.le_add_right _ _))
  · exact ⟨⟨rfl, rfl, rfl, rfl, rfl⟩, syncNext_keepsPhaseOk b hp⟩

/-- FRM.SEARCH finds a 0 sample, at an index of its range (44_frame_decoder.md R191). -/
theorem searchFrom_eq_some {w : List Bool} {n j k : Nat} (h : searchFrom w n j = some k) :
    j ≤ k ∧ k < j + n ∧ windowAt w k = false := by
  induction n generalizing j with
  | zero => simp [searchFrom] at h
  | succ n ih =>
    unfold searchFrom at h
    split_ifs at h with hw
    · obtain ⟨hle, hlt, hk⟩ := ih h
      exact ⟨by omega, by omega, hk⟩
    · injection h with h
      subst h
      exact ⟨le_rfl, by omega, by simpa using hw⟩

/-- The sample at which the next window begins lies past the first of this one and inside it
(44_frame_decoder.md R186, R191). -/
theorem evalWindow_next {w : List Bool} {fl j : Nat} {order : BitOrder} {x : Byte}
    (h : evalWindow w fl order = .byte x (some j)) :
    0 < j ∧ j < frs fl ∧ windowAt w j = false := by
  unfold evalWindow at h
  split_ifs at h
  injection h with _ hsearch
  obtain ⟨hle, hlt, hj⟩ := searchFrom_eq_some hsearch
  have hpos : 0 < scan0 fl := Nat.succ_pos _
  exact ⟨by omega, by omega, hj⟩

/-- A window that begins at an inner 0 sample is part-filled, with sample 0 equal to 0
(44_frame_decoder.md R192, R195). -/
theorem frmShift_window {f : DecodeFields} {j : Nat} (hfull : f.buf.length = frs f.frameLength)
    (hpos : 0 < j) (hlt : j < frs f.frameLength) (hj : windowAt f.buf j = false) :
    (frmShift f j).buf.head? = some false ∧ (frmShift f j).buf.length < frs f.frameLength := by
  have hin : j < f.buf.length := hfull ▸ hlt
  have hget : f.buf[j] = false := by
    rwa [windowAt, List.getD_eq_getElem _ _ hin] at hj
  constructor
  · rw [frmShift, List.head?_drop, List.getElem?_eq_getElem hin, hget]
  · rw [frmShift, List.length_drop]
    omega

/-- FRM.BIT goes on filling the window, shifts it to an inner 0 sample, or enters SYNC
(44_frame_decoder.md R185, R186). -/
theorem frmBit_keeps {f : DecodeFields} {b : Bool} {s t : State} {ev : DecEvent}
    (h : frmBit f b s = .done ev t) (hp : PhaseOk s.cfg (.decode f)) :
    DecoderFrame s t ∧ PhaseOk t.cfg t.dec.phase := by
  obtain ⟨hmin, hmax, hhead, hlen⟩ := hp
  have grown : (f.buf ++ [b]).length = f.buf.length + 1 := List.length_append
  rcases frmBit_done h with ⟨hpart, -, rfl⟩ | ⟨-, -, -, rfl⟩ | ⟨x, j, hfull, heval, -, rfl⟩ |
    ⟨x, -, -, -, rfl⟩
  · refine ⟨⟨rfl, rfl, rfl, rfl, rfl⟩, hmin, hmax, ?_, ?_⟩
    · simp [hhead]
    · show (f.buf ++ [b]).length < frs f.frameLength
      omega
  · exact ⟨⟨rfl, rfl, rfl, rfl, rfl⟩, fun _ => rfl⟩
  · obtain ⟨hpos, hlt, hj⟩ := evalWindow_next heval
    exact ⟨⟨rfl, rfl, rfl, rfl, rfl⟩, hmin, hmax,
      frmShift_window (f := { f with buf := f.buf ++ [b] }) (grown.trans hfull) hpos hlt hj⟩
  · exact ⟨⟨rfl, rfl, rfl, rfl, rfl⟩, fun _ => rfl⟩

theorem decodeBit_keeps {b : Bool} {s t : State} {ev : DecEvent} (h : decodeBit b s = .done ev t)
    (hp : PhaseOk s.cfg s.dec.phase) : DecoderFrame s t ∧ PhaseOk t.cfg t.dec.phase := by
  unfold decodeBit at h
  dsimp only at h
  have counted : ∀ {u}, DecoderFrame { s with dec := { s.dec with bitOffset := s.dec.bitOffset + 1 } } u →
      DecoderFrame s u := fun f => ⟨f.cfg, f.acq, f.port, f.dec, f.env⟩
  split at h
  case h_1 f hphase => exact (syncBit_keeps h (hphase ▸ hp)).imp_left counted
  case h_2 f hphase => exact (frmBit_keeps h (hphase ▸ hp)).imp_left counted

/-- DEC.BIT keeps the invariant and the condition under which it is accepted (45_decode_driver.md R206). -/
theorem decodeBit_keepsInv {b : Bool} {s t : State} {ev : DecEvent} (h : MachineInv s)
    (hd : decodeBit b s = .done ev t) : MachineInv t ∧ decReady t = decReady s := by
  obtain ⟨frame, hp⟩ := decodeBit_keeps hd h.dec.phaseOk
  exact ⟨frame.keepsInv h hp, frame.decReady⟩

/-! ### The unpacker -/

theorem decReady_upIoErr {s : State} (h : decReady s = true) : s.dec.upIoErr = false := by
  simp only [decReady, Bool.and_eq_true, Bool.not_eq_true'] at h
  exact h.1

theorem decReady_cfg {s : State} (h : decReady s = true) : decCfgOk s.cfg = true := by
  simp only [decReady, Bool.and_eq_true] at h
  exact h.2

/-- The unpacker's position may move within the buffered words (10_state.md R33). -/
theorem MachineInv.withPosition {s : State} (h : MachineInv s) {i n : Nat} {w : Word}
    (hi : i ≤ s.dec.upBatch.length) (hn : n ≤ 32) :
    MachineInv { s with dec := { s.dec with upWidx := i, upWord := w, upNleft := n } } :=
  ⟨h.memory, h.acq.congr rfl rfl, { h.dec with widxBound := hi, nleftBound := hn }⟩

theorem unpkTakeBit_keepsInv {s t : State} {r : Option Bool} (h : MachineInv s)
    (ht : unpkTakeBit s = .done r t) : MachineInv t ∧ decReady t = decReady s := by
  injection ht with _ ht
  have := h.dec.nleftBound
  exact ht ▸ ⟨h.withPosition h.dec.widxBound (by omega), rfl⟩

/-- There is a next word, so taking it keeps the index in range (41_bit_packer_unpacker.md R144). -/
theorem unpkNextWord_keepsInv {s : State} (h : MachineInv s) (hlt : s.dec.upWidx < s.dec.upBatch.length) :
    MachineInv (unpkNextWord s) :=
  h.withPosition hlt le_rfl

/-- A refill with data starts at the first of at most BATCH_WORDS words, and one at the end of the stream
records EOS (41_bit_packer_unpacker.md R145; 60_exceptions.md R227). -/
theorem unpkRefill_keepsInv {s t : State} {more : Bool} (h : MachineInv s) (hr : decReady s = true)
    (ht : unpkRefill s = .done more t) :
    MachineInv t ∧ decReady t = decReady s ∧ (more = true → t.dec.upWidx < t.dec.upBatch.length) := by
  rcases unpkRefill_done ht with ⟨ws, rfl, -, hpos, hmax, rfl⟩ | ⟨rfl, -, rfl⟩
  · refine ⟨⟨h.memory, h.acq.congr rfl rfl, ?_⟩, rfl, fun _ => hpos⟩
    exact { h.dec with widxBound := Nat.zero_le _, batchBound := hmax }
  · refine ⟨⟨h.memory, h.acq.congr rfl rfl, ?_⟩, rfl, nofun⟩
    have healthy := decReady_upIoErr hr
    exact { h.dec with
      causeCode := .inr (.inr (.inr rfl))
      exitCode := rfl
      eosCause := fun _ => rfl
      ioErrCause := fun herr => absurd (healthy.symm.trans herr) (by decide) }

/-- UNPK.GET keeps the invariant and the condition under which it is accepted
(41_bit_packer_unpacker.md R144). -/
theorem unpkBit_keepsInv {s t : State} {r : Option Bool} (h : MachineInv s) (hr : decReady s = true)
    (ht : unpkBit s = .done r t) : MachineInv t ∧ decReady t = true := by
  rcases unpkBit_done ht with ⟨-, -, rfl⟩ | ⟨-, -, htake⟩ | ⟨-, -, hne, htake⟩ |
    ⟨-, -, -, ⟨u, hfill, htake⟩ | ⟨hend, -⟩⟩
  · exact ⟨h, hr⟩
  · exact (unpkTakeBit_keepsInv h htake).imp_right (·.trans hr)
  · have next := unpkNextWord_keepsInv h (Nat.lt_of_le_of_ne h.dec.widxBound hne)
    exact (unpkTakeBit_keepsInv next htake).imp_right (·.trans hr)
  · obtain ⟨hu, hru, hlt⟩ := unpkRefill_keepsInv h hr hfill
    exact (unpkTakeBit_keepsInv (unpkNextWord_keepsInv hu (hlt rfl)) htake).imp_right
      (·.trans (hru.trans hr))
  · obtain ⟨hu, hru, -⟩ := unpkRefill_keepsInv h hr hend
    exact ⟨hu, hru.trans hr⟩

/-- The exit sequence puts the cause beside the IO_ERR flag that UNPK.GET has raised, once no DEC.RUN is in
progress (60_exceptions.md R223, R232). -/
theorem unpkBit_raised_keepsInv {s t : State} {c : Cause} (h : MachineInv s)
    (ht : unpkBit s = .raised c t) :
    t.dec.run = s.dec.run ∧ MachineInv (exitDec c (endDecRun t)) := by
  obtain ⟨hlive, -, -, hfill⟩ := unpkBit_raised ht
  obtain ⟨rfl, -, rfl⟩ := unpkRefill_raised hfill
  refine ⟨rfl, h.memory, h.acq.congr rfl rfl, ?_⟩
  exact { h.dec with
    runReady := fun hrun => absurd rfl hrun
    causeCode := .inr (.inr (.inl rfl))
    exitCode := rfl
    eosCause := fun heos => absurd (hlive.symm.trans heos) (by decide)
    ioErrCause := fun _ => rfl }

/-! ### The commands of the DEC unit -/

/-- A DEC.RUN is in progress only in a unit that accepts it (45_decode_driver.md R212). -/
theorem MachineInv.withDecRun {s : State} (h : MachineInv s) {r : DecRun}
    (hr : r ≠ .idle → decReady s = true) : MachineInv { s with dec := { s.dec with run := r } } :=
  ⟨h.memory, h.acq.congr rfl rfl, { h.dec with runReady := hr }⟩

theorem endDecRun_of_idle {s : State} (h : s.dec.run = .idle) : endDecRun s = s := by
  unfold endDecRun
  rw [← h]

/-- The port gives a unit no UNPK.GET while a DEC.RUN is in progress, so an error of the source leaves no
run behind (93_implementation_defined.md U15). -/
theorem execUnpkGet_keepsInv {s t : State} (h : MachineInv s) (hidle : s.dec.run = .idle)
    (hs : execUnpkGet s = .next t) : MachineInv t := by
  unfold execUnpkGet at hs
  split_ifs at hs with hr
  · rcases settleDec_eq_next.mp hs with ⟨r, u, hu, rfl⟩ | ⟨c, u, hu, rfl⟩
    · cases r <;> exact (unpkBit_keepsInv h hr hu).1.respond _ _
    · obtain ⟨hrun, hexit⟩ := unpkBit_raised_keepsInv h hu
      rwa [endDecRun_of_idle (hrun.trans hidle)] at hexit
  · exact refuseInState_keepsInv h hs

theorem execDecBit_keepsInv {b : Bool} {s t : State} (h : MachineInv s) (hs : execDecBit b s = .next t) :
    MachineInv t := by
  unfold execDecBit at hs
  split_ifs at hs
  · rcases settleDec_eq_next.mp hs with ⟨ev, u, hu, rfl⟩ | ⟨c, u, hu, -⟩
    · exact (decodeBit_keepsInv h hu).1.respond _ _
    · exact absurd hu (decodeBit_not_raised _ _ _ _)
  · exact refuseInState_keepsInv h hs

theorem decRunFetch_keepsInv {s t : State} (h : MachineInv s) (hr : decReady s = true)
    (hs : decRunFetch s = .next t) : MachineInv t := by
  rcases decRunFetch_eq_next.mp hs with ⟨r, u, hu, rfl⟩ | ⟨c, u, hu, rfl⟩
  · obtain ⟨hinv, hready⟩ := unpkBit_keepsInv h hr hu
    cases r with
    | some b => exact hinv.withDecRun fun _ => hready
    | none => exact (hinv.withDecRun fun hrun => absurd rfl hrun).respond _ _
  · exact (unpkBit_raised_keepsInv h hu).2

theorem decRunBit_keepsInv {b : Bool} {s t : State} (h : MachineInv s) (hr : decReady s = true)
    (hs : decRunBit b s = .next t) : MachineInv t := by
  rcases settleDec_eq_next.mp hs with ⟨ev, u, hu, rfl⟩ | ⟨c, u, hu, -⟩
  · obtain ⟨hinv, hready⟩ := decodeBit_keepsInv h hu
    exact hinv.withDecRun fun _ => hready.trans hr
  · exact absurd hu (decodeBit_not_raised _ _ _ _)

theorem execDecRun_keepsInv {s t : State} (h : MachineInv s) (hs : execDecRun s = .next t) :
    MachineInv t := by
  unfold execDecRun at hs
  split_ifs at hs with hr
  · exact decRunFetch_keepsInv h hr hs
  · exact refuseInState_keepsInv h hs

theorem decRunTurn_keepsInv {s t : State} (h : MachineInv s) (hs : decRunTurn s = .next t) :
    MachineInv t := by
  unfold decRunTurn at hs
  split at hs
  case h_1 =>
    obtain rfl := Host.Outcome.next.inj hs
    exact h
  case h_2 hrun => exact decRunFetch_keepsInv h (h.dec.runReady (by simp [hrun])) hs
  case h_3 b hrun => exact decRunBit_keepsInv h (h.dec.runReady (by simp [hrun])) hs

/-! ### The registers after a reset -/

/-- The ACQ registers at reset meet the invariant, with a run in progress or without one
(10_state.md R43; log 14). -/
theorem AcqInv.afterReset (s : State) (r : Bool) :
    AcqInv { s with acq := { Acq.reset with runActive := r } } where
  lastReadAligned := rfl
  nbitsBelow := (by decide : 0 < 32)
  wordBelow := (by decide : (0 : Word).toNat < 2 ^ 0)
  batchRoom := id
  runningCfg := nofun
  causeStopped := by simp [Acq.reset]
  causeCode := nofun
  exitCode := rfl
  overrunGap := nofun

/-- The DEC registers at reset meet the invariant, if a DEC.RUN is in progress in a legal configuration only
(10_state.md R43; log 14). -/
theorem DecInv.afterReset (s : State) {r : DecRun} (hr : r ≠ .idle → decCfgOk s.cfg = true) :
    DecInv { s with dec := { Dec.reset with run := r } } where
  widxBound := le_rfl
  batchBound := Nat.zero_le _
  nleftBound := Nat.zero_le _
  runReady := hr
  causeCode := .inl rfl
  exitCode := rfl
  eosCause := nofun
  ioErrCause := nofun
  syncFields := by rintro f ⟨⟩ -; rfl
  window := nofun

theorem DecInv.runCfg {s : State} (h : DecInv s) (hrun : s.dec.run ≠ .idle) : decCfgOk s.cfg = true :=
  decReady_cfg (h.runReady hrun)

theorem execReset_keepsInv {s t : State} (h : MachineInv s) (hs : execReset s = .next t) :
    MachineInv t := by
  have acq := AcqInv.afterReset s s.acq.runActive
  have dec := DecInv.afterReset s h.dec.runCfg
  unfold execReset at hs
  dsimp only at hs
  split_ifs at hs
  all_goals
    obtain rfl := Host.Outcome.next.inj hs
    exact ⟨h.memory, acq.congr rfl rfl, dec.congr rfl rfl⟩

/-- CFG_ERR is raised in an illegal configuration, in which no DEC.RUN is in progress
(45_decode_driver.md R205; 60_exceptions.md R229). -/
theorem execDecReset_keepsInv {s t : State} (h : MachineInv s) (hs : execDecReset s = .next t) :
    MachineInv t := by
  have fresh := DecInv.afterReset s h.dec.runCfg
  unfold execDecReset at hs
  dsimp only at hs
  split_ifs at hs with hcfg
  · obtain rfl := Host.Outcome.next.inj hs
    exact ⟨h.memory, h.acq.congr rfl rfl, fresh.congr rfl rfl⟩
  · obtain rfl := Host.Outcome.next.inj hs
    exact ⟨h.memory, h.acq.congr rfl rfl, { fresh with
      causeCode := .inr (.inl rfl)
      exitCode := rfl
      eosCause := nofun
      ioErrCause := nofun }⟩

/-! ### The step -/

theorem execRdsr_keepsInv {n : Byte} {s t : State} (h : MachineInv s) (hs : execRdsr n s = .next t) :
    MachineInv t := by
  unfold execRdsr at hs
  split at hs
  all_goals
    obtain rfl := Host.Outcome.next.inj hs
    exact h.respond _ _

/-- Every command that the port does not hold back keeps the invariant (30_encoding.md R91). -/
theorem exec_keepsInv {i : Instr} {s t : State} (h : MachineInv s) (hb : heldBack i s = false)
    (hs : exec i s = .next t) : MachineInv t := by
  cases i with
  | reset => exact execReset_keepsInv h hs
  | acqInit => exact execAcqInit_keepsInv h hs
  | acqPoll => exact execAcqPoll_keepsInv h hs
  | acqCancel => exact execAcqCancel_keepsInv h hs
  | acqStop => exact execAcqStop_keepsInv h hs
  | acqRun => exact execAcqRun_keepsInv h hs
  | packAdd b => exact packerCommand_keepsInv h (packBit_keepsInv b h) hs
  | packFlush => exact packerCommand_keepsInv h (packFlush_keepsInv h.emptied) hs
  | packClose => exact packerCommand_keepsInv h (packClose_keepsInv h) hs
  | unpkGet => exact execUnpkGet_keepsInv h (by simpa [heldBack] using hb) hs
  | decReset => exact execDecReset_keepsInv h hs
  | decBit b => exact execDecBit_keepsInv h hs
  | decRun => exact execDecRun_keepsInv h hs
  | rdsr n => exact execRdsr_keepsInv h hs

/-- What is left on the port does not hold a command back. -/
theorem heldBack_withPort (i : Instr) (s : State) (p : Port) :
    heldBack i { s with port := p } = heldBack i s := by
  cases i <;> rfl

theorem step_keepsInv {s t : State} (h : MachineInv s) (hs : step s = .next t) : MachineInv t := by
  unfold step at hs
  rcases nextTurn_spec s with ⟨p, -, hturn | ⟨hturn, -⟩ | hturn⟩ |
    ⟨w, rest, -, ⟨e, -, hturn⟩ | ⟨i, -, hfree, hturn⟩⟩
  all_goals rw [hturn] at hs
  · obtain rfl := Host.Outcome.next.inj hs
    exact h.withPort p
  · exact acqRunTurn_keepsInv (h.withPort p) hs
  · exact decRunTurn_keepsInv (h.withPort p) hs
  · obtain rfl := Host.Outcome.next.inj hs
    exact (h.withPort _).respond _ _
  · exact exec_keepsInv (h.withPort _) ((heldBack_withPort i s _).trans hfree) hs

/-- Settles O56, by cases on the turn that the step takes: each command, and each step of a run, keeps the
invariant of the whole machine. -/
theorem stepKeepsInvariant : Obligations.StepKeepsInvariant :=
  fun _ _ => step_keepsInv

end Sys2Proof.Machine

/-! The register file (statements O12, O54, O55, O58, O59, O60): what the commands of each unit leave alone,
what a STOPPED unit still does, what RDSR reads, and the reset state. -/

namespace Sys2Proof.Machine

/-! ### What a unit leaves alone -/

/-- What every command of the ACQ unit leaves alone: the configuration, the DEC registers, and the two streams
of the DEC unit (10_state.md R20, R40; 30_encoding.md R91). -/
structure AcqUnitFrame (s t : State) : Prop where
  cfg : t.cfg = s.cfg
  dec : t.dec = s.dec
  output : t.env.output = s.env.output
  sourceTape : t.env.sourceTape = s.env.sourceTape

/-- What every command of the DEC unit leaves alone: the configuration, the ACQ registers, and all of the
environment but its own two streams and the trace of accesses (10_state.md R20, R40; 30_encoding.md R91). -/
structure DecUnitFrame (s t : State) : Prop where
  cfg : t.cfg = s.cfg
  acq : t.acq = s.acq
  env : t.env = { s.env with
    output := t.env.output, sourceTape := t.env.sourceTape, trace := t.env.trace }

theorem AcqUnitFrame.refl (s : State) : AcqUnitFrame s s := ⟨rfl, rfl, rfl, rfl⟩

theorem AcqUnitFrame.trans {s t u : State} (h : AcqUnitFrame s t) (h' : AcqUnitFrame t u) :
    AcqUnitFrame s u :=
  ⟨h'.cfg.trans h.cfg, h'.dec.trans h.dec, h'.output.trans h.output, h'.sourceTape.trans h.sourceTape⟩

/-- Any change of the ACQ registers stays inside the unit. -/
theorem AcqUnitFrame.withAcq (s : State) (a : Acq) : AcqUnitFrame s { s with acq := a } :=
  ⟨rfl, rfl, rfl, rfl⟩

theorem AcqUnitFrame.respond (s : State) (rc : RespCode) (v : Word) : AcqUnitFrame s (s.respond rc v) :=
  ⟨rfl, rfl, rfl, rfl⟩

theorem DecUnitFrame.refl (s : State) : DecUnitFrame s s := ⟨rfl, rfl, rfl⟩

theorem DecUnitFrame.trans {s t u : State} (h : DecUnitFrame s t) (h' : DecUnitFrame t u) :
    DecUnitFrame s u :=
  ⟨h'.cfg.trans h.cfg, h'.acq.trans h.acq, by rw [h'.env, h.env]⟩

/-- Any change of the DEC registers stays inside the unit. -/
theorem DecUnitFrame.withDec (s : State) (d : Dec) : DecUnitFrame s { s with dec := d } :=
  ⟨rfl, rfl, rfl⟩

theorem DecUnitFrame.respond (s : State) (rc : RespCode) (v : Word) : DecUnitFrame s (s.respond rc v) :=
  ⟨rfl, rfl, rfl⟩

/-! ### The ACQ unit -/

theorem PollFrame.acqUnit {s t : State} (h : PollFrame s t) : AcqUnitFrame s t :=
  ⟨h.cfg, h.dec, by rw [h.env], by rw [h.env]⟩

theorem DataFrame.acqUnit {s t : State} (h : DataFrame s t) : AcqUnitFrame s t :=
  h.pollFrame.acqUnit

/-- A micro-operation stays inside the ACQ unit, done or raised. -/
def Micro.InAcqUnit {α : Type} (s : State) (m : Micro α) : Prop :=
  m.Post (fun _ => AcqUnitFrame s) (fun _ => AcqUnitFrame s)

theorem packFlush_acqUnit (s : State) : (packFlush s).InAcqUnit s :=
  (packFlush_frame s).mono (fun _ _ h => h.acqUnit) (fun _ _ h => h.2.acqUnit)

theorem packBit_acqUnit (b : Bool) (s : State) : (packBit b s).InAcqUnit s :=
  (packBit_frame b s).mono (fun _ _ h => h.acqUnit) (fun _ _ h => h.2.acqUnit)

theorem packClose_acqUnit (s : State) : (packClose s).InAcqUnit s :=
  (packFlush_acqUnit s).bind fun _ u hu => hu.trans (.withAcq u _)

theorem poll_acqUnit (s : State) : (poll s).InAcqUnit s :=
  (poll_frame s).mono (fun _ _ h => h.acqUnit) (fun _ _ h => h.2.acqUnit)

theorem leaveAcq_acqUnit (c : Cause) (s : State) : AcqUnitFrame s (leaveAcq c s) := by
  refine ⟨leaveAcq_cfg c s, leaveAcq_dec c s, ?_, ?_⟩
  all_goals
    rw [leaveAcq_env]
    split_ifs <;> rfl

/-- The exit sequence of the ACQ unit stays inside it (60_exceptions.md R232). -/
theorem exitAcq_acqUnit {c : Cause} {s t : State} (hs : exitAcq c s = .next t) : AcqUnitFrame s t := by
  have close := packClose_acqUnit s
  rcases exitAcq_spec hs with ⟨-, ⟨u, hu, rfl⟩ | ⟨u, hu, rfl⟩⟩ | ⟨-, -, rfl⟩
  · rw [hu] at close
    exact AcqUnitFrame.trans close (leaveAcq_acqUnit c u)
  · rw [hu] at close
    exact AcqUnitFrame.trans close (leaveAcq_acqUnit .ioErr u)
  · exact leaveAcq_acqUnit c s

theorem refuseInState_acqUnit {s t : State} (hs : refuseInState s = .next t) : AcqUnitFrame s t := by
  obtain rfl := Host.Outcome.next.inj hs
  exact .respond s _ _

/-- An ACQ command stays inside its unit when its micro-operations and its ending do. -/
theorem settleAcq_acqUnit {α : Type} {m : Micro α} {k : α → State → State} {s t : State}
    (hm : m.InAcqUnit s) (hk : ∀ a u, AcqUnitFrame u (k a u)) (hs : settleAcq m k = .next t) :
    AcqUnitFrame s t := by
  rcases settleAcq_eq_next.mp hs with ⟨a, u, rfl, rfl⟩ | ⟨c, u, rfl, hexit⟩
  · exact AcqUnitFrame.trans hm (hk a u)
  · exact AcqUnitFrame.trans hm (exitAcq_acqUnit hexit)

theorem packerCommand_acqUnit {m : State → Micro Unit} {s t : State} (hm : (m s).InAcqUnit s)
    (hs : packerCommand m s = .next t) : AcqUnitFrame s t := by
  unfold packerCommand at hs
  split_ifs at hs
  · exact refuseInState_acqUnit hs
  · exact settleAcq_acqUnit hm (fun _ u => .respond u _ _) hs

/-- The accesses of ACQ.INIT stay inside the unit (42_acquisition_loop.md R160). -/
theorem programProducer_acqUnit (s : State) : AcqUnitFrame s (programProducer s) :=
  ⟨programProducer_cfg s, programProducer_dec s, by simp [programProducer], by simp [programProducer]⟩

theorem execAcqInit_acqUnit {s t : State} (hs : execAcqInit s = .next t) : AcqUnitFrame s t := by
  unfold execAcqInit at hs
  split_ifs at hs
  · obtain rfl := Host.Outcome.next.inj hs
    have programmed := (AcqUnitFrame.withAcq s (clearForInit s.acq)).trans (programProducer_acqUnit _)
    exact (programmed.trans (.withAcq _ _)).trans (.respond _ .ok 0)
  · exact (AcqUnitFrame.withAcq s _).trans (exitAcq_acqUnit hs)
  · exact refuseInState_acqUnit hs

theorem execAcqPoll_acqUnit {s t : State} (hs : execAcqPoll s = .next t) : AcqUnitFrame s t := by
  unfold execAcqPoll at hs
  split_ifs at hs
  · exact settleAcq_acqUnit (poll_acqUnit s) (fun _ u => .respond u _ _) hs
  · exact refuseInState_acqUnit hs

theorem execAcqCancel_acqUnit {s t : State} (hs : execAcqCancel s = .next t) : AcqUnitFrame s t := by
  obtain rfl := Host.Outcome.next.inj hs
  exact ⟨rfl, rfl, rfl, rfl⟩

theorem execAcqStop_acqUnit {s t : State} (hs : execAcqStop s = .next t) : AcqUnitFrame s t := by
  unfold execAcqStop at hs
  split_ifs at hs
  · exact (AcqUnitFrame.withAcq s _).trans (exitAcq_acqUnit hs)
  · exact refuseInState_acqUnit hs

theorem acqRunPoll_acqUnit {s t : State} (hs : acqRunPoll s = .next t) : AcqUnitFrame s t := by
  have hpoll := poll_acqUnit s
  rcases acqRunPoll_eq_next.mp hs with ⟨n, u, hu, rfl⟩ | ⟨c, u, hu, hexit⟩
  · rw [hu] at hpoll
    exact AcqUnitFrame.trans hpoll (.withAcq u _)
  · rw [hu] at hpoll
    exact (AcqUnitFrame.trans hpoll (.withAcq u _)).trans (exitAcq_acqUnit hexit)

theorem execAcqRun_acqUnit {s t : State} (hs : execAcqRun s = .next t) : AcqUnitFrame s t := by
  unfold execAcqRun at hs
  split_ifs at hs
  · exact acqRunPoll_acqUnit hs
  · exact refuseInState_acqUnit hs

theorem acqRunTurn_acqUnit {s t : State} (hs : acqRunTurn s = .next t) : AcqUnitFrame s t := by
  unfold acqRunTurn at hs
  split_ifs at hs
  · exact acqRunPoll_acqUnit hs
  · obtain rfl := Host.Outcome.next.inj hs
    exact .refl s

/-- Every command that addresses the ACQ unit stays inside it (30_encoding.md R91). -/
theorem exec_acqUnit {i : Instr} {s t : State} (ha : addressesAcq i = true) (hs : exec i s = .next t) :
    AcqUnitFrame s t := by
  cases i with
  | acqInit => exact execAcqInit_acqUnit hs
  | acqPoll => exact execAcqPoll_acqUnit hs
  | acqCancel => exact execAcqCancel_acqUnit hs
  | acqStop => exact execAcqStop_acqUnit hs
  | acqRun => exact execAcqRun_acqUnit hs
  | packAdd b => exact packerCommand_acqUnit (packBit_acqUnit b s) hs
  | packFlush => exact packerCommand_acqUnit (packFlush_acqUnit s) hs
  | packClose => exact packerCommand_acqUnit (packClose_acqUnit s) hs
  | reset | unpkGet | decReset | decBit _ | decRun | rdsr _ => exact absurd ha Bool.false_ne_true

/-! ### The DEC unit -/

/-- A micro-operation stays inside the DEC unit, done or raised. -/
def Micro.InDecUnit {α : Type} (s : State) (m : Micro α) : Prop :=
  m.Post (fun _ => DecUnitFrame s) (fun _ => DecUnitFrame s)

theorem unpkRefill_decUnit (s : State) : (unpkRefill s).InDecUnit s := by
  cases hr : unpkRefill s with
  | done more t =>
    rcases unpkRefill_done hr with ⟨ws, -, -, -, -, rfl⟩ | ⟨-, -, rfl⟩
    all_goals exact ⟨rfl, rfl, rfl⟩
  | raised c t =>
    obtain ⟨-, -, rfl⟩ := unpkRefill_raised hr
    exact ⟨rfl, rfl, rfl⟩
  | fault r => trivial
  | refused r => trivial

theorem unpkTakeBit_decUnit (s : State) : (unpkTakeBit s).InDecUnit s := DecUnitFrame.withDec s _

/-- Taking the next buffered word and its first bit stays inside the unit (41_bit_packer_unpacker.md R144). -/
theorem unpkTakeNext_decUnit (s : State) : (unpkTakeBit (unpkNextWord s)).InDecUnit s :=
  (DecUnitFrame.withDec s _).trans (unpkTakeBit_decUnit (unpkNextWord s))

theorem unpkBit_decUnit (s : State) : (unpkBit s).InDecUnit s := by
  unfold unpkBit
  split_ifs
  · exact DecUnitFrame.refl s
  · refine (unpkRefill_decUnit s).bind fun more u hu => ?_
    split_ifs
    · exact hu.trans (unpkTakeNext_decUnit u)
    · exact hu
  · exact unpkTakeNext_decUnit s
  · exact unpkTakeBit_decUnit s

theorem syncBit_decUnit (f : SyncFields) (b : Bool) (off : DWord) (s : State) :
    (syncBit f b off s).InDecUnit s := by
  cases hb : syncBit f b off s with
  | done ev t =>
    rcases syncBit_done hb with ⟨-, -, -, -, -, -, rfl⟩ | ⟨-, -, rfl⟩
    all_goals exact .withDec s _
  | raised c t => exact absurd hb (syncBit_not_raised _ _ _ _ _ _)
  | fault r => trivial
  | refused r => trivial

theorem frmBit_decUnit (f : DecodeFields) (b : Bool) (s : State) : (frmBit f b s).InDecUnit s := by
  obtain ⟨ev, t, hb⟩ := frmBit_is_done f b s
  rw [hb]
  rcases frmBit_done hb with ⟨-, -, rfl⟩ | ⟨-, -, -, rfl⟩ | ⟨x, j, -, -, -, rfl⟩ | ⟨x, -, -, -, rfl⟩
  all_goals exact ⟨rfl, rfl, rfl⟩

theorem decodeBit_decUnit (b : Bool) (s : State) : (decodeBit b s).InDecUnit s := by
  have counted : ∀ {m : Micro DecEvent},
      m.InDecUnit { s with dec := { s.dec with bitOffset := s.dec.bitOffset + 1 } } → m.InDecUnit s :=
    fun h => h.mono (fun _ _ hu => (DecUnitFrame.withDec s _).trans hu)
      (fun _ _ hu => (DecUnitFrame.withDec s _).trans hu)
  unfold decodeBit
  dsimp only
  split
  case h_1 f _ => exact counted (syncBit_decUnit f b _ _)
  case h_2 f _ => exact counted (frmBit_decUnit f b _)

theorem exitDec_decUnit (c : Cause) (s : State) : DecUnitFrame s (exitDec c s) := ⟨rfl, rfl, rfl⟩

theorem refuseInState_decUnit {s t : State} (hs : refuseInState s = .next t) : DecUnitFrame s t := by
  obtain rfl := Host.Outcome.next.inj hs
  exact .respond s _ _

/-- A DEC command stays inside its unit when its micro-operations and its ending do. -/
theorem settleDec_decUnit {α : Type} {m : Micro α} {k : α → State → State} {s t : State}
    (hm : m.InDecUnit s) (hk : ∀ a u, DecUnitFrame u (k a u)) (hs : settleDec m k = .next t) :
    DecUnitFrame s t := by
  rcases settleDec_eq_next.mp hs with ⟨a, u, rfl, rfl⟩ | ⟨c, u, rfl, rfl⟩
  · exact DecUnitFrame.trans hm (hk a u)
  · exact DecUnitFrame.trans hm (exitDec_decUnit c u)

theorem respondBit_decUnit (r : Option Bool) (s : State) : DecUnitFrame s (respondBit r s) := by
  cases r <;> exact .respond s _ _

theorem decRunGot_decUnit (r : Option Bool) (s : State) : DecUnitFrame s (decRunGot r s) := by
  cases r with
  | none => exact ⟨rfl, rfl, rfl⟩
  | some b => exact .withDec s _

theorem execUnpkGet_decUnit {s t : State} (hs : execUnpkGet s = .next t) : DecUnitFrame s t := by
  unfold execUnpkGet at hs
  split_ifs at hs
  · exact settleDec_decUnit (unpkBit_decUnit s) respondBit_decUnit hs
  · exact refuseInState_decUnit hs

theorem execDecReset_decUnit {s t : State} (hs : execDecReset s = .next t) : DecUnitFrame s t := by
  unfold execDecReset at hs
  dsimp only at hs
  split_ifs at hs
  all_goals
    obtain rfl := Host.Outcome.next.inj hs
    exact ⟨rfl, rfl, rfl⟩

theorem execDecBit_decUnit {b : Bool} {s t : State} (hs : execDecBit b s = .next t) :
    DecUnitFrame s t := by
  unfold execDecBit at hs
  split_ifs at hs
  · exact settleDec_decUnit (decodeBit_decUnit b s) (fun _ u => .respond u _ _) hs
  · exact refuseInState_decUnit hs

theorem decRunFetch_decUnit {s t : State} (hs : decRunFetch s = .next t) : DecUnitFrame s t := by
  have hget := unpkBit_decUnit s
  rcases decRunFetch_eq_next.mp hs with ⟨r, u, hu, rfl⟩ | ⟨c, u, hu, rfl⟩
  · rw [hu] at hget
    exact DecUnitFrame.trans hget (decRunGot_decUnit r u)
  · rw [hu] at hget
    exact (DecUnitFrame.trans hget (.withDec u _)).trans (exitDec_decUnit c _)

theorem execDecRun_decUnit {s t : State} (hs : execDecRun s = .next t) : DecUnitFrame s t := by
  unfold execDecRun at hs
  split_ifs at hs
  · exact decRunFetch_decUnit hs
  · exact refuseInState_decUnit hs

theorem decRunTurn_decUnit {s t : State} (hs : decRunTurn s = .next t) : DecUnitFrame s t := by
  unfold decRunTurn at hs
  split at hs
  case h_1 =>
    obtain rfl := Host.Outcome.next.inj hs
    exact .refl s
  case h_2 => exact decRunFetch_decUnit hs
  case h_3 b _ => exact settleDec_decUnit (decodeBit_decUnit b s) (fun _ u => .withDec u _) hs

/-! ### What RDSR reads -/

/-- RDSR of a listed number answers the content of its register (45_decode_driver.md R215). -/
theorem exec_rdsr_listed {n : Byte} {r : StatusReg} (hn : statusReg? n = some r) (s : State) :
    exec (.rdsr n) s = .next (s.respond .ok (statusContent s r)) := by
  simp only [exec, execRdsr, statusRegister, hn, Option.map_some]

/-- RDSR of an unlisted number is an illegal command (30_encoding.md R93). -/
theorem exec_rdsr_unlisted {n : Byte} (hn : statusReg? n = none) (s : State) :
    exec (.rdsr n) s = .next (s.respond .illegal 0) := by
  simp only [exec, execRdsr, statusRegister, hn, Option.map_none]

/-- RDSR responds, and does nothing else. -/
theorem exec_rdsr_responds {n : Byte} {s t : State} (hs : exec (.rdsr n) s = .next t) :
    ∃ rc v, t = s.respond rc v := by
  cases hn : statusReg? n with
  | some r => exact ⟨_, _, Host.Outcome.next.inj (hs.symm.trans (exec_rdsr_listed hn s))⟩
  | none => exact ⟨_, _, Host.Outcome.next.inj (hs.symm.trans (exec_rdsr_unlisted hn s))⟩

/-! ### Every command -/

/-- Every command but RESET that does not address the ACQ unit, RDSR among them, stays inside the DEC unit
(30_encoding.md R91). -/
theorem exec_decUnit {i : Instr} {s t : State} (ha : addressesAcq i = false) (hne : i ≠ .reset)
    (hs : exec i s = .next t) : DecUnitFrame s t := by
  cases i with
  | unpkGet => exact execUnpkGet_decUnit hs
  | decReset => exact execDecReset_decUnit hs
  | decBit b => exact execDecBit_decUnit hs
  | decRun => exact execDecRun_decUnit hs
  | rdsr n =>
    obtain ⟨rc, v, rfl⟩ := exec_rdsr_responds hs
    exact .respond s rc v
  | reset => exact absurd rfl hne
  | acqInit | acqPoll | acqCancel | acqStop | acqRun | packAdd _ | packFlush | packClose =>
    exact absurd ha.symm Bool.false_ne_true

theorem execReset_cfg {s t : State} (hs : execReset s = .next t) : t.cfg = s.cfg := by
  unfold execReset at hs
  dsimp only at hs
  split_ifs at hs
  all_goals
    obtain rfl := Host.Outcome.next.inj hs
    rfl

/-- No command writes a configuration register (10_state.md R40). -/
theorem exec_cfg {i : Instr} {s t : State} (hs : exec i s = .next t) : t.cfg = s.cfg := by
  by_cases hreset : i = .reset
  · subst hreset
    exact execReset_cfg hs
  · cases ha : addressesAcq i with
    | true => exact (exec_acqUnit ha hs).cfg
    | false => exact (exec_decUnit ha hreset hs).cfg

/-- Settles O58, by cases on the turn that the step takes: a command, or a step of a run of one of the units. -/
theorem configurationIsConstant : Obligations.ConfigurationIsConstant := by
  intro s t hs
  unfold step at hs
  rcases nextTurn_spec s with ⟨p, -, hturn | ⟨hturn, -⟩ | hturn⟩ |
    ⟨w, rest, -, ⟨e, -, hturn⟩ | ⟨i, -, -, hturn⟩⟩
  all_goals
    rw [hturn] at hs
    dsimp only at hs
  · obtain rfl := Host.Outcome.next.inj hs
    rfl
  · exact (acqRunTurn_acqUnit hs).cfg
  · exact (decRunTurn_decUnit hs).cfg
  · obtain rfl := Host.Outcome.next.inj hs
    rfl
  · have kept := exec_cfg hs
    exact kept

/-- The commands of the ACQ unit (30_encoding.md R91). -/
theorem addressesAcq_iff {i : Instr} :
    addressesAcq i = true ↔
      i ∈ [.acqInit, .acqPoll, .acqCancel, .acqStop, .acqRun, .packFlush, .packClose] ∨
        ∃ b, i = .packAdd b := by
  cases i <;> simp [addressesAcq]

/-- RESET apart, the other commands are those of the DEC unit and RDSR (30_encoding.md R91). -/
theorem not_addressesAcq_iff {i : Instr} :
    addressesAcq i = false ∧ i ≠ .reset ↔
      i ∈ [.unpkGet, .decReset, .decRun] ∨ (∃ b, i = .decBit b) ∨ ∃ n, i = .rdsr n := by
  cases i <;> simp [addressesAcq]

/-- Settles O59: a command of a unit keeps that unit's frame, and RDSR, which only responds, keeps both. -/
theorem unitsShareNoRegister : Obligations.UnitsShareNoRegister := by
  intro i s t hs
  constructor
  · intro hi
    have frame : AcqUnitFrame s t := by
      rcases or_assoc.mpr hi with hunit | ⟨n, rfl⟩
      · exact exec_acqUnit (addressesAcq_iff.mpr hunit) hs
      · obtain ⟨rc, v, rfl⟩ := exec_rdsr_responds hs
        exact .respond s rc v
    exact ⟨frame.dec, frame.output, frame.sourceTape⟩
  · intro hi
    obtain ⟨ha, hreset⟩ := not_addressesAcq_iff.mpr hi
    have frame := exec_decUnit ha hreset hs
    rw [frame.env]
    exact ⟨frame.acq, rfl, rfl, rfl, rfl, rfl, rfl⟩

/-! ### STOPPED -/

/-- A STOPPED unit refuses each of its commands but ACQ.CANCEL (30_encoding.md R94; 60_exceptions.md R234). -/
theorem exec_refused_of_stopped {i : Instr} {s : State} (hstopped : s.acq.acqState = .stopped)
    (ha : addressesAcq i = true) (hne : i ≠ .acqCancel) : exec i s = refuseInState s := by
  cases i with
  | acqCancel => exact absurd rfl hne
  | acqInit => exact if_neg (by simp [hstopped])
  | acqPoll => exact if_neg (by simp [hstopped])
  | acqStop => exact if_neg (by simp [hstopped])
  | acqRun => exact if_neg (by simp [hstopped])
  | packAdd b => exact if_pos hstopped
  | packFlush => exact if_pos hstopped
  | packClose => exact if_pos hstopped
  | reset | unpkGet | decReset | decBit _ | decRun | rdsr _ => exact absurd ha Bool.false_ne_true

/-- In STOPPED no command but RESET and ACQ.CANCEL changes an ACQ register (10_state.md R21). -/
theorem exec_acq_of_stopped {i : Instr} {s t : State} (hstopped : s.acq.acqState = .stopped)
    (hreset : i ≠ .reset) (hcancel : i ≠ .acqCancel) (hs : exec i s = .next t) : t.acq = s.acq := by
  cases ha : addressesAcq i with
  | true =>
    rw [exec_refused_of_stopped hstopped ha hcancel] at hs
    obtain rfl := Host.Outcome.next.inj hs
    rfl
  | false => exact (exec_decUnit ha hreset hs).acq

/-- Settles O60: ACQ.CANCEL sets `cancel`, and the unit refuses its other commands. -/
theorem onlyResetLeavesStopped : Obligations.OnlyResetLeavesStopped := by
  intro i s t hstopped hreset hs
  by_cases hcancel : i = .acqCancel
  · subst hcancel
    obtain rfl := Host.Outcome.next.inj hs
    exact ⟨rfl, fun hne => absurd rfl hne⟩
  · have kept := exec_acq_of_stopped hstopped hreset hcancel hs
    exact ⟨by rw [kept], fun _ => kept⟩

/-! ### The status register map -/

/-- Every row of the map is found by its number: the numbers are distinct (10_state.md R41). -/
theorem statusReg?_of_mem : ∀ row ∈ statusRegTable, statusReg? row.1 = some row.2 := by decide

/-- A number of no row is unlisted. -/
theorem statusReg?_eq_none {n : Byte} (hn : n ∉ statusRegTable.map Prod.fst) : statusReg? n = none := by
  refine List.lookup_eq_none_iff.mpr fun row hrow => ?_
  rw [bne_iff_ne]
  rintro rfl
  exact hn (List.mem_map_of_mem hrow)

/-- The value of two fields of a status word: the upper one weighs `2 ^ m` above a lower one of `m` bits. -/
theorem toNat_append_fields {n m : Nat} (x : BitVec n) (y : BitVec m) :
    (x ++ y).toNat = 2 ^ m * x.toNat + y.toNat := by
  rw [BitVec.toNat_append, ← Nat.shiftLeft_add_eq_or_of_lt y.isLt, Nat.shiftLeft_eq, Nat.mul_comm]

theorem lowHalf_eq (d : DWord) : lowHalf d = BitVec.ofNat 32 d.toNat := by
  apply BitVec.eq_of_toNat_eq
  simp [lowHalf]

theorem highHalf_eq (d : DWord) : highHalf d = BitVec.ofNat 32 (d.toNat / 2 ^ 32) := by
  apply BitVec.eq_of_toNat_eq
  simp [highHalf, Nat.shiftRight_eq_div_pow]

theorem acqFlags_eq (a : Acq) :
    acqFlags a = BitVec.ofNat 32 (a.fOverrun.toNat + 2 * a.fIoErr.toNat + 4 * a.fCfgErr.toNat +
      8 * a.fCancelled.toNat + 16 * a.fVerifyErr.toNat + 32 * a.cancel.toNat) := by
  have bit := Bool.toNat_lt
  have := bit a.fOverrun; have := bit a.fIoErr; have := bit a.fCfgErr
  have := bit a.fCancelled; have := bit a.fVerifyErr; have := bit a.cancel
  apply BitVec.eq_of_toNat_eq
  simp only [acqFlags, toNat_append_fields, BitVec.toNat_ofBool, BitVec.toNat_ofNat]
  omega

theorem causeWord_eq (c : Cause) (x : Byte) :
    causeWord c x = BitVec.ofNat 32 (c.code.toNat + 256 * x.toNat) := by
  have := c.code.isLt
  have := x.isLt
  apply BitVec.eq_of_toNat_eq
  simp only [causeWord, toNat_append_fields, BitVec.toNat_ofNat]
  omega

theorem pkFill_eq (a : Acq) :
    pkFill a = BitVec.ofNat 32 (a.pkNbits % 64 + 256 * a.pkBatch.length) := by
  apply BitVec.eq_of_toNat_eq
  simp only [pkFill, Acq.pkNwords, toNat_append_fields, BitVec.toNat_ofNat]
  omega

theorem decCauseWord_eq (d : Dec) :
    decCauseWord d = BitVec.ofNat 32 (d.decCause.code.toNat + 256 * d.decExit.toNat +
      65536 * d.upEos.toNat + 131072 * d.upIoErr.toNat) := by
  have := d.decCause.code.isLt
  have := d.decExit.isLt
  have := Bool.toNat_lt d.upEos
  have := Bool.toNat_lt d.upIoErr
  apply BitVec.eq_of_toNat_eq
  simp only [decCauseWord, toNat_append_fields, BitVec.toNat_ofBool, BitVec.toNat_ofNat]
  omega

theorem testModeCode_eq (b : Bool) : testModeCode b = if b then 1 else 0 := by
  cases b <;> rfl

/-- RDSR over a written-out map, once the map is known to be the table with each register's content. -/
theorem exec_rdsr_of_map {s : State} {rows : List (Byte × Word)}
    (hrows : rows = statusRegTable.map fun row => (row.1, statusContent s row.2)) :
    (∀ p ∈ rows, exec (.rdsr p.1) s = .next (s.respond .ok p.2)) ∧
      ∀ n, n ∉ rows.map Prod.fst → exec (.rdsr n) s = .next (s.respond .illegal 0) := by
  subst hrows
  constructor
  · intro p hp
    obtain ⟨row, hrow, rfl⟩ := List.mem_map.mp hp
    exact exec_rdsr_listed (statusReg?_of_mem row hrow) s
  · intro n hn
    rw [List.map_map] at hn
    exact exec_rdsr_unlisted (statusReg?_eq_none hn) s

/-- Settles O54: the map that the statement writes out is the model's table with each register's content. -/
theorem statusRegisterMap : Obligations.StatusRegisterMap := by
  intro s lo hi inDecode fs code table
  have hcode : ∀ c : Cause, c.code.toNat = code c := by intro c; cases c <;> rfl
  refine exec_rdsr_of_map ?_
  cases hphase : s.dec.phase
  all_goals
    simp only [table, statusRegTable, List.map_append, List.map_cons, List.map_nil, statusContent, lo, hi,
      lowHalf_eq, highHalf_eq, acqFlags_eq, causeWord_eq, pkFill_eq, decCauseWord_eq, testModeCode_eq,
      hcode, fs, inDecode, hphase]
    rfl

/-! ### The reset state -/

/-- Settles O12: `State.reset` is written with these values (10_state.md R43). -/
theorem registersAtReset : Obligations.RegistersAtReset := ⟨rfl, rfl⟩

/-- Settles O55: both units are as after a RESET with no run in progress, and nothing is written in either
region. -/
theorem invariantAtReset : Obligations.InvariantAtReset where
  memory := ⟨Memory.wf_nil, Memory.wf_nil⟩
  acq := (AcqInv.afterReset State.reset false).congr rfl rfl
  dec := (DecInv.afterReset State.reset (r := .idle) fun hrun => absurd rfl hrun).congr rfl rfl

end Sys2Proof.Machine

/-! The memory interface (statements O14, O19, O20, O21, O27, O28, O33, O57): words of the two regions after a
write, the accesses of a poll with the producer's batches between them, and the stops of the streams. -/

namespace Sys2Proof.Machine

/-! ### Words of the two regions after a write -/

/-- A Sample reads as it was last written (20_memory.md R83(c)). -/
theorem sharedWord_written {e : Env} {m : Memory} {a : Nat} {v : Word}
    (h : e.shared = m.setWord a v) : sharedWord e a = v := by
  have hb := fun i hi => Memory.get?_setWord_byte m a v (i := i) hi
  have h0 := hb 0 (by omega)
  rw [Nat.add_zero] at h0
  unfold sharedWord sharedByte
  rw [h, h0, hb 1 (by omega), hb 2 (by omega), hb 3 (by omega)]
  exact wordOfBytes_byteOf v

/-- A write elsewhere in the shared region leaves a Sample alone. -/
theorem sharedWord_elsewhere {e e' : Env} {a o : Nat} {v : Word}
    (h : e.shared = e'.shared.setWord a v) (he : e.sharedEpoch = e'.sharedEpoch)
    (ho : o + 4 ≤ a ∨ a + 4 ≤ o) : sharedWord e o = sharedWord e' o := by
  unfold sharedWord sharedByte
  rw [h, he, Memory.get?_setWord_ne _ _ (by omega), Memory.get?_setWord_ne _ _ (by omega),
    Memory.get?_setWord_ne _ _ (by omega), Memory.get?_setWord_ne _ _ (by omega)]

/-- A control word depends on the region and its epoch only. -/
theorem ctrlValue_congr {cfg : Config} {e e' : Env} (w : CtrlWord) (h : e.ctrl = e'.ctrl)
    (he : e.ctrlEpoch = e'.ctrlEpoch) : ctrlValue cfg e w = ctrlValue cfg e' w := by
  unfold ctrlValue ctrlByte
  rw [h, he]

theorem ctrlByte_congr {e e' : Env} (a : Nat) (h : e.ctrl = e'.ctrl) (he : e.ctrlEpoch = e'.ctrlEpoch) :
    ctrlByte e a = ctrlByte e' a := by
  unfold ctrlByte
  rw [h, he]

/-- Two control words that lie apart share no byte (00_scope.md R7). -/
theorem ctrlLayoutOk.apart {cfg : Config} (h : ctrlLayoutOk cfg) {w w' : CtrlWord} (hne : w ≠ w') :
    ctrlOffset cfg w + 4 ≤ ctrlOffset cfg w' ∨ ctrlOffset cfg w' + 4 ≤ ctrlOffset cfg w := by
  obtain ⟨haligned, hdistinct⟩ := h
  have := haligned w
  have := haligned w'
  have := hdistinct w w' hne
  omega

/-- A legal CAPACITY is a multiple of 4, at most 2^31 (00_scope.md R7). -/
theorem acqCfgOk_capacity {cfg : Config} (h : acqCfgOk cfg = true) :
    4 ∣ capBytes cfg ∧ 4 ≤ capBytes cfg ∧ capBytes cfg ≤ 2 ^ 31 := by
  simp only [acqCfgOk, isPowerOfTwo, Bool.and_eq_true, decide_eq_true_eq, List.any_eq_true, beq_iff_eq] at h
  obtain ⟨⟨⟨⟨⟨⟨⟨⟨k, -, hpow⟩, hmin⟩, hmax⟩, -⟩, -⟩, -⟩, -⟩, -⟩ := h
  refine ⟨?_, hmin, hmax⟩
  have two_le : 2 ≤ k := by
    by_contra hk
    have := Nat.pow_le_pow_right (n := 2) (by decide) (show k ≤ 1 by omega)
    omega
  exact hpow ▸ Nat.pow_dvd_pow 2 two_le

/-- Settles O21: the written word's four bytes are the written ones, and every other aligned word lies apart
from them. -/
theorem readSeesLatestProducerWrite : Obligations.ReadSeesLatestProducerWrite := by
  intro cfg e v
  refine ⟨fun k => sharedWord_written rfl, fun k o hcfg ho hne => ?_, ctrlValue_written rfl,
    ctrlValue_written rfl, fun hl w => ⟨fun hw => ?_, fun hw => ?_⟩⟩
  · have hk : 4 * k % capBytes cfg % 4 = 4 * k % 4 := Nat.mod_mod_of_dvd _ (acqCfgOk_capacity hcfg).1
    exact sharedWord_elsewhere rfl rfl (by omega)
  · exact ctrlValue_elsewhere rfl rfl (hl.apart hw)
  · exact ctrlValue_elsewhere rfl rfl (hl.apart hw)

/-! ### The control region after ACQ.INIT -/

theorem ctrlValue_ctrlWrite_same {cfg : Config} {s : State} (hc : s.cfg = cfg) (w : CtrlWord) (v : Word) :
    ctrlValue cfg (ctrlWrite w v s).env w = v :=
  ctrlValue_written (hc ▸ ctrlWrite_env_ctrl w v s)

theorem ctrlValue_ctrlWrite_ne {cfg : Config} {s : State} (hc : s.cfg = cfg) (hl : ctrlLayoutOk cfg)
    {w w' : CtrlWord} (v : Word) (hne : w' ≠ w) :
    ctrlValue cfg (ctrlWrite w v s).env w' = ctrlValue cfg s.env w' :=
  ctrlValue_elsewhere (hc ▸ ctrlWrite_env_ctrl w v s) rfl (hl.apart hne)

theorem ctrlByte_ctrlWrite_outside {cfg : Config} {s : State} (hc : s.cfg = cfg) {w : CtrlWord} (v : Word)
    {a : Nat} (ha : a < ctrlOffset cfg w ∨ ctrlOffset cfg w + 4 ≤ a) :
    ctrlByte (ctrlWrite w v s).env a = ctrlByte s.env a := by
  unfold ctrlByte
  rw [ctrlWrite_env_ctrl, ctrlWrite_env_ctrlEpoch, hc, Memory.get?_setWord_ne _ _ ha]

/-- ProdReset leaves both counters at 0 (20_memory.md R78). -/
theorem ctrlValue_prodReset {s : State} (hl : ctrlLayoutOk s.cfg) :
    ctrlValue s.cfg (prodReset s).env .before = 0 ∧ ctrlValue s.cfg (prodReset s).env .after = 0 := by
  constructor
  · rw [ctrlValue_elsewhere (e' := { (prodReset s).env with
      ctrl := Memory.setWord [] (ctrlOffset s.cfg .before) 0 }) (prodReset_env_ctrl s) rfl
      (hl.apart (w := .before) (w' := .after) (by decide))]
    exact ctrlValue_written (m := []) rfl
  · exact ctrlValue_written (prodReset_env_ctrl s)

/-- The state in which ACQ.INIT has written BASE, SIZE and CHOKE (42_acquisition_loop.md R160). -/
def ctrlProgrammed (s : State) : State :=
  ctrlWrite .choke s.cfg.choke
    (ctrlWrite .size s.cfg.capacity (ctrlWrite .base s.cfg.shmBase (prodReset s)))

/-- The last accesses of ACQ.INIT leave the control region alone (20_memory.md R64). -/
theorem programProducer_env_ctrl (s : State) :
    (programProducer s).env.ctrl = (ctrlProgrammed s).env.ctrl ∧
      (programProducer s).env.ctrlEpoch = (ctrlProgrammed s).env.ctrlEpoch := by
  simp [programProducer, ctrlProgrammed]

/-- What ACQ.INIT writes in each control word (42_acquisition_loop.md R160; 20_memory.md R62). -/
theorem ctrlValue_ctrlProgrammed {s : State} (hl : ctrlLayoutOk s.cfg) (w : CtrlWord) :
    ctrlValue s.cfg (ctrlProgrammed s).env w =
      match w with
      | .base => s.cfg.shmBase
      | .size => s.cfg.capacity
      | .choke => s.cfg.choke
      | .before => 0
      | .after => 0 := by
  obtain ⟨hbefore, hafter⟩ := ctrlValue_prodReset hl
  unfold ctrlProgrammed
  cases w with
  | choke => rw [ctrlValue_ctrlWrite_same (by simp)]
  | size => rw [ctrlValue_ctrlWrite_ne (by simp) hl _ (by decide), ctrlValue_ctrlWrite_same (by simp)]
  | base =>
    iterate 2 rw [ctrlValue_ctrlWrite_ne (by simp) hl _ (by decide)]
    rw [ctrlValue_ctrlWrite_same (by simp)]
  | before =>
    iterate 3 rw [ctrlValue_ctrlWrite_ne (by simp) hl _ (by decide)]
    exact hbefore
  | after =>
    iterate 3 rw [ctrlValue_ctrlWrite_ne (by simp) hl _ (by decide)]
    exact hafter

/-- Outside the three words it writes, ACQ.INIT leaves what ProdReset left (93_implementation_defined.md
U10). -/
theorem ctrlByte_ctrlProgrammed {s : State} {a : Nat}
    (ha : ∀ w ∈ [CtrlWord.base, .size, .choke], a < ctrlOffset s.cfg w ∨ ctrlOffset s.cfg w + 4 ≤ a) :
    ctrlByte (ctrlProgrammed s).env a = ctrlByte (prodReset s).env a := by
  unfold ctrlProgrammed
  rw [ctrlByte_ctrlWrite_outside (by simp) _ (ha .choke (by decide)),
    ctrlByte_ctrlWrite_outside (by simp) _ (ha .size (by decide)),
    ctrlByte_ctrlWrite_outside (by simp) _ (ha .base (by decide))]

/-- Settles O14: after the writes of ACQ.INIT only the shared region, the mode and the response change. -/
theorem acqInitControlRegion : Obligations.AcqInitControlRegion := by
  intro s t hidle hcfg hs
  rw [exec, execAcqInit, if_pos hidle, if_pos hcfg] at hs
  obtain rfl := Host.Outcome.next.inj hs
  obtain ⟨hctrl, hepoch⟩ := programProducer_env_ctrl { s with acq := clearForInit s.acq }
  have word : ∀ w, ctrlValue s.cfg (programProducer { s with acq := clearForInit s.acq }).env w = _ :=
    fun w => (ctrlValue_congr w hctrl hepoch).trans
      (ctrlValue_ctrlProgrammed (s := { s with acq := clearForInit s.acq }) (acqCfgOk_layout hcfg) w)
  exact ⟨word .base, word .size, word .choke, word .before, word .after, fun a ha =>
    (ctrlByte_congr a hctrl hepoch).trans
      (ctrlByte_ctrlProgrammed (s := { s with acq := clearForInit s.acq }) ha)⟩

/-! ### Micro-operations that do not fault -/

/-- The micro-operation does not fault: `P` of its result if it is done, and it raises or is refused only if
`E` holds. With `E` false it is done. -/
def Micro.FaultFree {α : Type} (m : Micro α) (E : Prop) (P : α → State → Prop) : Prop :=
  match m with
  | .done a s => P a s
  | .raised _ _ => E
  | .fault _ => False
  | .refused _ => E

theorem Micro.FaultFree.bind {α β : Type} {m : Micro α} {f : α → State → Micro β} {E : Prop}
    {P : α → State → Prop} {P' : β → State → Prop} (h : m.FaultFree E P)
    (hf : ∀ a s, P a s → (f a s).FaultFree E P') : (m.bind f).FaultFree E P' := by
  cases m with
  | done a s => exact hf a s h
  | raised c s => exact h
  | fault r => exact h
  | refused r => exact h

theorem Micro.FaultFree.isDone {α : Type} {m : Micro α} {P : α → State → Prop} (h : m.FaultFree False P) :
    ∃ a s, m = .done a s ∧ P a s := by
  cases m with
  | done a s => exact ⟨a, s, rfl, h⟩
  | raised c s => exact h.elim
  | fault r => exact h.elim
  | refused r => exact h.elim

/-- No fault, and nothing more is said. -/
def Micro.NoFault {α : Type} (m : Micro α) : Prop := m.FaultFree True fun _ _ => True

theorem Micro.FaultFree.noFault {α : Type} {m : Micro α} {E : Prop} {P : α → State → Prop}
    (h : m.FaultFree E P) : m.NoFault := by
  cases m with
  | fault r => exact h
  | done _ _ | raised _ _ | refused _ => trivial

theorem Micro.NoFault.onRaise {α : Type} {m : Micro α} (h : m.NoFault) (f : State → State) :
    (m.onRaise f).NoFault := by
  cases m with
  | fault r => exact h
  | done _ _ | raised _ _ | refused _ => trivial

/-! ### The sink and the packer -/

/-- A flush does not fault; only an answer of the sink ends it otherwise than done, so none does once the
sink accepts everything (log 8). -/
theorem packFlush_faultFree {E : Prop} {s : State} (h : E ∨ s.env.sinkTape = []) :
    (packFlush s).FaultFree E fun _ t => t.cfg = s.cfg ∧ (E ∨ t.env.sinkTape = []) := by
  by_cases hempty : s.acq.pkBatch = []
  · rw [packFlush_empty hempty]
    exact ⟨rfl, h⟩
  · rcases h with hE | htape
    · unfold packFlush sinkWrite
      dsimp only
      split_ifs
      · dsimp only [Micro.bind_done]
        split_ifs
        · exact ⟨rfl, .inl hE⟩
        · exact hE
      · exact hE
    · rw [packFlush_accepted hempty (by simp [sinkAccepts, htape])]
      exact ⟨rfl, .inr (by simp [htape])⟩

theorem packClose_noFault (s : State) : (packClose s).NoFault :=
  (packFlush_faultFree (.inl trivial)).bind fun _ _ _ => trivial

theorem packBit_faultFree {E : Prop} (b : Bool) {s : State} (h : E ∨ s.env.sinkTape = []) :
    (packBit b s).FaultFree E fun _ t => t.cfg = s.cfg ∧ (E ∨ t.env.sinkTape = []) := by
  unfold packBit
  dsimp only
  split_ifs
  · exact packFlush_faultFree h
  · exact ⟨rfl, h⟩
  · exact ⟨rfl, h⟩

/-- What the sample loop asks of the sink, if its answers are not to end the poll: self-test mode, which
writes nothing, or a sink that accepts everything (41_bit_packer_unpacker.md R147; log 8). -/
def SinkEndsOnlyIf (E : Prop) (s : State) : Prop := E ∨ s.cfg.testMode = true ∨ s.env.sinkTape = []

theorem rbSample_faultFree {E : Prop} (v off : Word) {s : State} (h : SinkEndsOnlyIf E s) :
    (rbSample v off s).FaultFree E fun _ t => t.cfg = s.cfg ∧ SinkEndsOnlyIf E t := by
  unfold rbSample
  split_ifs with htest
  · obtain ⟨m, o, g, f, hv⟩ := verifyCheck_spec v off s
    rw [hv]
    exact ⟨rfl, h⟩
  · have hsink : E ∨ s.env.sinkTape = [] := h.imp_right (Or.resolve_left · htest)
    have hbit := packBit_faultFree (v.getLsbD s.cfg.signalBit) hsink
    revert hbit
    cases packBit (v.getLsbD s.cfg.signalBit) s with
    | done a t => exact fun hbit => ⟨hbit.1, hbit.2.imp_right .inr⟩
    | raised c t => exact id
    | fault r => exact id
    | refused r => exact id

/-! ### The reads of a poll -/

theorem ctrlRead_noFault (w : CtrlWord) (s : State) :
    (ctrlRead w s).FaultFree True fun v t => v.toNat % 4 = 0 ∧ t.cfg = s.cfg ∧ t.acq = s.acq := by
  cases h : ctrlRead w s with
  | done v t =>
    obtain ⟨-, haligned, rfl⟩ := ctrlRead_spec h
    obtain ⟨sh, ct, hp⟩ := producerTurn_spec s
    refine ⟨haligned, ?_⟩
    rw [hp]
    exact ⟨rfl, rfl⟩
  | raised c t => trivial
  | refused r => trivial
  | fault r =>
    unfold ctrlRead at h
    dsimp only at h
    split_ifs at h

/-- A MemRead inside the shared region is done (00_scope.md R12). -/
theorem memRead_faultFree {E : Prop} {off : Nat} {s : State} (h4 : off % 4 = 0) (hc : off < capBytes s.cfg)
    (h : SinkEndsOnlyIf E s) : (memRead off s).FaultFree E fun _ t => t.cfg = s.cfg ∧ SinkEndsOnlyIf E t := by
  obtain ⟨sh, ct, hp⟩ := producerTurn_spec s
  rw [memRead_inside h4 hc, hp]
  exact ⟨rfl, h⟩

/-- A span of whole Samples inside the shared region (20_memory.md R66). -/
def SpanInside (cap : Nat) (sp : Nat × Nat) : Prop := 4 ∣ sp.1 ∧ 4 ∣ sp.2 ∧ sp.2 ≤ cap

/-- The spans between two aligned counters are of whole Samples inside the region (40_ring_consumer.md R113). -/
theorem rbSpans_inside {cap : Nat} {l w : Word} (hcap : 4 ∣ cap) (hpos : 0 < cap) (hl : l.toNat % 4 = 0)
    (hw : w.toNat % 4 = 0) : ∀ sp ∈ rbSpans cap l w, SpanInside cap sp := by
  have aligned : ∀ x : Word, x.toNat % 4 = 0 → 4 ∣ x.toNat % cap := fun x hx =>
    (Nat.dvd_mod_iff hcap).mpr (Nat.dvd_of_mod_eq_zero hx)
  have below : ∀ x : Word, x.toNat % cap ≤ cap := fun x => (Nat.mod_lt _ hpos).le
  intro sp hsp
  unfold rbSpans at hsp
  split_ifs at hsp
  · rcases List.mem_pair.mp hsp with rfl | rfl
    · exact ⟨aligned l hl, hcap, le_rfl⟩
    · exact ⟨⟨0, rfl⟩, aligned w hw, below w⟩
  · obtain rfl := List.mem_singleton.mp hsp
    exact ⟨aligned l hl, aligned w hw, below w⟩

theorem sampleLoop_faultFree {E : Prop} (n o : Nat) (off : Word) {s : State} (h4 : 4 ∣ o)
    (hin : 0 < n → o + 4 * n ≤ capBytes s.cfg) (h : SinkEndsOnlyIf E s) :
    (sampleLoop n o off s).FaultFree E fun _ t => t.cfg = s.cfg ∧ SinkEndsOnlyIf E t := by
  induction n generalizing o off s with
  | zero => exact ⟨rfl, h⟩
  | succ n ih =>
    have room := hin n.succ_pos
    refine (memRead_faultFree (Nat.mod_eq_zero_of_dvd h4) (by omega) h).bind fun v t ⟨hct, ht⟩ => ?_
    refine (rbSample_faultFree v off ht).bind fun _ u ⟨hcu, hu⟩ => ?_
    rw [← hct, ← hcu] at room ⊢
    exact ih (o + 4) _ (Nat.dvd_add h4 (dvd_refl 4)) (fun _ => by omega) hu

/-- The data phase of a poll does not fault, and only an answer of the sink ends it before its last Sample
(40_ring_consumer.md R117). -/
theorem spanLoop_faultFree {E : Prop} {spans : List (Nat × Nat)} (off : Word) {s : State}
    (hin : ∀ sp ∈ spans, SpanInside (capBytes s.cfg) sp) (h : SinkEndsOnlyIf E s) :
    (spanLoop spans off s).FaultFree E fun _ _ => True := by
  induction spans generalizing off s with
  | nil => trivial
  | cons sp rest ih =>
    obtain ⟨⟨hb, he, hcap⟩, hrest⟩ := List.forall_mem_cons.mp hin
    have room : 0 < samplesIn sp → sp.1 + 4 * samplesIn sp ≤ capBytes s.cfg := by
      unfold samplesIn
      omega
    exact (sampleLoop_faultFree _ _ off hb room h).bind fun off' t ⟨hct, ht⟩ => ih off' (hct ▸ hrest) ht

theorem rbCancelChk_noFault (s : State) : (rbCancelChk s).FaultFree True fun _ t => t = s := by
  unfold rbCancelChk
  split_ifs
  · trivial
  · rfl

theorem rbOvrChk_noFault (b : Word) (s : State) : (rbOvrChk b s).NoFault := by
  rcases rbOvrChk_cases b s with ⟨-, h⟩ | ⟨-, h⟩
  · rw [h]; trivial
  · rw [h]; trivial

/-- The spans of a poll lie inside the region: RUNNING is entered with a legal configuration, and `last_read`
is a multiple of 4 (20_memory.md R66; 42_acquisition_loop.md R160). -/
theorem AcqInv.spansInside {s : State} (h : AcqInv s) (hrun : s.acq.acqState = .running) {w : Word}
    (hw : w.toNat % 4 = 0) :
    ∀ sp ∈ rbSpans (capBytes s.cfg) s.acq.lastRead w, SpanInside (capBytes s.cfg) sp := by
  obtain ⟨hcap, hmin, -⟩ := acqCfgOk_capacity (h.runningCfg hrun)
  exact rbSpans_inside hcap (by omega) h.lastReadAligned hw

/-- A poll of a RUNNING unit does not fault (20_memory.md R66; log 11). -/
theorem poll_noFault {s : State} (h : AcqInv s) (hrun : s.acq.acqState = .running) : (poll s).NoFault := by
  refine (rbCancelChk_noFault s).bind fun _ t ht => ?_
  subst ht
  refine (ctrlRead_noFault .after t).bind fun w u ⟨hw, hcfg, hacq⟩ => ?_
  have inside := h.spansInside hrun hw
  rw [← hcfg, ← hacq] at inside
  refine (spanLoop_faultFree (E := True) u.acq.lastRead (s := barrier u) inside (.inl trivial)).bind
    fun _ v _ => ?_
  refine (ctrlRead_noFault .before _).bind fun b x _ => ?_
  exact (rbOvrChk_noFault b x).bind fun _ _ _ => trivial

/-! ### Commands that do not fault -/

theorem exitAcq_noFault (c : Cause) (s : State) (r : Fault) : exitAcq c s ≠ .fault r := by
  have close := packClose_noFault s
  unfold exitAcq
  split_ifs
  · cases hc : packClose s with
    | fault r => rw [hc] at close; exact close.elim
    | done _ _ | raised _ _ | refused _ => nofun
  · nofun

theorem settleAcq_noFault {α : Type} {m : Micro α} {k : α → State → State} (h : m.NoFault) (r : Fault) :
    settleAcq m k ≠ .fault r := by
  cases m with
  | raised c s => exact exitAcq_noFault c s r
  | fault r => exact h.elim
  | done _ _ | refused _ => nofun

theorem settleDec_noFault {α : Type} {m : Micro α} {k : α → State → State} (h : m.NoFault) (r : Fault) :
    settleDec m k ≠ .fault r := by
  cases m with
  | fault r => exact h.elim
  | done _ _ | raised _ _ | refused _ => nofun

theorem packerCommand_noFault {m : State → Micro Unit} {s : State} (h : (m s).NoFault) (r : Fault) :
    packerCommand m s ≠ .fault r := by
  unfold packerCommand
  split_ifs
  · nofun
  · exact settleAcq_noFault h r

theorem acqRunPoll_noFault {s : State} (h : AcqInv s) (hrun : s.acq.acqState = .running) (r : Fault) :
    acqRunPoll s ≠ .fault r :=
  settleAcq_noFault ((poll_noFault h hrun).onRaise endAcqRun) r

theorem acqRunTurn_noFault {s : State} (h : AcqInv s) (r : Fault) : acqRunTurn s ≠ .fault r := by
  unfold acqRunTurn
  split_ifs with hrun
  · exact acqRunPoll_noFault h hrun r
  · nofun

theorem sourceRead_noFault (max : Nat) (s : State) : (sourceRead max s).NoFault := by
  unfold sourceRead
  dsimp only
  split
  · split_ifs <;> trivial
  · trivial
  · trivial

theorem unpkRefill_noFault (s : State) : (unpkRefill s).NoFault :=
  (sourceRead_noFault s.cfg.batchWords s).bind fun ans _ _ => by cases ans <;> trivial

theorem unpkBit_noFault (s : State) : (unpkBit s).NoFault := by
  unfold unpkBit
  split_ifs
  · trivial
  · refine (unpkRefill_noFault s).bind fun more t _ => ?_
    split_ifs <;> trivial
  · trivial
  · trivial

theorem decodeBit_noFault (b : Bool) (s : State) : (decodeBit b s).NoFault := by
  unfold decodeBit
  dsimp only
  split
  case h_1 f _ =>
    unfold syncBit syncCommit
    dsimp only
    split_ifs <;> trivial
  case h_2 f _ =>
    obtain ⟨ev, t, h⟩ := frmBit_is_done f b { s with dec := { s.dec with bitOffset := s.dec.bitOffset + 1 } }
    rw [h]
    trivial

theorem decRunFetch_noFault (s : State) (r : Fault) : decRunFetch s ≠ .fault r :=
  settleDec_noFault ((unpkBit_noFault s).onRaise endDecRun) r

theorem decRunTurn_noFault (s : State) (r : Fault) : decRunTurn s ≠ .fault r := by
  unfold decRunTurn
  split
  · nofun
  · exact decRunFetch_noFault s r
  · exact settleDec_noFault (decodeBit_noFault _ s) r

/-- No command faults in a state whose ACQ unit meets the invariant. -/
theorem exec_noFault (i : Instr) {s : State} (h : AcqInv s) (r : Fault) : exec i s ≠ .fault r := by
  cases i with
  | reset => unfold exec execReset; nofun
  | acqInit =>
    unfold exec execAcqInit
    dsimp only
    split_ifs
    · nofun
    · exact exitAcq_noFault _ _ r
    · nofun
  | acqPoll =>
    unfold exec execAcqPoll
    dsimp only
    split_ifs with hrun
    · exact settleAcq_noFault (poll_noFault h hrun) r
    · nofun
  | acqCancel => nofun
  | acqStop =>
    unfold exec execAcqStop
    dsimp only
    split_ifs
    · exact exitAcq_noFault _ _ r
    · nofun
  | acqRun =>
    unfold exec execAcqRun
    dsimp only
    split_ifs with hrun
    · exact acqRunPoll_noFault h hrun r
    · nofun
  | packAdd b => exact packerCommand_noFault (packBit_faultFree b (.inl trivial)).noFault r
  | packFlush => exact packerCommand_noFault (packFlush_faultFree (.inl trivial)).noFault r
  | packClose => exact packerCommand_noFault (packClose_noFault s) r
  | unpkGet =>
    unfold exec execUnpkGet
    dsimp only
    split_ifs
    · exact settleDec_noFault (unpkBit_noFault s) r
    · nofun
  | decReset =>
    unfold exec execDecReset
    dsimp only
    split_ifs <;> nofun
  | decBit b =>
    unfold exec execDecBit
    dsimp only
    split_ifs
    · exact settleDec_noFault (decodeBit_noFault b s) r
    · nofun
  | decRun =>
    unfold exec execDecRun
    dsimp only
    split_ifs
    · exact decRunFetch_noFault s r
    · nofun
  | rdsr n =>
    unfold exec execRdsr
    dsimp only
    split <;> nofun

/-- Settles O57, by cases on the turn that the step takes: only a poll reads the shared region, and its spans
lie inside it. -/
theorem noStepFaults : Obligations.NoStepFaults := by
  intro s h r
  have acq : ∀ p : Port, AcqInv { s with port := p } := fun p => (h.withPort p).acq
  unfold step
  rcases nextTurn_spec s with ⟨p, -, hturn | ⟨hturn, -⟩ | hturn⟩ |
    ⟨w, rest, -, ⟨e, -, hturn⟩ | ⟨i, -, -, hturn⟩⟩
  all_goals rw [hturn]
  · nofun
  · exact acqRunTurn_noFault (acq p) r
  · exact decRunTurn_noFault _ r
  · nofun
  · exact exec_noFault i (acq _) r

/-! ### What the producer's batches make of the two regions -/

/-- The environment after the producer's next `k` batches, performed at once (log 4). -/
def producedEnv (s : State) (k : Nat) : Env :=
  (s.env.schedule.take k).flatten.foldl (applyProdWrite s.cfg) s.env

/-- Between `s` and `t` the producer has performed exactly its next `k` batches, and nothing else has written
either region (20_memory.md R61, R70). -/
structure ProducedFrom (s : State) (k : Nat) (t : State) : Prop where
  cfg : t.cfg = s.cfg
  schedule : t.env.schedule = s.env.schedule.drop k
  shared : t.env.shared = (producedEnv s k).shared
  ctrl : t.env.ctrl = (producedEnv s k).ctrl
  ctrlEpoch : t.env.ctrlEpoch = s.env.ctrlEpoch

/-- What the producer's writes make of the regions depends on the regions only. -/
theorem foldl_applyProdWrite_regions (cfg : Config) (ws : List ProdWrite) {e e' : Env}
    (hs : e.shared = e'.shared) (hc : e.ctrl = e'.ctrl) :
    (ws.foldl (applyProdWrite cfg) e).shared = (ws.foldl (applyProdWrite cfg) e').shared ∧
      (ws.foldl (applyProdWrite cfg) e).ctrl = (ws.foldl (applyProdWrite cfg) e').ctrl := by
  induction ws generalizing e e' with
  | nil => exact ⟨hs, hc⟩
  | cons w ws ih =>
    cases w with
    | sample k v => exact ih (congrArg (Memory.setWord · _ v) hs) hc
    | before v => exact ih hs (congrArg (Memory.setWord · _ v) hc)
    | after v => exact ih hs (congrArg (Memory.setWord · _ v) hc)

theorem ProducedFrom.refl (s : State) : ProducedFrom s 0 s := ⟨rfl, rfl, rfl, rfl, rfl⟩

theorem ProducedFrom.trans {s t u : State} {j k : Nat} (h : ProducedFrom s j t) (h' : ProducedFrom t k u) :
    ProducedFrom s (j + k) u := by
  have later : producedEnv s (j + k) =
      (t.env.schedule.take k).flatten.foldl (applyProdWrite t.cfg) (producedEnv s j) := by
    rw [producedEnv, producedEnv, h.cfg, h.schedule, List.take_add, List.flatten_append, List.foldl_append]
  obtain ⟨hshared, hctrl⟩ :=
    foldl_applyProdWrite_regions t.cfg (t.env.schedule.take k).flatten h.shared h.ctrl
  rw [← later] at hshared hctrl
  exact ⟨h'.cfg.trans h.cfg, by rw [h'.schedule, h.schedule, List.drop_drop],
    h'.shared.trans hshared, h'.ctrl.trans hctrl, h'.ctrlEpoch.trans h.ctrlEpoch⟩

/-- A record of an access is no write. -/
theorem logEvent_produced (s : State) (ev : BusEvent) : ProducedFrom s 0 (s.logEvent ev) :=
  ⟨rfl, rfl, rfl, rfl, rfl⟩

theorem producerTurn_produced (s : State) : ProducedFrom s 1 (producerTurn s) := by
  have epoch : (producerTurn s).env.ctrlEpoch = s.env.ctrlEpoch := by
    obtain ⟨sh, ct, h⟩ := producerTurn_spec s
    rw [h]
  cases hs : s.env.schedule with
  | nil =>
    have nothing : producedEnv s 1 = s.env := by simp [producedEnv, hs]
    rw [producerTurn_quiet hs]
    exact ⟨rfl, by simp [hs], by rw [nothing], by rw [nothing], rfl⟩
  | cons batch rest =>
    have one : producedEnv s 1 = batch.foldl (applyProdWrite s.cfg) s.env := by simp [producedEnv, hs]
    have turn : producerTurn s =
        { s with env := { batch.foldl (applyProdWrite s.cfg) s.env with schedule := rest } } := by
      simp [producerTurn, hs]
    exact ⟨(producerTurn_frame s).cfg, by simp [turn, hs], by rw [turn, one], by rw [turn, one], epoch⟩

/-- In a quiet environment both regions stay as they are. -/
theorem ProducedFrom.ctrlValue_quiet {s t : State} {k : Nat} (h : ProducedFrom s k t)
    (hq : s.env.schedule = []) (w : CtrlWord) : ctrlValue t.cfg t.env w = ctrlValue s.cfg s.env w := by
  have nothing : producedEnv s k = s.env := by simp [producedEnv, hq]
  rw [h.cfg]
  exact ctrlValue_congr w (by rw [h.ctrl, nothing]) h.ctrlEpoch

/-! ### The accesses of the data phase -/

/-- The accesses among which the order of R71 is stated: all but the sink's, which stand among the Samples. -/
def notSinkWrite : BusEvent → Bool
  | .sinkWrite _ _ => false
  | _ => true

/-- One of the accesses is a SinkWrite that was not fully accepted (20_memory.md R67). -/
def ShortWrite (evs : List BusEvent) : Prop := ∃ ws k, .sinkWrite ws k ∈ evs ∧ k < ws.length

/-- From `s` to `t` the block has made the accesses `evs`: MemReads at `reads`, inside the shared region and
each with one batch of the producer before it, and SinkWrites (20_memory.md R66, R70, R71). -/
structure DataAccesses (s : State) (reads : List (Nat × Word)) (evs : List BusEvent) (t : State) : Prop where
  produced : ProducedFrom s reads.length t
  trace : t.env.trace = s.env.trace ++ evs
  accesses : evs.filter notSinkWrite = reads.map fun r => .memRead r.1 r.2
  inside : ∀ r ∈ reads, r.1 % 4 = 0 ∧ r.1 < capBytes s.cfg

theorem DataAccesses.none {s t : State} (h : ProducedFrom s 0 t) (ht : t.env.trace = s.env.trace) :
    DataAccesses s [] [] t :=
  ⟨h, by rw [ht, List.append_nil], rfl, nofun⟩

theorem DataAccesses.trans {s t u : State} {reads reads' : List (Nat × Word)} {evs evs' : List BusEvent}
    (h : DataAccesses s reads evs t) (h' : DataAccesses t reads' evs' u) :
    DataAccesses s (reads ++ reads') (evs ++ evs') u where
  produced := by rw [List.length_append]; exact h.produced.trans h'.produced
  trace := by rw [h'.trace, h.trace, List.append_assoc]
  accesses := by rw [List.filter_append, h.accesses, h'.accesses, List.map_append]
  inside := List.forall_mem_append.mpr ⟨h.inside, h.produced.cfg ▸ h'.inside⟩

/-- A micro-operation makes `n` MemReads and some SinkWrites if it is done, and no more MemReads if it raises;
then one of the SinkWrites was not fully accepted (40_ring_consumer.md R117). -/
def Micro.Reads {α : Type} (m : Micro α) (s : State) (n : Nat) : Prop :=
  m.Post (fun _ t => ∃ reads evs, reads.length = n ∧ DataAccesses s reads evs t)
    (fun _ t => ∃ reads evs, reads.length ≤ n ∧ DataAccesses s reads evs t ∧ ShortWrite evs)

/-- The accesses of a micro-operation come after those made before it. -/
theorem Micro.Reads.after {α : Type} {m : Micro α} {s t : State} {reads : List (Nat × Word)}
    {evs : List BusEvent} {n : Nat} (hm : m.Reads t n) (h : DataAccesses s reads evs t) :
    m.Reads s (reads.length + n) := by
  refine Micro.Post.mono hm ?_ ?_
  · rintro b u ⟨reads', evs', hn, hu⟩
    exact ⟨_, _, by rw [List.length_append, hn], h.trans hu⟩
  · rintro c u ⟨reads', evs', hn, hu, ws, k, hmem, hk⟩
    exact ⟨_, _, by rw [List.length_append]; omega, h.trans hu, ws, k, List.mem_append_right _ hmem, hk⟩

theorem Micro.Reads.bind {α β : Type} {m : Micro α} {f : α → State → Micro β} {s : State} {n k : Nat}
    (h : m.Reads s n) (hf : ∀ a t, (f a t).Reads t k) : (m.bind f).Reads s (n + k) := by
  cases m with
  | done a t =>
    obtain ⟨reads, evs, rfl, ht⟩ := h
    exact (hf a t).after ht
  | raised c t =>
    obtain ⟨reads, evs, hn, ht⟩ := h
    exact ⟨reads, evs, Nat.le_add_right_of_le hn, ht⟩
  | fault r => trivial
  | refused r => trivial

/-- A flush makes no MemRead, and raises only after a write that was not fully accepted
(41_bit_packer_unpacker.md R141). -/
theorem packFlush_reads (s : State) : (packFlush s).Reads s 0 := by
  cases h : packFlush s with
  | done a t =>
    rcases packFlush_done h with ⟨-, rfl⟩ | ⟨-, -, rfl⟩
    · exact ⟨[], [], rfl, .none (.refl _) rfl⟩
    · exact ⟨[], _, rfl, ⟨rfl, rfl, rfl, rfl, rfl⟩, rfl, rfl, nofun⟩
  | raised c t =>
    obtain ⟨-, -, n, hn, -, rfl⟩ := packFlush_raised h
    exact ⟨[], _, le_rfl, ⟨⟨rfl, rfl, rfl, rfl, rfl⟩, rfl, rfl, nofun⟩, _, n, List.mem_singleton_self _, hn⟩
  | fault r => trivial
  | refused r => trivial

/-- A change of the ACQ registers is no access. -/
theorem DataAccesses.withAcq (s : State) (a : Acq) : DataAccesses s [] [] { s with acq := a } :=
  .none ⟨rfl, rfl, rfl, rfl, rfl⟩ rfl

theorem Micro.Reads.afterWithAcq {α : Type} {m : Micro α} {s : State} {a : Acq} {n : Nat}
    (h : m.Reads { s with acq := a } n) : m.Reads s n :=
  Nat.zero_add n ▸ h.after (.withAcq s a)

/-- A micro-operation that is done with a change of the ACQ registers alone. -/
theorem Micro.reads_done {α : Type} (r : α) (s : State) (a : Acq) :
    (Micro.done r { s with acq := a }).Reads s 0 :=
  ⟨[], [], rfl, .withAcq s a⟩

theorem packClose_reads (s : State) : (packClose s).Reads s 0 :=
  (packFlush_reads s).bind fun _ t => Micro.reads_done () t _

theorem packBit_reads (b : Bool) (s : State) : (packBit b s).Reads s 0 := by
  unfold packBit
  dsimp only
  split_ifs
  · exact (packFlush_reads _).afterWithAcq
  · exact Micro.reads_done () s _
  · exact Micro.reads_done () s _

theorem rbSample_reads (v off : Word) (s : State) : (rbSample v off s).Reads s 0 := by
  unfold rbSample
  split_ifs
  · obtain ⟨m, o, g, f, h⟩ := verifyCheck_spec v off s
    rw [h]
    exact Micro.reads_done () s _
  · exact packBit_reads _ s

/-- A MemRead gives the producer one batch, and is at an aligned offset below CAPACITY (20_memory.md R66,
R70). -/
theorem memRead_reads (off : Nat) (s : State) : (memRead off s).Reads s 1 := by
  cases h : memRead off s with
  | done v t =>
    obtain ⟨h4, hc, -, rfl⟩ := memRead_spec h
    have trace : (producerTurn s).env.trace = s.env.trace := by
      obtain ⟨sh, ct, hp⟩ := producerTurn_spec s
      rw [hp]
    exact ⟨[(off, v)], [.memRead off v], rfl, (producerTurn_produced s).trans (logEvent_produced _ _),
      congrArg (· ++ _) trace, rfl, List.forall_mem_singleton.mpr ⟨h4, hc⟩⟩
  | raised c t => exact absurd h (memRead_not_raised _ _ _ _)
  | fault r => trivial
  | refused r => trivial

theorem sampleLoop_reads (n o : Nat) (off : Word) (s : State) : (sampleLoop n o off s).Reads s n := by
  induction n generalizing o off s with
  | zero => exact ⟨[], [], rfl, .none (.refl s) rfl⟩
  | succ n ih =>
    have all : (sampleLoop (n + 1) o off s).Reads s (1 + (0 + n)) := (memRead_reads o s).bind fun v t =>
      (rbSample_reads v off t).bind fun _ u => ih (o + 4) (add32 off 4) u
    rwa [show 1 + (0 + n) = n + 1 by omega] at all

/-- The data phase of a poll reads each Sample of its spans once (40_ring_consumer.md R110). -/
theorem spanLoop_reads (spans : List (Nat × Nat)) (off : Word) (s : State) :
    (spanLoop spans off s).Reads s (spans.map samplesIn).sum := by
  induction spans generalizing off s with
  | nil => exact ⟨[], [], rfl, .none (.refl s) rfl⟩
  | cons sp rest ih => exact (sampleLoop_reads _ _ off s).bind fun off' t => ih off' t

/-! ### The accesses of a poll -/

/-- A CtrlRead gives the producer one batch and then takes the word's value (20_memory.md R63, R70). -/
theorem ctrlRead_done {w : CtrlWord} {s t : State} {v : Word} (h : ctrlRead w s = .done v t) :
    ProducedFrom s 1 t ∧ v = ctrlValue t.cfg t.env w ∧ t.acq = s.acq ∧
      t.env.trace = s.env.trace ++ [.ctrlRead w v] := by
  obtain ⟨hv, -, rfl⟩ := ctrlRead_spec h
  refine ⟨(producerTurn_produced s).trans (logEvent_produced _ _), hv, ?_, ?_⟩
  all_goals
    obtain ⟨sh, ct, hp⟩ := producerTurn_spec s
    rw [hp]
    rfl

/-! ### The accesses of the exit sequence -/

theorem DataFrame.acqState {s t : State} (h : DataFrame s t) : t.acq.acqState = s.acq.acqState := by
  rw [h.acq]

theorem DataFrame.lastRead {s t : State} (h : DataFrame s t) : t.acq.lastRead = s.acq.lastRead := by
  rw [h.acq]

theorem packClose_frame (s : State) :
    (packClose s).Post (fun _ => DataFrame s) (fun c t => c = .ioErr ∧ DataFrame s t) :=
  (packFlush_frame s).bind fun _ _ h => h.trans ⟨rfl, rfl, rfl, rfl, rfl⟩

/-- A RUNNING unit ends its exit sequence with a Barrier and a ProdStop (60_exceptions.md R232). -/
theorem leaveAcq_trace (c : Cause) {s : State} (hrun : s.acq.acqState = .running) :
    (leaveAcq c s).env.trace = s.env.trace ++ [.barrier, .prodStop] := by
  rw [leaveAcq_env, if_pos hrun, List.append_assoc]
  rfl

/-- The exit sequence of a RUNNING unit accesses the sink, then ends with a Barrier and a ProdStop, and leaves
`last_read` alone (60_exceptions.md R232). -/
theorem exitAcq_accesses {c : Cause} {s t : State} (hrun : s.acq.acqState = .running)
    (hs : exitAcq c s = .next t) :
    ∃ evs, t.env.trace = s.env.trace ++ evs ∧ evs.filter notSinkWrite = [.barrier, .prodStop] ∧
      t.acq.lastRead = s.acq.lastRead := by
  have closed : ∀ (c : Cause) {u : State} {reads : List (Nat × Word)} {evs : List BusEvent},
      DataFrame s u → reads.length ≤ 0 → DataAccesses s reads evs u →
      ∃ evs, (leaveAcq c u).env.trace = s.env.trace ++ evs ∧
        evs.filter notSinkWrite = [.barrier, .prodStop] ∧ (leaveAcq c u).acq.lastRead = s.acq.lastRead := by
    intro c u reads evs frame hnone hu
    obtain rfl := List.eq_nil_of_length_eq_zero (Nat.le_zero.mp hnone)
    refine ⟨evs ++ [.barrier, .prodStop], ?_, ?_, ?_⟩
    · rw [leaveAcq_trace c (frame.acqState.trans hrun), hu.trace, List.append_assoc]
    · rw [List.filter_append, hu.accesses]
      rfl
    · rw [leaveAcq_acq]
      exact frame.lastRead
  have frame := packClose_frame s
  have reads := packClose_reads s
  rcases exitAcq_spec hs with ⟨-, ⟨u, hu, rfl⟩ | ⟨u, hu, rfl⟩⟩ | ⟨-, -, rfl⟩
  · rw [hu] at frame reads
    obtain ⟨_, _, hnone, hdata⟩ := reads
    exact closed c frame hnone.le hdata
  · rw [hu] at frame reads
    obtain ⟨_, _, hnone, hdata, -⟩ := reads
    exact closed .ioErr frame.2 hnone hdata
  · exact closed c (.refl s) le_rfl (.none (.refl s) rfl)

/-! ### The order of a poll's accesses -/

/-- What the accesses of a poll begin with, the sink's left out: AFTER, a Barrier, MemReads
(40_ring_consumer.md R112, R115). -/
def pollOpening (w : Word) (reads : List (Nat × Word)) : List BusEvent :=
  [.ctrlRead .after w, .barrier] ++ reads.map fun r => .memRead r.1 r.2

/-- The accesses of a poll up to a point of its data phase. -/
theorem snapshot_accesses {s s1 u : State} {w : Word} {reads : List (Nat × Word)} {evs : List BusEvent}
    (h1 : ctrlRead .after s = .done w s1) (hu : DataAccesses (barrier s1) reads evs u) :
    u.env.trace = s.env.trace ++ (.ctrlRead .after w :: .barrier :: evs) ∧
      (.ctrlRead .after w :: .barrier :: evs).filter notSinkWrite = pollOpening w reads ∧
      (∀ r ∈ reads, r.1 % 4 = 0 ∧ r.1 < s.cfg.capacity.toNat) ∧
      ProducedFrom s (1 + reads.length) u := by
  obtain ⟨snapshot, -, -, htrace⟩ := ctrlRead_done h1
  have inside := hu.inside
  rw [barrier_cfg, snapshot.cfg] at inside
  refine ⟨?_, ?_, inside, (snapshot.trans (logEvent_produced s1 .barrier)).trans hu.produced⟩
  · rw [hu.trace, barrier_env_trace, htrace]
    simp only [List.append_assoc, List.cons_append, List.nil_append]
  · exact congrArg (.ctrlRead .after w :: .barrier :: ·) hu.accesses

/-- The accesses of a poll that reaches its look at BEFORE: one batch of the producer before the snapshot, one
before each Sample, and one before the look, which comes last (40_ring_consumer.md R110). -/
theorem checked_accesses {s s1 s2 s3 : State} {w o b : Word} (h1 : ctrlRead .after s = .done w s1)
    (h2 : spanLoop (rbSpans (capBytes s1.cfg) s1.acq.lastRead w) s1.acq.lastRead (barrier s1) = .done o s2)
    (h3 : ctrlRead .before (pollChecked s1.cfg s1.acq.lastRead w s2) = .done b s3) :
    ∃ (reads : List (Nat × Word)) (evs : List BusEvent), s3.env.trace = s.env.trace ++ evs ∧
      evs.filter notSinkWrite = pollOpening w reads ++ [.barrier, .ctrlRead .before b] ∧
      (∀ r ∈ reads, r.1 % 4 = 0 ∧ r.1 < s.cfg.capacity.toNat) ∧
      reads.length = ((rbSpans (capBytes s.cfg) s.acq.lastRead w).map samplesIn).sum ∧
      ProducedFrom s (reads.length + 2) s3 ∧ s3.acq.lastRead = w := by
  have data := spanLoop_reads (rbSpans (capBytes s1.cfg) s1.acq.lastRead w) s1.acq.lastRead (barrier s1)
  rw [h2] at data
  obtain ⟨reads, evs, hlen, hdata⟩ := data
  obtain ⟨snapshot, -, hacq, -⟩ := ctrlRead_done h1
  rw [hacq, snapshot.cfg] at hlen
  obtain ⟨htrace, hfilter, hinside, hproduced⟩ := snapshot_accesses h1 hdata
  obtain ⟨look, -, hacq3, hlast⟩ := ctrlRead_done h3
  have advanced : ProducedFrom s2 0 (pollChecked s1.cfg s1.acq.lastRead w s2) := ⟨rfl, rfl, rfl, rfl, rfl⟩
  have all := (hproduced.trans advanced).trans look
  rw [show 1 + reads.length + 0 + 1 = reads.length + 2 by omega] at all
  refine ⟨reads, .ctrlRead .after w :: .barrier :: evs ++ [.barrier, .ctrlRead .before b], ?_,
    (List.filter_append _ _).trans (congrArg (· ++ _) hfilter), hinside, hlen, all, by rw [hacq3]; rfl⟩
  · rw [hlast, pollChecked, barrier_env_trace, rbStats_env, rbAdvance_env, htrace]
    simp only [List.append_assoc, List.cons_append, List.nil_append]

/-- The accesses of a poll whose data phase raises: IO_ERR, after a SinkWrite that was not fully accepted
(40_ring_consumer.md R117). -/
theorem failed_accesses {s s1 u : State} {w : Word} {c : Cause} (h1 : ctrlRead .after s = .done w s1)
    (h2 : spanLoop (rbSpans (capBytes s1.cfg) s1.acq.lastRead w) s1.acq.lastRead (barrier s1) = .raised c u) :
    c = .ioErr ∧ ∃ (reads : List (Nat × Word)) (evs : List BusEvent), u.env.trace = s.env.trace ++ evs ∧
      evs.filter notSinkWrite = pollOpening w reads ∧
      (∀ r ∈ reads, r.1 % 4 = 0 ∧ r.1 < s.cfg.capacity.toNat) ∧ ShortWrite evs ∧
      ProducedFrom s (1 + reads.length) u ∧ u.acq.lastRead = s.acq.lastRead := by
  have data := spanLoop_reads (rbSpans (capBytes s1.cfg) s1.acq.lastRead w) s1.acq.lastRead (barrier s1)
  have frame := spanLoop_frame (rbSpans (capBytes s1.cfg) s1.acq.lastRead w) s1.acq.lastRead (barrier s1)
  rw [h2] at data frame
  obtain ⟨reads, evs, -, hdata, ws, k, hmem, hshort⟩ := data
  obtain ⟨-, -, hacq, -⟩ := ctrlRead_done h1
  obtain ⟨htrace, hfilter, hinside, hproduced⟩ := snapshot_accesses h1 hdata
  exact ⟨frame.1, reads, _, htrace, hfilter, hinside, ⟨ws, k, .tail _ (.tail _ hmem), hshort⟩, hproduced,
    by rw [frame.2.lastRead, barrier_acq, hacq]⟩

/-- Settles O19: the accesses of the poll itself, then those of its exit sequence if it raised IO_ERR among the
Samples or OVERRUN at the end. -/
theorem pollAccessOrder : Obligations.PollAccessOrder := by
  intro s t hrun hcancel hs
  rw [exec, execAcqPoll, if_pos hrun, settleAcq_eq_next] at hs
  have frame := poll_frame s
  rcases hs with ⟨n, u, hpoll, rfl⟩ | ⟨c, u, hpoll, hexit⟩
  · obtain ⟨-, w, s1, o, s2, b, h1, h2, h3, -, -⟩ := poll_done hpoll
    obtain ⟨reads, evs, htrace, hfilter, hinside, -, -, hlast⟩ := checked_accesses h1 h2 h3
    exact ⟨w, reads, evs, _, htrace, hfilter, hinside, .inr ⟨⟨b, .inl rfl⟩, hlast⟩⟩
  · rw [hpoll] at frame
    obtain ⟨evs', exitTrace, exitFilter, exitLast⟩ := exitAcq_accesses (frame.2.acqState.trans hrun) hexit
    have followed : ∀ {evs es : List BusEvent}, u.env.trace = s.env.trace ++ evs →
        evs.filter notSinkWrite = es → t.env.trace = s.env.trace ++ (evs ++ evs') ∧
          (evs ++ evs').filter notSinkWrite = es ++ [.barrier, .prodStop] := by
      rintro evs es htrace rfl
      rw [exitTrace, htrace, List.filter_append, exitFilter, List.append_assoc]
      exact ⟨rfl, rfl⟩
    rcases poll_raised hpoll with ⟨hcancelled, -⟩ | ⟨-, w, s1, h1, h2 | ⟨o, s2, b, s3, h2, h3, -, -, rfl⟩⟩
    · exact absurd (hcancel.symm.trans hcancelled) (by decide)
    · obtain ⟨rfl, reads, evs, htrace, hfilter, hinside, ⟨ws, k, hmem, hshort⟩, -, hlast⟩ :=
        failed_accesses h1 h2
      obtain ⟨htrace', hfilter'⟩ := followed htrace hfilter
      have left : t = leaveAcq .ioErr u := by simpa [exitAcq, eq_comm] using hexit
      exact ⟨w, reads, _, _, htrace', hfilter', hinside, .inl ⟨rfl, exitLast.trans hlast,
        by rw [left, leaveAcq_acq], ws, k, List.mem_append_left _ hmem, hshort⟩⟩
    · obtain ⟨reads, evs, htrace, hfilter, hinside, -, -, hlast⟩ := checked_accesses h1 h2 h3
      obtain ⟨htrace', hfilter'⟩ := followed htrace hfilter
      rw [List.append_assoc] at hfilter'
      exact ⟨w, reads, _, _, htrace', hfilter', hinside, .inr ⟨⟨b, .inr rfl⟩, exitLast.trans hlast⟩⟩

/-! ### Only the producer writes the regions -/

theorem DecUnitFrame.produced {s t : State} (h : DecUnitFrame s t) : ProducedFrom s 0 t where
  cfg := h.cfg
  schedule := by rw [h.env]; rfl
  shared := by rw [h.env]; rfl
  ctrl := by rw [h.env]; rfl
  ctrlEpoch := by rw [h.env]

theorem Micro.Reads.produced {α : Type} {m : Micro α} {s : State} (h : m.Reads s 0) :
    m.Post (fun _ => ProducedFrom s 0) (fun _ => ProducedFrom s 0) := by
  refine Micro.Post.mono h ?_ ?_
  · rintro a t ⟨reads, evs, hlen, hdata⟩
    exact hlen ▸ hdata.produced
  · rintro c t ⟨reads, evs, hlen, hdata, -⟩
    exact Nat.le_zero.mp hlen ▸ hdata.produced

theorem leaveAcq_produced (c : Cause) (s : State) : ProducedFrom s 0 (leaveAcq c s) := by
  unfold leaveAcq
  dsimp only
  split_ifs
  all_goals exact ⟨rfl, rfl, rfl, rfl, rfl⟩

/-- The exit sequence reads neither region and writes neither (60_exceptions.md R232). -/
theorem exitAcq_produced {c : Cause} {s t : State} (hs : exitAcq c s = .next t) : ProducedFrom s 0 t := by
  have close := (packClose_reads s).produced
  rcases exitAcq_spec hs with ⟨-, ⟨u, hu, rfl⟩ | ⟨u, hu, rfl⟩⟩ | ⟨-, -, rfl⟩
  · rw [hu] at close
    exact ProducedFrom.trans close (leaveAcq_produced c u)
  · rw [hu] at close
    exact ProducedFrom.trans close (leaveAcq_produced .ioErr u)
  · exact leaveAcq_produced c s

/-- Some number of the producer's batches has been performed, and nothing else has written either region. -/
def OnlyProduced (s t : State) : Prop := ∃ k, ProducedFrom s k t

theorem ProducedFrom.only {s t : State} {k : Nat} (h : ProducedFrom s k t) : OnlyProduced s t := ⟨k, h⟩

theorem OnlyProduced.trans {s t u : State} (h : OnlyProduced s t) (h' : OnlyProduced t u) :
    OnlyProduced s u := by
  obtain ⟨j, h⟩ := h
  obtain ⟨k, h'⟩ := h'
  exact ⟨j + k, h.trans h'⟩

/-- A poll writes neither region, done or raised (20_memory.md R74). -/
theorem poll_onlyProduced (s : State) :
    (poll s).Post (fun _ => OnlyProduced s) (fun _ => OnlyProduced s) := by
  cases hpoll : poll s with
  | done n t =>
    obtain ⟨-, w, s1, o, s2, b, h1, h2, h3, -, -⟩ := poll_done hpoll
    obtain ⟨reads, evs, -, -, -, -, hproduced, -⟩ := checked_accesses h1 h2 h3
    exact hproduced.only
  | raised c t =>
    rcases poll_raised hpoll with ⟨-, -, rfl⟩ | ⟨-, w, s1, h1, h2 | ⟨o, s2, b, s3, h2, h3, -, -, rfl⟩⟩
    · exact ⟨0, rfl, rfl, rfl, rfl, rfl⟩
    · obtain ⟨-, reads, evs, -, -, -, -, hproduced, -⟩ := failed_accesses h1 h2
      exact hproduced.only
    · obtain ⟨reads, evs, -, -, -, -, hproduced, -⟩ := checked_accesses h1 h2 h3
      exact hproduced.only.trans ⟨0, rfl, rfl, rfl, rfl, rfl⟩
  | fault r => trivial
  | refused r => trivial

/-- An ACQ command writes neither region when its micro-operations and its ending do not. -/
theorem settleAcq_onlyProduced {α : Type} {m : Micro α} {k : α → State → State} {s t : State}
    (hm : m.Post (fun _ => OnlyProduced s) (fun _ => OnlyProduced s))
    (hs : settleAcq m k = .next t) (hk : ∀ a u, ProducedFrom u 0 (k a u)) : OnlyProduced s t := by
  rcases settleAcq_eq_next.mp hs with ⟨a, u, rfl, rfl⟩ | ⟨c, u, rfl, hexit⟩
  · exact OnlyProduced.trans hm (hk a u).only
  · exact OnlyProduced.trans hm (exitAcq_produced hexit).only

theorem refuseInState_onlyProduced {s t : State} (hs : refuseInState s = .next t) : OnlyProduced s t := by
  obtain rfl := Host.Outcome.next.inj hs
  exact ⟨0, rfl, rfl, rfl, rfl, rfl⟩

theorem packerCommand_onlyProduced {m : State → Micro Unit} {s t : State} (hm : (m s).Reads s 0)
    (hs : packerCommand m s = .next t) : OnlyProduced s t := by
  unfold packerCommand at hs
  split_ifs at hs
  · exact refuseInState_onlyProduced hs
  · exact settleAcq_onlyProduced (hm.produced.mono (fun _ _ h => h.only) (fun _ _ h => h.only)) hs
      fun _ _ => ⟨rfl, rfl, rfl, rfl, rfl⟩

theorem execAcqPoll_onlyProduced {s t : State} (hs : execAcqPoll s = .next t) : OnlyProduced s t := by
  unfold execAcqPoll at hs
  split_ifs at hs
  · exact settleAcq_onlyProduced (poll_onlyProduced s) hs fun _ _ => ⟨rfl, rfl, rfl, rfl, rfl⟩
  · exact refuseInState_onlyProduced hs

theorem execAcqRun_onlyProduced {s t : State} (hs : execAcqRun s = .next t) : OnlyProduced s t := by
  have hpoll := poll_onlyProduced s
  unfold execAcqRun at hs
  split_ifs at hs
  · rcases acqRunPoll_eq_next.mp hs with ⟨n, u, hu, rfl⟩ | ⟨c, u, hu, hexit⟩
    · rw [hu] at hpoll
      exact OnlyProduced.trans hpoll ⟨0, rfl, rfl, rfl, rfl, rfl⟩
    · rw [hu] at hpoll
      have ended : ProducedFrom u 0 (endAcqRun u) := ⟨rfl, rfl, rfl, rfl, rfl⟩
      exact OnlyProduced.trans hpoll (ended.trans (exitAcq_produced hexit)).only
  · exact refuseInState_onlyProduced hs

theorem execAcqStop_onlyProduced {s t : State} (hs : execAcqStop s = .next t) : OnlyProduced s t := by
  unfold execAcqStop at hs
  split_ifs at hs
  · have flagged : ProducedFrom s 0 { s with acq := { s.acq with fCancelled := true } } := ⟨rfl, rfl, rfl, rfl, rfl⟩
    exact (flagged.trans (exitAcq_produced hs)).only
  · exact refuseInState_onlyProduced hs

theorem execReset_produced {s t : State} (hs : execReset s = .next t) : ProducedFrom s 0 t := by
  unfold execReset at hs
  dsimp only at hs
  split_ifs at hs
  all_goals
    obtain rfl := Host.Outcome.next.inj hs
    exact ⟨rfl, rfl, rfl, rfl, rfl⟩

/-- ACQ.INIT apart, no command writes either region (20_memory.md R61, R74). -/
theorem exec_onlyProduced {i : Instr} {s t : State} (hne : i ≠ .acqInit) (hs : exec i s = .next t) :
    OnlyProduced s t := by
  cases i with
  | acqInit => exact absurd rfl hne
  | reset => exact (execReset_produced hs).only
  | acqPoll => exact execAcqPoll_onlyProduced hs
  | acqCancel =>
    obtain rfl := Host.Outcome.next.inj hs
    exact ⟨0, rfl, rfl, rfl, rfl, rfl⟩
  | acqStop => exact execAcqStop_onlyProduced hs
  | acqRun => exact execAcqRun_onlyProduced hs
  | packAdd b => exact packerCommand_onlyProduced (packBit_reads b s) hs
  | packFlush => exact packerCommand_onlyProduced (packFlush_reads s) hs
  | packClose => exact packerCommand_onlyProduced (packClose_reads s) hs
  | unpkGet | decReset | decBit _ | decRun | rdsr _ => exact (exec_decUnit rfl (by simp) hs).produced.only

/-- Settles O20: a read of a region gives the producer its next batch, and nothing else a command does touches a
region. -/
theorem onlyTheProducerWrites : Obligations.OnlyTheProducerWrites := by
  intro i s t hne hs
  obtain ⟨k, hproduced⟩ := exec_onlyProduced hne hs
  exact ⟨k, hproduced.schedule, hproduced.shared, hproduced.ctrl⟩

/-! ### A counter that is not a multiple of 4 -/

theorem ctrlRead_misaligned {w : CtrlWord} {s : State} (hq : s.env.schedule = [])
    (hv : (ctrlValue s.cfg s.env w).toNat % 4 ≠ 0) :
    ctrlRead w s = .refused (.counterMisaligned w (ctrlValue s.cfg s.env w)) := by
  unfold ctrlRead
  rw [producerTurn_quiet hq]
  exact if_neg hv

theorem ctrlRead_aligned {w : CtrlWord} {s : State} (hq : s.env.schedule = [])
    (hv : (ctrlValue s.cfg s.env w).toNat % 4 = 0) :
    ctrlRead w s =
      .done (ctrlValue s.cfg s.env w) (s.logEvent (.ctrlRead w (ctrlValue s.cfg s.env w))) := by
  unfold ctrlRead
  rw [producerTurn_quiet hq]
  exact if_pos hv

/-- Without a cancellation a poll begins with its snapshot (40_ring_consumer.md R111, R112). -/
theorem poll_not_cancelled {s : State} (h : s.acq.cancel = false) :
    poll s = (ctrlRead .after s).bind pollFrom := by
  unfold poll rbCancelChk
  rw [h]
  rfl

/-- A refusal of the poll refuses the command (93_implementation_defined.md U3). -/
theorem exec_of_poll_refused {s : State} {r : Refusal} (hrun : s.acq.acqState = .running)
    (h : poll s = .refused r) : exec .acqPoll s = .refused r ∧ exec .acqRun s = .refused r := by
  rw [exec, exec, execAcqPoll, execAcqRun, if_pos hrun, if_pos hrun, acqRunPoll, h]
  exact ⟨rfl, rfl⟩

/-- In a quiet environment a poll whose data phase is done takes its look at BEFORE as it stood at the start
(40_ring_consumer.md R110). -/
theorem pollFrom_before_misaligned {s : State} {w : Word} (hq : s.env.schedule = [])
    (hdone : ∃ o t, spanLoop (rbSpans (capBytes s.cfg) s.acq.lastRead w) s.acq.lastRead (barrier s) = .done o t)
    (hb : (ctrlValue s.cfg s.env .before).toNat % 4 ≠ 0) :
    pollFrom w s = .refused (.counterMisaligned .before (ctrlValue s.cfg s.env .before)) := by
  obtain ⟨o, t, hspans⟩ := hdone
  have data := spanLoop_reads (rbSpans (capBytes s.cfg) s.acq.lastRead w) s.acq.lastRead (barrier s)
  rw [hspans] at data
  obtain ⟨reads, evs, -, hdata⟩ := data
  have advanced : ProducedFrom t 0 (pollChecked s.cfg s.acq.lastRead w t) := ⟨rfl, rfl, rfl, rfl, rfl⟩
  have checked := ((logEvent_produced s .barrier).trans hdata.produced).trans advanced
  have quiet : (pollChecked s.cfg s.acq.lastRead w t).env.schedule = [] := by
    rw [checked.schedule, hq, List.drop_nil]
  have look := ctrlRead_misaligned (w := .before) quiet
  rw [checked.ctrlValue_quiet hq] at look
  unfold pollFrom
  dsimp only
  rw [hspans, Micro.bind_done]
  exact congrArg (Micro.bind · _) (look hb)

/-- Settles O27: in a quiet environment AFTER is read as it stands, and BEFORE too once the data phase is done,
which it is with a sink that accepts everything or is not written. -/
theorem misalignedCounterRefused : Obligations.MisalignedCounterRefused := by
  intro s hrun hcancel hq w b
  have opening := poll_not_cancelled hcancel
  constructor
  · intro hw
    rw [ctrlRead_misaligned hq hw] at opening
    exact exec_of_poll_refused hrun opening
  · intro hinv hw hb hsink
    rw [ctrlRead_aligned hq hw, Micro.bind_done] at opening
    refine exec_of_poll_refused hrun (opening.trans (pollFrom_before_misaligned hq ?_ hb))
    obtain ⟨o, t, hdone, -⟩ := (spanLoop_faultFree (E := False) s.acq.lastRead
      (s := barrier (s.logEvent (.ctrlRead .after w))) (hinv.spansInside hrun hw) (.inr hsink)).isDone
    exact ⟨o, t, hdone⟩

/-! ### A stream that breaks the interface -/

/-- A closing flush that is refused refuses the close (41_bit_packer_unpacker.md R142). -/
theorem packClose_refused {s : State} {n : Nat} (h : s.env.sinkTape.head? = some n)
    (h0 : s.acq.pkBatch ≠ []) (hn : s.acq.pkBatch.length < n) :
    packClose s = .refused (.sinkOverAccepts n) := by
  unfold packClose
  rw [packFlush_refused h h0 hn, Micro.bind_refused]

/-- The close of a cancellation that is refused refuses the exit sequence (60_exceptions.md R232). -/
theorem exitAcq_cancelled_refused {s : State} {r : Refusal} (h : packClose s = .refused r) :
    exitAcq .cancelled s = .refused r := by
  unfold exitAcq
  rw [if_pos (.inl rfl), h]

/-- A poll that sees `cancel` raises CANCELLED before any access (40_ring_consumer.md R111). -/
theorem poll_cancelled {s : State} (h : s.acq.cancel = true) :
    poll s = .raised .cancelled { s with acq := { s.acq with fCancelled := true } } := by
  unfold poll rbCancelChk
  rw [if_pos h, Micro.bind_raised]

/-- What PACK.ADD does with the bit that fills the batch (41_bit_packer_unpacker.md R140). -/
theorem packBit_fills {s : State} (b : Bool) (hbits : s.acq.pkNbits + 1 = 32)
    (hwords : s.acq.pkBatch.length + 1 = s.cfg.batchWords) :
    packBit b s = packFlush { s with acq := { s.acq with
      pkBatch := s.acq.pkBatch ++ [shiftIn s.acq.pkWord b], pkWord := 0, pkNbits := 0 } } := by
  unfold packBit
  rw [if_pos hbits]
  exact if_pos (by rw [List.length_append]; exact hwords)

theorem packerCommand_refused {m : State → Micro Unit} {s : State} {r : Refusal}
    (hlive : s.acq.acqState ≠ .stopped) (h : m s = .refused r) : packerCommand m s = .refused r := by
  unfold packerCommand
  rw [if_neg hlive, h]
  rfl

/-- Data of an impossible length is refused by name (93_implementation_defined.md U8; log 9). -/
theorem sourceRead_refused {max : Nat} {s : State} {ws : List Word}
    (h : s.env.sourceTape.head? = some (.data ws)) (hlen : ws = [] ∨ max < ws.length) :
    sourceRead max s = .refused (.sourceDataLength ws.length) := by
  have answer : s.env.sourceTape.headD .eos = .data ws := by rw [List.headD_eq_head?_getD, h]; rfl
  have impossible : ¬ (1 ≤ ws.length ∧ ws.length ≤ max) := by
    rcases hlen with rfl | hlen
    · simp
    · omega
  unfold sourceRead
  rw [answer]
  exact if_neg impossible

/-- UNPK.GET is refused with its refill (41_bit_packer_unpacker.md R144, R145). -/
theorem unpkBit_refused {s : State} {r : Refusal} (heos : s.dec.upEos = false) (hleft : s.dec.upNleft = 0)
    (hidx : s.dec.upWidx = s.dec.upBatch.length) (h : sourceRead s.cfg.batchWords s = .refused r) :
    unpkBit s = .refused r := by
  unfold unpkBit unpkRefill
  rw [heos, if_neg (by decide), if_pos hleft, if_pos hidx, h]
  rfl

/-- Settles O28: the sink's answer refuses the flush, and the flush every command that makes it; the source's
answer refuses the refill, and the refill UNPK.GET. -/
theorem brokenInterfaceRefused : Obligations.BrokenInterfaceRefused := by
  intro s
  refine ⟨fun n htape hlive => ⟨fun h0 hn => ⟨?_, ?_, fun hrun => ⟨?_, fun hcancel => ?_⟩⟩, ?_⟩, ?_⟩
  · exact packerCommand_refused hlive (packFlush_refused htape h0 hn)
  · exact packerCommand_refused hlive (packClose_refused htape h0 hn)
  · rw [exec, execAcqStop, if_pos hrun]
    exact exitAcq_cancelled_refused (packClose_refused htape h0 hn)
  · rw [exec, exec, execAcqPoll, execAcqRun, if_pos hrun, if_pos hrun, acqRunPoll, poll_cancelled hcancel]
    exact ⟨exitAcq_cancelled_refused (packClose_refused htape h0 hn),
      exitAcq_cancelled_refused (packClose_refused htape h0 hn)⟩
  · intro hbits hwords hn b
    refine packerCommand_refused hlive ((packBit_fills b hbits hwords).trans ?_)
    exact packFlush_refused htape (by simp) (by simpa [hwords] using hn)
  · intro ws hready heos hleft hidx htape hlen
    have refused := unpkBit_refused heos hleft hidx (sourceRead_refused htape hlen)
    rw [exec, exec, execUnpkGet, execDecRun, if_pos hready, if_pos hready, decRunFetch, refused]
    exact ⟨rfl, rfl⟩

/-! ### The length of a poll -/

theorem spanBytes_of_inside {cap : Nat} {spans : List (Nat × Nat)} (h : ∀ sp ∈ spans, SpanInside cap sp) :
    spanBytes spans = 4 * (spans.map samplesIn).sum := by
  induction spans with
  | nil => rfl
  | cons sp rest ih =>
    obtain ⟨⟨hb, he, -⟩, hrest⟩ := List.forall_mem_cons.mp h
    have whole : sp.2 - sp.1 = 4 * samplesIn sp := by
      unfold samplesIn
      omega
    rw [spanBytes, ih hrest, whole, List.map_cons, List.sum_cons, Nat.mul_add]

/-- The spans of a poll are no longer than the region (40_ring_consumer.md R113). -/
theorem spanBytes_rbSpans_le {cap : Nat} (hpos : 0 < cap) (l w : Word) : spanBytes (rbSpans cap l w) ≤ cap := by
  have := Nat.mod_lt l.toNat hpos
  have := Nat.mod_lt w.toNat hpos
  unfold rbSpans
  split_ifs
  · simp only [spanBytes]
    omega
  · simp only [spanBytes]
    omega

/-! ### The producer's contract -/

/-- The control region shows the producer's logical counters, mod 2^32 (40_ring_consumer.md R121). -/
def CountersShow (cfg : Config) (e : Env) (g : ProducerLog) : Prop :=
  ctrlValue cfg e .before = BitVec.ofNat 32 g.before ∧ ctrlValue cfg e .after = BitVec.ofNat 32 g.after

/-- A logical write and the write that the block sees keep the counters shown (20_memory.md R75, R77). -/
theorem CountersShow.write {cfg : Config} {e : Env} {g : ProducerLog} (hl : ctrlLayoutOk cfg)
    (h : CountersShow cfg e g) (x : LogicalWrite) :
    CountersShow cfg (applyProdWrite cfg e x.concrete) (g.next x) := by
  obtain ⟨hbefore, hafter⟩ := h
  cases x with
  | sample k v => exact ⟨(ctrlValue_congr _ rfl rfl).trans hbefore, (ctrlValue_congr _ rfl rfl).trans hafter⟩
  | before n =>
    obtain ⟨-, -, hwritten, -, hothers⟩ := readSeesLatestProducerWrite cfg e (BitVec.ofNat 32 n)
    exact ⟨hwritten, ((hothers hl .after).1 (by decide)).trans hafter⟩
  | after n =>
    obtain ⟨-, -, -, hwritten, hothers⟩ := readSeesLatestProducerWrite cfg e (BitVec.ofNat 32 n)
    exact ⟨((hothers hl .before).2 (by decide)).trans hbefore, hwritten⟩

theorem CountersShow.writes {cfg : Config} (hl : ctrlLayoutOk cfg) (xs : List LogicalWrite) {e : Env}
    {g : ProducerLog} (h : CountersShow cfg e g) :
    CountersShow cfg ((xs.map LogicalWrite.concrete).foldl (applyProdWrite cfg) e)
      (xs.foldl ProducerLog.next g) := by
  induction xs generalizing e g with
  | nil => exact h
  | cons x xs ih => exact ih (h.write hl x)

/-- After `k` batches the control region shows the log after `k` batches (log 4). -/
theorem CountersShow.batches {s t : State} {g : ProducerLog} {batches : List (List LogicalWrite)} {k : Nat}
    (hl : ctrlLayoutOk s.cfg) (h : CountersShow s.cfg s.env g)
    (hsched : s.env.schedule = batches.map fun b => b.map LogicalWrite.concrete)
    (ht : ProducedFrom s k t) : CountersShow t.cfg t.env (logAfter g batches k) := by
  have performed : producedEnv s k =
      (((batches.take k).flatten).map LogicalWrite.concrete).foldl (applyProdWrite s.cfg) s.env := by
    rw [producedEnv, hsched, ← List.map_take, List.map_flatten]
  have epoch : (producedEnv s k).ctrlEpoch = s.env.ctrlEpoch := by
    obtain ⟨sh, ct, hp⟩ := foldl_applyProdWrite_spec s.cfg (s.env.schedule.take k).flatten s.env
    rw [producedEnv, hp]
  have shown : CountersShow s.cfg (producedEnv s k) (logAfter g batches k) :=
    performed ▸ h.writes hl (batches.take k).flatten
  have same := fun w => ctrlValue_congr (cfg := s.cfg) w ht.ctrl (ht.ctrlEpoch.trans epoch.symm)
  rw [ht.cfg]
  exact ⟨(same .before).trans shown.1, (same .after).trans shown.2⟩

theorem contractKept_append (g : ProducerLog) (xs ys : List LogicalWrite) :
    contractKept g (xs ++ ys) ↔ contractKept g xs ∧ contractKept (xs.foldl ProducerLog.next g) ys := by
  induction xs generalizing g with
  | nil => simp [contractKept]
  | cons x xs ih => simp [contractKept, ih, and_assoc]

/-- Logical BEFORE never decreases (20_memory.md R75). -/
theorem before_le_of_contractKept {g : ProducerLog} {xs : List LogicalWrite} (h : contractKept g xs) :
    g.before ≤ (xs.foldl ProducerLog.next g).before := by
  induction xs generalizing g with
  | nil => exact le_rfl
  | cons x xs ih =>
    obtain ⟨hx, hxs⟩ := h
    have first : g.before ≤ (g.next x).before := by
      cases x with
      | before n => exact hx.1
      | sample _ _ | after _ => exact le_rfl
    exact first.trans (ih hxs)

/-- Logical BEFORE after more batches is no less (20_memory.md R75). -/
theorem logAfter_before_mono {g : ProducerLog} {batches : List (List LogicalWrite)}
    (h : contractKept g batches.flatten) {j k : Nat} (hjk : j ≤ k) :
    (logAfter g batches j).before ≤ (logAfter g batches k).before := by
  obtain ⟨d, rfl⟩ := Nat.exists_eq_add_of_le hjk
  have split : batches.flatten = (batches.take j).flatten ++
      (((batches.drop j).take d).flatten ++ ((batches.drop j).drop d).flatten) := by
    rw [← List.flatten_append, ← List.flatten_append, List.take_append_drop, List.take_append_drop]
  rw [split, contractKept_append, contractKept_append] at h
  unfold logAfter
  rw [List.take_add, List.flatten_append, List.foldl_append]
  exact before_le_of_contractKept h.2.1

/-! ### A poll that answers RC_OK -/

/-- The exit sequence answers RC_EXIT (60_exceptions.md R232). -/
theorem exitAcq_responds {c : Cause} {s t : State} (hs : exitAcq c s = .next t) :
    ∃ v, t.port.responses = s.port.responses ++ [{ rc := .exit, val := v }] := by
  have frame := packClose_frame s
  rcases exitAcq_spec hs with ⟨-, ⟨u, hu, rfl⟩ | ⟨u, hu, rfl⟩⟩ | ⟨-, -, rfl⟩
  · rw [hu] at frame
    exact ⟨_, by rw [leaveAcq_port, DataFrame.port frame]⟩
  · rw [hu] at frame
    exact ⟨_, by rw [leaveAcq_port, frame.2.port]⟩
  · exact ⟨_, by rw [leaveAcq_port]⟩

/-- ACQ.POLL answers RC_OK exactly when its poll is done, with the bytes consumed (40_ring_consumer.md R110). -/
theorem execAcqPoll_answers_ok {s t : State} {v : Word} (hrun : s.acq.acqState = .running)
    (hs : exec .acqPoll s = .next t)
    (hok : t.port.responses = s.port.responses ++ [{ rc := .ok, val := v }]) :
    ∃ n u, poll s = .done n u ∧ t = u.respond .ok (BitVec.ofNat 32 n) ∧ v = BitVec.ofNat 32 n := by
  rw [exec, execAcqPoll, if_pos hrun, settleAcq_eq_next] at hs
  have frame := poll_frame s
  rcases hs with ⟨n, u, hpoll, rfl⟩ | ⟨c, u, hpoll, hexit⟩
  · rw [hpoll] at frame
    rw [respond_port, PollFrame.port frame] at hok
    exact ⟨n, u, hpoll, rfl, by simpa using hok.symm⟩
  · rw [hpoll] at frame
    obtain ⟨x, hx⟩ := exitAcq_responds hexit
    rw [frame.2.port, hok] at hx
    simp at hx

/-- Settles O33: the control region shows the producer's log at each batch, so the two counters read are the
logical ones; and logical BEFORE never decreases, so what bounds it at the end bounds it at each MemRead. -/
theorem lossFreeWhenBeforeIsNear : Obligations.LossFreeWhenBeforeIsNear := by
  intro s t batches g l n hinv hrun _ hbefore hafter hsched hkept hs hn hok
  have hcfg := hinv.runningCfg hrun
  obtain ⟨-, hmin, hmax⟩ := acqCfgOk_capacity hcfg
  obtain ⟨n', u, hpoll, rfl, hval⟩ := execAcqPoll_answers_ok hrun hs hok
  obtain ⟨-, w, s1, o, s2, b, h1, h2, h3, -, hn'⟩ := poll_done hpoll
  obtain ⟨reads, evs, -, -, -, hlen, hproduced, hlast⟩ := checked_accesses h1 h2 h3
  obtain ⟨snapshot, hw, hacq, -⟩ := ctrlRead_done h1
  obtain ⟨-, hb, -, htrace⟩ := ctrlRead_done h3
  obtain ⟨-, haligned, -⟩ := ctrlRead_spec h1
  rw [snapshot.cfg, hacq] at hn'
  have bytes : n' = 4 * reads.length := by
    rw [hn', hlen, spanBytes_of_inside (hinv.spansInside hrun haligned)]
  have same : n = n' := by
    have small : n' ≤ capBytes s.cfg := hn' ▸ spanBytes_rbSpans_le (by omega) _ _
    have := congrArg BitVec.toNat hval
    rw [BitVec.toNat_ofNat, BitVec.toNat_ofNat] at this
    omega
  have count : n / 4 + 2 = reads.length + 2 := by omega
  have layout := acqCfgOk_layout hcfg
  have atSnapshot := CountersShow.batches layout ⟨hbefore, hafter⟩ hsched snapshot
  have atLook := CountersShow.batches layout ⟨hbefore, hafter⟩ hsched hproduced
  rw [count]
  refine ⟨hproduced.schedule, hlast.trans (hw.trans atSnapshot.2), ?_, fun hnear j hj => ?_⟩
  · rw [respond_env, htrace, List.getLast?_concat, hb, atLook.1]
  · calc (logAfter g batches (j + 2)).before
      _ ≤ (logAfter g batches (reads.length + 2)).before := logAfter_before_mono hkept (by omega)
      _ ≤ l + capBytes s.cfg := hnear
      _ ≤ l + 4 * j + capBytes s.cfg := by omega

end Sys2Proof.Machine

/-! Encoding (statements O1 to O4): what an operand form reads, what the decoder answers for each word, and
what a step makes of the first command word on the port. -/

namespace Sys2Proof

/-! ### Operands -/

/-- The map lists exactly the numbers of 10_state.md R41. -/
theorem statusReg?_isSome (n : Byte) : (statusReg? n).isSome = statusNumberListed n := by
  revert n; decide

/-- An operand of one bit is a word with bits 31:1 zero (30_encoding.md R92). -/
theorem eq_bit_iff {arg : Word} (b : Bool) :
    arg = BitVec.ofNat 32 b.toNat ↔ arg.extractLsb' 1 31 = 0 ∧ arg.getLsbD 0 = b := by
  have high : arg.extractLsb' 1 31 = 0 ↔ arg.toNat / 2 = 0 := by
    have := arg.isLt
    rw [← BitVec.toNat_inj, BitVec.extractLsb'_toNat, Nat.shiftRight_eq_div_pow]
    show _ % _ = 0 ↔ _
    omega
  have low : arg.getLsbD 0 = b ↔ arg.toNat % 2 = b.toNat := by
    rw [BitVec.getLsbD, Nat.testBit_zero]
    cases b <;> simp
  have := Bool.toNat_lt b
  rw [high, low, ← BitVec.toNat_inj, BitVec.toNat_ofNat]
  omega

/-- A register number is a word with bits 31:8 zero (30_encoding.md R92). -/
theorem eq_number_iff {arg : Word} (n : Byte) :
    arg = n.zeroExtend 32 ↔ arg.extractLsb' 8 24 = 0 ∧ arg.extractLsb' 0 8 = n := by
  have := arg.isLt
  have := n.isLt
  simp only [← BitVec.toNat_inj, BitVec.extractLsb'_toNat, Nat.shiftRight_eq_div_pow,
    BitVec.truncate_eq_setWidth, BitVec.toNat_setWidth]
  show _ ↔ _ = 0 ∧ _
  omega

namespace OperandForm

theorem read_none {arg : Word} {i j : Instr} : read arg (.none j) = .ok i ↔ arg = 0 ∧ j = i := by
  show (if arg = 0 then Except.ok j else Except.error (Illegal.reservedBits arg)) = .ok i ↔ _
  split_ifs with h
  · rw [Except.ok.injEq, and_iff_right h]
  · exact ⟨nofun, fun h' => absurd h'.1 h⟩

theorem read_bit {arg : Word} {i : Instr} {make : Bool → Instr} :
    read arg (.bit make) = .ok i ↔ ∃ b, arg = BitVec.ofNat 32 b.toNat ∧ make b = i := by
  simp only [eq_bit_iff, and_assoc, exists_and_left, exists_eq_left']
  unfold read
  dsimp only
  split_ifs with h
  · rw [Except.ok.injEq, and_iff_right h]
  · exact ⟨nofun, fun h' => absurd h'.1 h⟩

theorem read_number {arg : Word} {i : Instr} {make : Byte → Instr} :
    read arg (.number make) = .ok i ↔
      ∃ n, arg = n.zeroExtend 32 ∧ statusNumberListed n = true ∧ make n = i := by
  simp only [eq_number_iff, and_assoc, exists_and_left, exists_eq_left', ← statusReg?_isSome]
  unfold read
  dsimp only
  split_ifs with h
  · cases hn : statusReg? (arg.extractLsb' 0 8) with
    | some r => simp [h]
    | none => simp
  · exact ⟨nofun, fun h' => absurd h'.1 h⟩

end OperandForm

/-- The operand form of a command's row in the opcode map (30_encoding.md R91, R92). -/
def Instr.form : Instr → OperandForm
  | .packAdd _ => .bit .packAdd
  | .decBit _ => .bit .decBit
  | .rdsr _ => .number .rdsr
  | .reset => .none .reset
  | .acqInit => .none .acqInit
  | .acqPoll => .none .acqPoll
  | .acqCancel => .none .acqCancel
  | .acqStop => .none .acqStop
  | .acqRun => .none .acqRun
  | .packFlush => .none .packFlush
  | .packClose => .none .packClose
  | .unpkGet => .none .unpkGet
  | .decReset => .none .decReset
  | .decRun => .none .decRun

/-- Each command has a row in the opcode map. -/
theorem opcodeTable_lookup_opcode (i : Instr) : opcodeTable.lookup i.opcode = some i.form := by
  cases i <;> rfl

/-- A command's own form reads it from its own operand, if it is well formed, and from no other word. -/
theorem Instr.read_form (i : Instr) (arg : Word) :
    i.form.read arg = .ok i ↔ i.wellFormed = true ∧ arg = i.arg := by
  cases i with
  | packAdd b | decBit b => simp [form, wellFormed, Instr.arg, OperandForm.read_bit]
  | rdsr n => simp [form, wellFormed, Instr.arg, OperandForm.read_number, and_comm]
  | _ => simp [form, wellFormed, Instr.arg, OperandForm.read_none]

/-- Every command that a form makes has this opcode. -/
def OperandForm.HasOpcode (op : Byte) : OperandForm → Prop
  | .none i => i.opcode = op
  | .bit make => ∀ b, (make b).opcode = op
  | .number make => ∀ n, (make n).opcode = op

theorem OperandForm.HasOpcode.opcode_of_read {op : Byte} {form : OperandForm} (h : form.HasOpcode op)
    {arg : Word} {i : Instr} (hread : form.read arg = .ok i) : i.opcode = op := by
  cases form with
  | none j =>
    obtain ⟨-, rfl⟩ := read_none.mp hread
    exact h
  | bit make =>
    obtain ⟨b, -, rfl⟩ := read_bit.mp hread
    exact h b
  | number make =>
    obtain ⟨n, -, -, rfl⟩ := read_number.mp hread
    exact h n

/-- Each row of the opcode map makes commands of its own opcode only (30_encoding.md R91). -/
theorem opcodeTable_hasOpcode : ∀ row ∈ opcodeTable, row.2.HasOpcode row.1 := by
  simp [opcodeTable, OperandForm.HasOpcode, Instr.opcode]

theorem decode_eq_ok {w : CmdWord} {i : Instr} :
    decode w = .ok i ↔
      ∃ form, opcodeTable.lookup (CmdWord.op w) = some form ∧ form.read (CmdWord.arg w) = .ok i := by
  unfold decode
  cases opcodeTable.lookup (CmdWord.op w) <;> simp

/-- Decoding answers a command exactly for the two fields that the command is made of. -/
theorem decode_eq_ok_iff {w : CmdWord} {i : Instr} :
    decode w = .ok i ↔ i.wellFormed = true ∧ CmdWord.op w = i.opcode ∧ CmdWord.arg w = i.arg := by
  rw [decode_eq_ok]
  constructor
  · rintro ⟨form, hform, hread⟩
    obtain ⟨l₁, l₂, hrows, -⟩ := List.lookup_eq_some_iff.mp hform
    have hrow : (CmdWord.op w, form) ∈ opcodeTable := by simp [hrows]
    have hop := (opcodeTable_hasOpcode _ hrow).opcode_of_read hread
    dsimp only at hop
    rw [← hop, opcodeTable_lookup_opcode, Option.some.injEq] at hform
    rw [← hform, Instr.read_form] at hread
    exact ⟨hread.1, hop.symm, hread.2⟩
  · rintro ⟨hwf, hop, harg⟩
    exact ⟨i.form, hop ▸ opcodeTable_lookup_opcode i, (i.read_form _).mpr ⟨hwf, harg⟩⟩

/-- A word is a command's encoding exactly when its two fields are the command's (30_encoding.md R90). -/
theorem eq_encode_iff {w : CmdWord} {i : Instr} :
    w = encode i ↔ CmdWord.op w = i.opcode ∧ CmdWord.arg w = i.arg := by
  constructor
  · rintro rfl
    exact Laws.FieldsOfEncoding.fields i
  · rintro ⟨hop, harg⟩
    rw [encode, ← hop, ← harg, CmdWord.make_op_arg]

/-- Settles O1: each opcode has one row of the map, whose form reads a command from that command's own operand
and from no other. -/
theorem decodeIsInverseOfEncode : Obligations.DecodeIsInverseOfEncode := by
  intro w i
  rw [decode_eq_ok_iff, eq_encode_iff]

/-- Settles O3: the words are closed, so the decoder evaluates on each of them. -/
theorem specWordsDecode : Obligations.SpecWordsDecode := by
  unfold Obligations.SpecWordsDecode
  decide

/-! ### Legal and illegal words -/

theorem CmdWord.op_toNat (w : CmdWord) : (CmdWord.op w).toNat = w.toNat / 2 ^ 32 := by
  have := w.isLt
  rw [CmdWord.op, BitVec.extractLsb'_toNat, Nat.shiftRight_eq_div_pow]
  omega

theorem CmdWord.arg_toNat (w : CmdWord) : (CmdWord.arg w).toNat = w.toNat % 2 ^ 32 := by
  rw [CmdWord.arg, BitVec.extractLsb'_toNat, Nat.shiftRight_zero]

/-- A listed register number, in the low byte of a natural number (10_state.md R41). -/
def ListedLowByte (n : Nat) : Prop :=
  n % 256 ≤ 0x11 ∨ (0x20 ≤ n % 256 ∧ n % 256 ≤ 0x30) ∨ (0x40 ≤ n % 256 ∧ n % 256 ≤ 0x4A)

theorem statusNumberListed_iff {n : Byte} : statusNumberListed n = true ↔ ListedLowByte n.toNat := by
  have := n.isLt
  simp only [statusNumberListed, ListedLowByte, Bool.or_eq_true, Bool.and_eq_true, decide_eq_true_eq]
  omega

/-- The two fields of a legal command word, as numbers, by operand form (30_encoding.md R91 to R93). -/
def LegalFields (op arg : Nat) : Prop :=
  (op ∈ [0x01, 0x10, 0x11, 0x12, 0x13, 0x14, 0x21, 0x22, 0x30, 0x40, 0x42] ∧ arg = 0) ∨
  (op ∈ [0x20, 0x41] ∧ arg / 2 = 0) ∨
  (op = 0x50 ∧ arg / 256 = 0 ∧ ListedLowByte arg)

theorem Instr.legalFields {i : Instr} (h : i.wellFormed = true) :
    LegalFields i.opcode.toNat i.arg.toNat := by
  cases i with
  | packAdd b | decBit b => exact .inr (.inl ⟨by simp [opcode], by cases b <;> rfl⟩)
  | rdsr n =>
    have hn := n.isLt
    have harg : (Instr.rdsr n).arg.toNat = n.toNat := by
      simp only [Instr.arg, BitVec.truncate_eq_setWidth, BitVec.toNat_setWidth]
      omega
    rw [harg]
    exact .inr (.inr ⟨rfl, Nat.div_eq_of_lt hn, statusNumberListed_iff.mp h⟩)
  | _ => exact .inl ⟨by decide, rfl⟩

theorem LegalFields.exists_instr {op arg : Nat} (h : LegalFields op arg) :
    ∃ i : Instr, i.wellFormed = true ∧ op = i.opcode.toNat ∧ arg = i.arg.toNat := by
  rcases h with ⟨hop, rfl⟩ | ⟨hop, harg⟩ | ⟨rfl, harg, hlisted⟩
  · have rows : ∀ op ∈ [0x01, 0x10, 0x11, 0x12, 0x13, 0x14, 0x21, 0x22, 0x30, 0x40, 0x42],
        ∃ i ∈ [Instr.reset, .acqInit, .acqPoll, .acqCancel, .acqStop, .acqRun, .packFlush, .packClose,
          .unpkGet, .decReset, .decRun],
          i.wellFormed = true ∧ op = i.opcode.toNat ∧ 0 = i.arg.toNat := by decide
    obtain ⟨i, -, hi⟩ := rows op hop
    exact ⟨i, hi⟩
  · obtain ⟨b, rfl⟩ : ∃ b : Bool, arg = b.toNat := by
      obtain rfl | rfl : arg = 0 ∨ arg = 1 := by omega
      · exact ⟨false, rfl⟩
      · exact ⟨true, rfl⟩
    rcases List.mem_pair.mp hop with rfl | rfl
    · exact ⟨.packAdd b, rfl, rfl, by cases b <;> rfl⟩
    · exact ⟨.decBit b, rfl, rfl, by cases b <;> rfl⟩
  · have hn : (BitVec.ofNat 8 arg).toNat = arg := by rw [BitVec.toNat_ofNat]; omega
    refine ⟨.rdsr (BitVec.ofNat 8 arg), statusNumberListed_iff.mpr (hn.symm ▸ hlisted), rfl, ?_⟩
    simp only [Instr.arg, BitVec.truncate_eq_setWidth, BitVec.toNat_setWidth, hn]
    omega

theorem decodes_iff_legalFields (w : CmdWord) :
    (∃ i, decode w = .ok i) ↔ LegalFields (w.toNat / 2 ^ 32) (w.toNat % 2 ^ 32) := by
  simp only [decode_eq_ok_iff, ← BitVec.toNat_inj, CmdWord.op_toNat, CmdWord.arg_toNat]
  constructor
  · rintro ⟨i, hwf, hop, harg⟩
    rw [hop, harg]
    exact Instr.legalFields hwf
  · exact LegalFields.exists_instr

/-- The illegal fields, by what is wrong: the opcode, a reserved bit under each operand form, or the register
number (30_encoding.md R93). -/
theorem not_legalFields_iff {op arg : Nat} :
    ¬ LegalFields op arg ↔
      op ∉ [0x01, 0x10, 0x11, 0x12, 0x13, 0x14, 0x20, 0x21, 0x22, 0x30, 0x40, 0x41, 0x42, 0x50] ∨
      (op ∉ [0x20, 0x41, 0x50] ∧ arg ≠ 0) ∨
      (op ∈ [0x20, 0x41] ∧ arg / 2 ≠ 0) ∨
      (op = 0x50 ∧ arg / 256 ≠ 0) ∨
      (op = 0x50 ∧ (0x12 ≤ arg % 256 ∧ arg % 256 ≤ 0x1F ∨
        0x31 ≤ arg % 256 ∧ arg % 256 ≤ 0x3F ∨ 0x4B ≤ arg % 256)) := by
  simp only [LegalFields, ListedLowByte, List.mem_cons, List.not_mem_nil, or_false]
  omega

end Sys2Proof

namespace Sys2Proof.Machine

/-! ### The first command word on the port -/

/-- An illegal command word is taken from the port and answered (30_encoding.md R93). -/
theorem step_of_illegal {s : State} {w : CmdWord} {rest : List Input}
    (hport : s.port.inputs = .command w :: rest) (hw : ¬ ∃ i, decode w = .ok i) :
    step s = .next (refuseIllegal { s with port := { s.port with inputs := rest } }) := by
  unfold step nextTurn
  cases hd : decode w with
  | ok i => exact absurd ⟨i, hd⟩ hw
  | error e => simp only [hport, hd]

/-- A legal command that no run holds back is taken from the port and runs (30_encoding.md R90). -/
theorem step_of_command {s : State} {w : CmdWord} {rest : List Input} {i : Instr}
    (hport : s.port.inputs = .command w :: rest) (hd : decode w = .ok i) (hfree : heldBack i s = false) :
    step s = exec i { s with port := { s.port with inputs := rest } } := by
  unfold step nextTurn
  simp only [hport, hd, hfree, Bool.false_eq_true, if_false]

/-- The commands that the port does not hold back: those that are never held back, and those of a unit that no
run keeps busy (93_implementation_defined.md U15; log 13). -/
theorem heldBack_eq_false_iff {i : Instr} {s : State} :
    heldBack i s = false ↔
      i ∈ [.reset, .acqCancel, .decReset] ∨ (∃ n, i = .rdsr n) ∨
      ((i ∈ [.acqInit, .acqPoll, .acqStop, .acqRun, .packFlush, .packClose] ∨ ∃ b, i = .packAdd b) ∧
        (s.acq.runActive = false ∨ s.acq.acqState ≠ .running)) ∨
      ((i ∈ [.unpkGet, .decRun] ∨ ∃ b, i = .decBit b) ∧ s.dec.run = .idle) := by
  rw [← acqBusy_eq_false]
  cases i <;> simp [heldBack]

/-- Settles O2: a legal word is one whose fields a well formed command has, and the port answers any other. -/
theorem illegalWordChangesNothing : Obligations.IllegalWordChangesNothing := by
  intro w
  have low : w.toNat % 2 ^ 32 % 256 = w.toNat % 256 := by omega
  refine ⟨?_, fun hw s rest hport => step_of_illegal hport hw⟩
  rw [decodes_iff_legalFields, not_legalFields_iff, low]

/-- Settles O4: the statement's condition is that the port does not hold the command back. -/
theorem stepRunsTheDecodedCommand : Obligations.StepRunsTheDecodedCommand :=
  fun _ _ _ _ hport hd hfree => step_of_command hport hd (heldBack_eq_false_iff.mpr hfree)

end Sys2Proof.Machine

/-! Responses (statements O8 to O10): which commands a state accepts, what each command does to the port and to
the runs in progress, and the count of commands that a step keeps. -/

namespace Sys2Proof.Machine

/-! ### The table of legality by state -/

/-- The condition under which a state accepts a command (30_encoding.md R94). -/
def Accepts (s : State) : Instr → Prop
  | .reset | .acqCancel | .decReset | .rdsr _ => True
  | .acqInit => s.acq.acqState = .idle
  | .acqPoll | .acqStop | .acqRun => s.acq.acqState = .running
  | .packAdd _ | .packFlush | .packClose => s.acq.acqState ≠ .stopped
  | .unpkGet | .decBit _ | .decRun => decReady s = true

theorem decReady_iff {s : State} :
    decReady s = true ↔ s.dec.upIoErr = false ∧ 11 ≤ s.cfg.frameLen ∧
      s.cfg.frameLen ≤ s.cfg.frameLenMax ∧ s.cfg.frameLenMax < 2 ^ 31 ∧ 1 ≤ s.cfg.batchWords := by
  simp [decReady, decCfgOk, and_assoc]

/-- `Accepts` is the table of R94, command by command. -/
theorem accepts_iff {s : State} {i : Instr} :
    Accepts s i ↔
      i ∈ [.reset, .acqCancel, .decReset] ∨ (∃ n, i = .rdsr n) ∨
      (i = .acqInit ∧ s.acq.acqState = .idle) ∨
      (i ∈ [.acqPoll, .acqRun, .acqStop] ∧ s.acq.acqState = .running) ∨
      ((i ∈ [.packFlush, .packClose] ∨ ∃ b, i = .packAdd b) ∧ s.acq.acqState ≠ .stopped) ∨
      ((i ∈ [.unpkGet, .decRun] ∨ ∃ b, i = .decBit b) ∧ s.dec.upIoErr = false ∧
        11 ≤ s.cfg.frameLen ∧ s.cfg.frameLen ≤ s.cfg.frameLenMax ∧ s.cfg.frameLenMax < 2 ^ 31 ∧
        1 ≤ s.cfg.batchWords) := by
  rw [← decReady_iff]
  cases i <;> simp [Accepts]

/-- A command that the state does not accept is refused (30_encoding.md R94). -/
theorem exec_of_not_accepts {s : State} {i : Instr} (h : ¬ Accepts s i) : exec i s = refuseInState s := by
  cases i with
  | reset | acqCancel | decReset | rdsr _ => exact absurd trivial h
  | acqInit | acqPoll | acqStop | acqRun => exact if_neg h
  | packAdd _ | packFlush | packClose => exact if_pos (not_not.mp h)
  | unpkGet | decBit _ | decRun => exact if_neg h

/-! ### What a micro-operation leaves alone -/

/-- The command port and the runs in progress are the same (log 1, 12). -/
structure SameDialogue (s t : State) : Prop where
  port : t.port = s.port
  acqRun : t.acq.runActive = s.acq.runActive
  decRun : t.dec.run = s.dec.run

theorem SameDialogue.refl (s : State) : SameDialogue s s := ⟨rfl, rfl, rfl⟩

theorem SameDialogue.trans {s t u : State} (h : SameDialogue s t) (h' : SameDialogue t u) :
    SameDialogue s u :=
  ⟨h'.port.trans h.port, h'.acqRun.trans h.acqRun, h'.decRun.trans h.decRun⟩

/-- A micro-operation takes no input, gives no response, and starts or ends no run, done or raised. -/
def Micro.KeepsDialogue {α : Type} (s : State) (m : Micro α) : Prop :=
  m.Post (fun _ => SameDialogue s) (fun _ => SameDialogue s)

theorem PollFrame.sameDialogue {s t : State} (h : PollFrame s t) : SameDialogue s t :=
  ⟨h.port, h.runActive, by rw [h.dec]⟩

theorem DataFrame.sameDialogue {s t : State} (h : DataFrame s t) : SameDialogue s t :=
  h.pollFrame.sameDialogue

theorem packFlush_keepsDialogue (s : State) : (packFlush s).KeepsDialogue s :=
  (packFlush_frame s).mono (fun _ _ h => h.sameDialogue) (fun _ _ h => h.2.sameDialogue)

theorem packBit_keepsDialogue (b : Bool) (s : State) : (packBit b s).KeepsDialogue s :=
  (packBit_frame b s).mono (fun _ _ h => h.sameDialogue) (fun _ _ h => h.2.sameDialogue)

theorem packClose_keepsDialogue (s : State) : (packClose s).KeepsDialogue s :=
  (packClose_frame s).mono (fun _ _ h => h.sameDialogue) (fun _ _ h => h.2.sameDialogue)

theorem poll_keepsDialogue (s : State) : (poll s).KeepsDialogue s :=
  (poll_frame s).mono (fun _ _ h => h.sameDialogue) (fun _ _ h => h.2.sameDialogue)

theorem unpkRefill_keepsDialogue (s : State) : (unpkRefill s).KeepsDialogue s := by
  cases hr : unpkRefill s with
  | done more t =>
    rcases unpkRefill_done hr with ⟨ws, -, -, -, -, rfl⟩ | ⟨-, -, rfl⟩
    · exact ⟨rfl, rfl, rfl⟩
    · exact ⟨rfl, rfl, rfl⟩
  | raised c t =>
    obtain ⟨-, -, rfl⟩ := unpkRefill_raised hr
    exact ⟨rfl, rfl, rfl⟩
  | fault r => trivial
  | refused r => trivial

theorem unpkBit_keepsDialogue (s : State) : (unpkBit s).KeepsDialogue s := by
  unfold unpkBit
  split_ifs
  · exact SameDialogue.refl s
  · refine (unpkRefill_keepsDialogue s).bind fun more u hu => ?_
    split_ifs
    · exact hu.trans ⟨rfl, rfl, rfl⟩
    · exact hu
  · exact ⟨rfl, rfl, rfl⟩
  · exact ⟨rfl, rfl, rfl⟩

theorem syncBit_keepsDialogue (f : SyncFields) (b : Bool) (off : DWord) (s : State) :
    (syncBit f b off s).KeepsDialogue s := by
  cases hb : syncBit f b off s with
  | done ev t =>
    rcases syncBit_done hb with ⟨-, -, -, -, -, -, rfl⟩ | ⟨-, -, rfl⟩
    · exact ⟨rfl, rfl, rfl⟩
    · exact ⟨rfl, rfl, rfl⟩
  | raised c t => exact absurd hb (syncBit_not_raised _ _ _ _ _ _)
  | fault r => trivial
  | refused r => trivial

theorem frmBit_keepsDialogue (f : DecodeFields) (b : Bool) (s : State) :
    (frmBit f b s).KeepsDialogue s := by
  obtain ⟨ev, t, hb⟩ := frmBit_is_done f b s
  rw [hb]
  rcases frmBit_done hb with ⟨-, -, rfl⟩ | ⟨-, -, -, rfl⟩ | ⟨x, j, -, -, -, rfl⟩ | ⟨x, -, -, -, rfl⟩
  all_goals exact ⟨rfl, rfl, rfl⟩

theorem decodeBit_keepsDialogue (b : Bool) (s : State) : (decodeBit b s).KeepsDialogue s := by
  have counted : ∀ {t}, SameDialogue { s with dec := { s.dec with bitOffset := s.dec.bitOffset + 1 } } t →
      SameDialogue s t := fun h => ⟨h.port, h.acqRun, h.decRun⟩
  unfold decodeBit
  dsimp only
  split
  case h_1 f _ => exact (syncBit_keepsDialogue f b _ _).mono (fun _ _ => counted) (fun _ _ => counted)
  case h_2 f _ => exact (frmBit_keepsDialogue f b _).mono (fun _ _ => counted) (fun _ _ => counted)

/-! ### One response -/

/-- One response was added, not RC_ILLEGAL_STATE; no input was taken, and no run started or ended. -/
structure Answered (s t : State) : Prop where
  port : ∃ r : Response, r.rc ≠ .illegalState ∧
    t.port = { s.port with responses := s.port.responses ++ [r] }
  acqRun : t.acq.runActive = s.acq.runActive
  decRun : t.dec.run = s.dec.run

theorem SameDialogue.answered {s t u : State} (h : SameDialogue s t) (h' : Answered t u) : Answered s u where
  port := h.port ▸ h'.port
  acqRun := h'.acqRun.trans h.acqRun
  decRun := h'.decRun.trans h.decRun

theorem respond_answered (s : State) {rc : RespCode} (v : Word) (hrc : rc ≠ .illegalState) :
    Answered s (s.respond rc v) :=
  ⟨⟨⟨rc, v⟩, hrc, rfl⟩, rfl, rfl⟩

theorem respond_ok_answered (s : State) (v : Word) : Answered s (s.respond .ok v) :=
  respond_answered s v nofun

theorem leaveAcq_answered (c : Cause) (s : State) : Answered s (leaveAcq c s) :=
  ⟨⟨⟨.exit, c.value⟩, nofun, leaveAcq_port c s⟩, by rw [leaveAcq_acq], by rw [leaveAcq_dec]⟩

/-- The exit sequence of the ACQ unit answers RC_EXIT (60_exceptions.md R232). -/
theorem exitAcq_answered {c : Cause} {s t : State} (hs : exitAcq c s = .next t) : Answered s t := by
  have close := packClose_keepsDialogue s
  rcases exitAcq_spec hs with ⟨-, ⟨u, hu, rfl⟩ | ⟨u, hu, rfl⟩⟩ | ⟨-, -, rfl⟩
  · rw [hu] at close
    exact SameDialogue.answered close (leaveAcq_answered c u)
  · rw [hu] at close
    exact SameDialogue.answered close (leaveAcq_answered .ioErr u)
  · exact leaveAcq_answered c s

theorem exitDec_answered (c : Cause) (s : State) : Answered s (exitDec c s) :=
  ⟨⟨⟨.exit, c.value⟩, nofun, rfl⟩, rfl, rfl⟩

/-- An ACQ command answers once when its micro-operations do not and its ending does. -/
theorem settleAcq_answered {α : Type} {m : Micro α} {k : α → State → State} {s t : State}
    (hm : m.KeepsDialogue s) (hk : ∀ a u, Answered u (k a u)) (hs : settleAcq m k = .next t) :
    Answered s t := by
  rcases settleAcq_eq_next.mp hs with ⟨a, u, rfl, rfl⟩ | ⟨c, u, rfl, hexit⟩
  · exact SameDialogue.answered hm (hk a u)
  · exact SameDialogue.answered hm (exitAcq_answered hexit)

/-- A DEC command answers once when its micro-operations do not and its ending does. -/
theorem settleDec_answered {α : Type} {m : Micro α} {k : α → State → State} {s t : State}
    (hm : m.KeepsDialogue s) (hk : ∀ a u, Answered u (k a u)) (hs : settleDec m k = .next t) :
    Answered s t := by
  rcases settleDec_eq_next.mp hs with ⟨a, u, rfl, rfl⟩ | ⟨c, u, rfl, rfl⟩
  · exact SameDialogue.answered hm (hk a u)
  · exact SameDialogue.answered hm (exitDec_answered c u)

theorem packerCommand_answered {m : State → Micro Unit} {s t : State} (hm : (m s).KeepsDialogue s)
    (hacc : s.acq.acqState ≠ .stopped) (hs : packerCommand m s = .next t) : Answered s t := by
  rw [packerCommand, if_neg hacc] at hs
  exact settleAcq_answered hm (fun _ u => respond_ok_answered u _) hs

theorem execAcqInit_answered {s t : State} (hacc : s.acq.acqState = .idle)
    (hs : execAcqInit s = .next t) : Answered s t := by
  rw [execAcqInit, if_pos hacc] at hs
  split_ifs at hs
  · obtain rfl := Host.Outcome.next.inj hs
    have programmed : SameDialogue s (programProducer { s with acq := clearForInit s.acq }) := ⟨rfl, rfl, rfl⟩
    exact programmed.answered ⟨⟨⟨.ok, 0⟩, nofun, rfl⟩, rfl, rfl⟩
  · have flagged : SameDialogue s { s with acq := { s.acq with fCfgErr := true } } := ⟨rfl, rfl, rfl⟩
    exact flagged.answered (exitAcq_answered hs)

theorem execAcqPoll_answered {s t : State} (hacc : s.acq.acqState = .running)
    (hs : execAcqPoll s = .next t) : Answered s t := by
  rw [execAcqPoll, if_pos hacc] at hs
  exact settleAcq_answered (poll_keepsDialogue s) (fun _ u => respond_ok_answered u _) hs

theorem execAcqStop_answered {s t : State} (hacc : s.acq.acqState = .running)
    (hs : execAcqStop s = .next t) : Answered s t := by
  rw [execAcqStop, if_pos hacc] at hs
  have flagged : SameDialogue s { s with acq := { s.acq with fCancelled := true } } := ⟨rfl, rfl, rfl⟩
  exact flagged.answered (exitAcq_answered hs)

theorem execUnpkGet_answered {s t : State} (hacc : decReady s = true) (hs : execUnpkGet s = .next t) :
    Answered s t := by
  rw [execUnpkGet, if_pos hacc] at hs
  refine settleDec_answered (unpkBit_keepsDialogue s) (fun r u => ?_) hs
  cases r with
  | some b => exact respond_ok_answered u _
  | none => exact respond_answered u 0 nofun

theorem execDecBit_answered {b : Bool} {s t : State} (hacc : decReady s = true)
    (hs : execDecBit b s = .next t) : Answered s t := by
  rw [execDecBit, if_pos hacc] at hs
  exact settleDec_answered (decodeBit_keepsDialogue b s) (fun _ u => respond_ok_answered u _) hs

theorem execReset_answered {s t : State} (hs : execReset s = .next t) : Answered s t := by
  unfold execReset at hs
  dsimp only at hs
  split_ifs at hs
  all_goals
    obtain rfl := Host.Outcome.next.inj hs
    exact ⟨⟨⟨.ok, 0⟩, nofun, rfl⟩, rfl, rfl⟩

theorem execDecReset_answered {s t : State} (hs : execDecReset s = .next t) : Answered s t := by
  unfold execDecReset at hs
  dsimp only at hs
  split_ifs at hs
  · obtain rfl := Host.Outcome.next.inj hs
    exact ⟨⟨⟨.ok, 0⟩, nofun, rfl⟩, rfl, rfl⟩
  · obtain rfl := Host.Outcome.next.inj hs
    exact ⟨⟨⟨.exit, Cause.cfgErr.value⟩, nofun, rfl⟩, rfl, rfl⟩

theorem execRdsr_answered {n : Byte} {s t : State} (hs : execRdsr n s = .next t) : Answered s t := by
  unfold execRdsr at hs
  split at hs
  · obtain rfl := Host.Outcome.next.inj hs
    exact respond_answered s _ nofun
  · obtain rfl := Host.Outcome.next.inj hs
    exact respond_answered s _ nofun

/-- An accepted command answers exactly once, the two that start a run apart (30_encoding.md R95). -/
theorem exec_answered {i : Instr} {s t : State} (hacc : Accepts s i) (hacq : i ≠ .acqRun)
    (hdec : i ≠ .decRun) (hs : exec i s = .next t) : Answered s t := by
  cases i with
  | reset => exact execReset_answered hs
  | acqInit => exact execAcqInit_answered hacc hs
  | acqPoll => exact execAcqPoll_answered hacc hs
  | acqCancel =>
    obtain rfl := Host.Outcome.next.inj hs
    exact ⟨⟨⟨.ok, 0⟩, nofun, rfl⟩, rfl, rfl⟩
  | acqStop => exact execAcqStop_answered hacc hs
  | acqRun => exact absurd rfl hacq
  | packAdd b => exact packerCommand_answered (packBit_keepsDialogue b s) hacc hs
  | packFlush => exact packerCommand_answered (packFlush_keepsDialogue s) hacc hs
  | packClose => exact packerCommand_answered (packClose_keepsDialogue s) hacc hs
  | unpkGet => exact execUnpkGet_answered hacc hs
  | decReset => exact execDecReset_answered hs
  | decBit b => exact execDecBit_answered hacc hs
  | decRun => exact absurd rfl hdec
  | rdsr n => exact execRdsr_answered hs

/-! ### Runs -/

/-- An accepted ACQ.RUN is one step of its run (42_acquisition_loop.md R163). -/
theorem exec_acqRun_of_running {s : State} (h : s.acq.acqState = .running) : exec .acqRun s = acqRunPoll s :=
  if_pos h

/-- An accepted DEC.RUN is one UNPK.GET step of its run (45_decode_driver.md R212). -/
theorem exec_decRun_of_ready {s : State} (h : decReady s = true) : exec .decRun s = decRunFetch s :=
  if_pos h

/-- An ACQ.RUN is in progress. -/
def beginAcqRun (s : State) : State := { s with acq := { s.acq with runActive := true } }

/-- A DEC.RUN is in progress, with this step to come. -/
def withDecRun (r : DecRun) (s : State) : State := { s with dec := { s.dec with run := r } }

/-- A step of ACQ.RUN ends the run with its one response, or leaves it in progress (42_acquisition_loop.md R163). -/
theorem acqRunPoll_dialogue {s t : State} (hs : acqRunPoll s = .next t) :
    Answered (endAcqRun s) t ∨ SameDialogue (beginAcqRun s) t := by
  have frame := poll_keepsDialogue s
  rcases acqRunPoll_eq_next.mp hs with ⟨n, u, hu, rfl⟩ | ⟨c, u, hu, hexit⟩
  · rw [hu] at frame
    exact .inr ⟨frame.port, rfl, frame.decRun⟩
  · rw [hu] at frame
    have ended : SameDialogue (endAcqRun s) (endAcqRun u) := ⟨frame.port, rfl, frame.decRun⟩
    exact .inl (ended.answered (exitAcq_answered hexit))

/-- A UNPK.GET step of DEC.RUN ends the run with its one response, or leaves it in progress
(45_decode_driver.md R212). -/
theorem decRunFetch_dialogue {s t : State} (hs : decRunFetch s = .next t) :
    Answered (endDecRun s) t ∨ ∃ b, SameDialogue (withDecRun (.bit b) s) t := by
  have frame := unpkBit_keepsDialogue s
  have ended : ∀ {u}, SameDialogue s u → SameDialogue (endDecRun s) (endDecRun u) := fun h =>
    ⟨h.port, h.acqRun, rfl⟩
  rcases decRunFetch_eq_next.mp hs with ⟨r, u, hu, rfl⟩ | ⟨c, u, hu, rfl⟩
  · rw [hu] at frame
    cases r with
    | some b => exact .inr ⟨b, frame.port, frame.acqRun, rfl⟩
    | none => exact .inl ((ended frame).answered (respond_answered _ _ nofun))
  · rw [hu] at frame
    exact .inl ((ended frame).answered (exitDec_answered c _))

/-- A DEC.BIT step of DEC.RUN leaves the run in progress (45_decode_driver.md R212). -/
theorem decRunBit_dialogue {b : Bool} {s t : State} (hs : decRunBit b s = .next t) :
    SameDialogue (withDecRun .fetch s) t := by
  have frame := decodeBit_keepsDialogue b s
  rcases settleDec_eq_next.mp hs with ⟨ev, u, hu, rfl⟩ | ⟨c, u, hu, -⟩
  · rw [hu] at frame
    exact ⟨frame.port, frame.acqRun, rfl⟩
  · exact absurd hu (decodeBit_not_raised _ _ _ _)

/-- What an accepted command makes of the dialogue: its one response, or, for the two commands that start a
run, a run left in progress (30_encoding.md R95; log 12). -/
inductive Reply (s : State) : Instr → State → Prop where
  | answered {i : Instr} {t : State} (hacq : i ≠ .acqRun) (hdec : i ≠ .decRun) (h : Answered s t) : Reply s i t
  | acqRunEnds {t : State} (h : Answered (endAcqRun s) t) : Reply s .acqRun t
  | acqRunGoesOn {t : State} (h : SameDialogue (beginAcqRun s) t) : Reply s .acqRun t
  | decRunEnds {t : State} (h : Answered (endDecRun s) t) : Reply s .decRun t
  | decRunGoesOn {t : State} {b : Bool} (h : SameDialogue (withDecRun (.bit b) s) t) : Reply s .decRun t

theorem exec_reply {i : Instr} {s t : State} (hacc : Accepts s i) (hs : exec i s = .next t) :
    Reply s i t := by
  by_cases hacq : i = .acqRun
  · subst hacq
    rw [exec_acqRun_of_running hacc] at hs
    rcases acqRunPoll_dialogue hs with h | h
    · exact .acqRunEnds h
    · exact .acqRunGoesOn h
  by_cases hdec : i = .decRun
  · subst hdec
    rw [exec_decRun_of_ready hacc] at hs
    rcases decRunFetch_dialogue hs with h | ⟨b, h⟩
    · exact .decRunEnds h
    · exact .decRunGoesOn h
  · exact .answered hacq hdec (exec_answered hacc hacq hdec hs)

/-- An accepted command adds at most one response, and none of RC_ILLEGAL_STATE (30_encoding.md R94, R95). -/
theorem Reply.responses {i : Instr} {s t : State} (h : Reply s i t) :
    ∃ rs : List Response, rs.length ≤ 1 ∧ (∀ r ∈ rs, r.rc ≠ .illegalState) ∧
      t.port = { s.port with responses := s.port.responses ++ rs } := by
  cases h with
  | answered _ _ h | acqRunEnds h | decRunEnds h =>
    obtain ⟨r, hr, hport⟩ := h.port
    exact ⟨[r], le_rfl, by simpa using hr, hport⟩
  | acqRunGoesOn h | decRunGoesOn h =>
    exact ⟨[], Nat.zero_le _, nofun, h.port.trans (by rw [List.append_nil]; rfl)⟩

/-- Settles O8: `Accepts` is the table; outside it a command is refused, and inside it the command's reply holds
no RC_ILLEGAL_STATE. -/
theorem legalityByState : Obligations.LegalityByState := by
  intro i s accepted
  have table : accepted ↔ Accepts s i := accepts_iff.symm
  rw [table]
  refine ⟨exec_of_not_accepts, fun hacc t hs r hr => ?_⟩
  obtain ⟨rs, -, hrc, hport⟩ := (exec_reply hacc hs).responses
  rw [hport, List.drop_left] at hr
  exact hrc r hr

theorem Answered.oneResponse {s t : State} (h : Answered s t) :
    t.port.inputs = s.port.inputs ∧ ∃ r, t.port.responses = s.port.responses ++ [r] := by
  obtain ⟨r, -, hport⟩ := h.port
  exact ⟨by rw [hport], r, by rw [hport]⟩

/-- Settles O9, by the reply of an accepted command; a refused one adds its RC_ILLEGAL_STATE and leaves the runs
alone. -/
theorem oneResponsePerCommand : Obligations.OneResponsePerCommand := by
  intro i s t hs
  by_cases hacc : Accepts s i
  · cases exec_reply hacc hs with
    | answered hacq hdec h =>
      obtain ⟨hin, r, hr⟩ := h.oneResponse
      exact ⟨hin, .inl ⟨r, hr, fun hi => absurd hi hacq, fun hi => absurd hi hdec⟩, fun _ => h.acqRun,
        fun _ => h.decRun⟩
    | acqRunEnds h =>
      obtain ⟨hin, r, hr⟩ := h.oneResponse
      exact ⟨hin, .inl ⟨r, hr, fun _ _ => h.acqRun, nofun⟩, fun hne => absurd rfl hne, fun _ => h.decRun⟩
    | acqRunGoesOn h =>
      exact ⟨by rw [h.port]; rfl, .inr (.inl ⟨rfl, h.acqRun, by rw [h.port]; rfl⟩),
        fun hne => absurd rfl hne, fun _ => h.decRun⟩
    | decRunEnds h =>
      obtain ⟨hin, r, hr⟩ := h.oneResponse
      exact ⟨hin, .inl ⟨r, hr, nofun, fun _ _ => h.decRun⟩, fun _ => h.acqRun, fun hne => absurd rfl hne⟩
    | decRunGoesOn h =>
      exact ⟨by rw [h.port]; rfl, .inr (.inr ⟨rfl, by rw [h.decRun]; nofun, by rw [h.port]; rfl⟩),
        fun _ => h.acqRun, fun hne => absurd rfl hne⟩
  · rw [exec_of_not_accepts hacc] at hs
    obtain rfl := Host.Outcome.next.inj hs
    exact ⟨rfl, .inl ⟨⟨.illegalState, 0⟩, rfl, fun _ hrc => absurd rfl hrc, fun _ hrc => absurd rfl hrc⟩,
      fun _ => rfl, fun _ => rfl⟩

/-! ### The count of commands -/

def isCommandInput : Input → Bool
  | .command _ => true
  | .acqTurn | .decTurn => false

/-- The runs in progress, of both units: each is a command whose response is still to come (log 12). -/
def runsInProgress (s : State) : Nat := s.acq.runActive.toNat + if s.dec.run = .idle then 0 else 1

/-- The command words still on the port. -/
def commandsOnPort (p : Port) : Nat := (p.inputs.filter isCommandInput).length

/-- The commands that a state knows of: answered, in progress, and still on the port (30_encoding.md R95). -/
def commandCount (s : State) : Nat :=
  s.port.responses.length + runsInProgress s + commandsOnPort s.port

theorem commandsOnPort_turnTaken {s : State} {p : Port} (h : turnTaken s p) :
    commandsOnPort p = commandsOnPort s.port ∧ p.responses = s.port.responses := by
  rcases h with rfl | ⟨i, rest, hturn, hport, rfl⟩
  · exact ⟨rfl, rfl⟩
  · have hi : ¬ isCommandInput i = true := by rcases hturn with rfl | rfl <;> nofun
    exact ⟨by rw [commandsOnPort, commandsOnPort, hport, List.filter_cons_of_neg hi], rfl⟩

theorem commandsOnPort_of_command {p : Port} {w : CmdWord} {rest : List Input}
    (hport : p.inputs = .command w :: rest) :
    commandsOnPort p = commandsOnPort { p with inputs := rest } + 1 := by
  rw [commandsOnPort, hport, List.filter_cons_of_pos rfl, List.length_cons, commandsOnPort]

theorem runsInProgress_congr {s t : State} (hacq : t.acq.runActive = s.acq.runActive)
    (hdec : t.dec.run = s.dec.run) : runsInProgress t = runsInProgress s := by
  rw [runsInProgress, hacq, hdec, runsInProgress]

/-- From `s` to `t` `k` commands more are known of, and at most one response is added. -/
structure Adds (k : Nat) (s t : State) : Prop where
  count : commandCount t = commandCount s + k
  responses : ∃ rs, rs.length ≤ 1 ∧ t.port.responses = s.port.responses ++ rs

theorem SameDialogue.adds {s t : State} (h : SameDialogue s t) : Adds 0 s t where
  count := by rw [commandCount, runsInProgress_congr h.acqRun h.decRun, h.port]; rfl
  responses := ⟨[], Nat.zero_le _, by rw [h.port, List.append_nil]⟩

theorem Answered.adds {s t : State} (h : Answered s t) : Adds 1 s t := by
  obtain ⟨⟨r, -, hport⟩, hacq, hdec⟩ := h
  refine ⟨?_, [r], le_rfl, by rw [hport]⟩
  rw [commandCount, commandCount, runsInProgress_congr hacq hdec, hport]
  simp only [commandsOnPort, List.length_append, List.length_singleton]
  omega

/-- A change of the runs alone counts as the runs do. -/
theorem Adds.ofRuns {s s' t : State} {j k : Nat} (h : Adds j s' t) (hport : s'.port = s.port)
    (hruns : runsInProgress s' + j = runsInProgress s + k) : Adds k s t := by
  obtain ⟨hcount, hresponses⟩ := h
  refine ⟨?_, hport ▸ hresponses⟩
  rw [hcount, commandCount, commandCount, hport]
  omega

/-- Taking inputs from the port counts as the commands among them do. -/
theorem Adds.ofPort {s t : State} {p : Port} {j k : Nat} (h : Adds j { s with port := p } t)
    (hresponses : p.responses = s.port.responses)
    (hport : commandsOnPort p + j = commandsOnPort s.port + k) : Adds k s t := by
  obtain ⟨hcount, rs, hlen, hrs⟩ := h
  refine ⟨?_, rs, hlen, hresponses ▸ hrs⟩
  have hruns : runsInProgress { s with port := p } = runsInProgress s := rfl
  rw [hcount, commandCount, commandCount, hruns]
  show p.responses.length + _ + commandsOnPort p + j = _
  rw [hresponses]
  omega

theorem respond_adds (s : State) (rc : RespCode) (v : Word) : Adds 1 s (s.respond rc v) where
  count := by
    simp only [commandCount, respond_port, List.length_append, List.length_singleton]
    show _ + 1 + runsInProgress s + commandsOnPort s.port = _
    omega
  responses := ⟨[⟨rc, v⟩], le_rfl, rfl⟩

theorem runsInProgress_endAcqRun (s : State) :
    runsInProgress (endAcqRun s) + s.acq.runActive.toNat = runsInProgress s := by
  rw [runsInProgress, runsInProgress, endAcqRun_acq, endAcqRun_dec, Bool.toNat_false, Nat.zero_add,
    Nat.add_comm]

theorem runsInProgress_beginAcqRun (s : State) :
    runsInProgress (beginAcqRun s) + s.acq.runActive.toNat = runsInProgress s + 1 := by
  have begun : runsInProgress (beginAcqRun s) = 1 + if s.dec.run = .idle then 0 else 1 := rfl
  rw [begun, runsInProgress]
  omega

theorem runsInProgress_endDecRun (s : State) :
    runsInProgress (endDecRun s) + (if s.dec.run = .idle then 0 else 1) = runsInProgress s := by
  rw [runsInProgress, runsInProgress, endDecRun_acq, endDecRun_dec, if_pos rfl, Nat.add_zero]

theorem runsInProgress_withDecRun {r : DecRun} (hr : r ≠ .idle) (s : State) :
    runsInProgress (withDecRun r s) + (if s.dec.run = .idle then 0 else 1) = runsInProgress s + 1 := by
  have begun : runsInProgress (withDecRun r s) = s.acq.runActive.toNat + 1 :=
    congrArg (s.acq.runActive.toNat + ·) (if_neg hr)
  rw [begun, runsInProgress]
  omega

/-- A step of an ACQ.RUN that was in progress keeps the count, and the first one, of an ACQ.RUN just taken from
the port, counts it (42_acquisition_loop.md R163). -/
theorem acqRunPoll_adds {s t : State} (hs : acqRunPoll s = .next t) :
    Adds (1 - s.acq.runActive.toNat) s t := by
  have := Bool.toNat_le s.acq.runActive
  rcases acqRunPoll_dialogue hs with h | h
  · have := runsInProgress_endAcqRun s
    exact h.adds.ofRuns rfl (by omega)
  · have := runsInProgress_beginAcqRun s
    exact h.adds.ofRuns rfl (by omega)

/-- A UNPK.GET step of a DEC.RUN that was in progress keeps the count, and the first one, of a DEC.RUN just
taken from the port, counts it (45_decode_driver.md R212). -/
theorem decRunFetch_adds {s t : State} (hs : decRunFetch s = .next t) :
    Adds (if s.dec.run = .idle then 1 else 0) s t := by
  rcases decRunFetch_dialogue hs with h | ⟨b, h⟩
  · have := runsInProgress_endDecRun s
    refine h.adds.ofRuns rfl ?_
    split_ifs at this ⊢ <;> omega
  · have := runsInProgress_withDecRun (r := .bit b) nofun s
    refine h.adds.ofRuns rfl ?_
    split_ifs at this ⊢ <;> omega

theorem acqRunTurn_adds {s t : State} (hrun : s.acq.runActive = true) (hs : acqRunTurn s = .next t) :
    Adds 0 s t := by
  unfold acqRunTurn at hs
  split_ifs at hs
  · have adds := acqRunPoll_adds hs
    rwa [hrun] at adds
  · obtain rfl := Host.Outcome.next.inj hs
    exact (SameDialogue.refl s).adds

theorem decRunTurn_adds {s t : State} (hs : decRunTurn s = .next t) : Adds 0 s t := by
  unfold decRunTurn at hs
  split at hs
  case h_1 =>
    obtain rfl := Host.Outcome.next.inj hs
    exact (SameDialogue.refl s).adds
  case h_2 hrun =>
    have adds := decRunFetch_adds hs
    rwa [hrun] at adds
  case h_3 b hrun =>
    have runs := runsInProgress_withDecRun (r := .fetch) nofun s
    rw [if_neg (by rw [hrun]; nofun)] at runs
    exact (decRunBit_dialogue hs).adds.ofRuns rfl (by omega)

/-- A command taken from the port is counted once more: as a response or as a run (30_encoding.md R95). -/
theorem exec_adds {i : Instr} {s t : State} (hfree : heldBack i s = false) (hs : exec i s = .next t) :
    Adds 1 s t := by
  by_cases hacc : Accepts s i
  · by_cases hacq : i = .acqRun
    · subst hacq
      have hidle : s.acq.runActive = false := (acqBusy_eq_false.mp hfree).resolve_right (not_not.mpr hacc)
      rw [exec_acqRun_of_running hacc] at hs
      have adds := acqRunPoll_adds hs
      rwa [hidle] at adds
    by_cases hdec : i = .decRun
    · subst hdec
      have hidle : s.dec.run = .idle := by simpa [heldBack] using hfree
      rw [exec_decRun_of_ready hacc] at hs
      have adds := decRunFetch_adds hs
      rwa [if_pos hidle] at adds
    · exact (exec_answered hacc hacq hdec hs).adds
  · rw [exec_of_not_accepts hacc] at hs
    obtain rfl := Host.Outcome.next.inj hs
    exact respond_adds s _ _

/-- Every step keeps the count of commands, and adds at most one response (30_encoding.md R95). -/
theorem step_adds {s t : State} (hs : step s = .next t) : Adds 0 s t := by
  unfold step at hs
  rcases nextTurn_spec s with ⟨p, htaken, hturn⟩ | ⟨w, rest, hport, hturn⟩
  · obtain ⟨hcount, hresponses⟩ := commandsOnPort_turnTaken htaken
    suffices Adds 0 { s with port := p } t from this.ofPort hresponses hcount
    rcases hturn with hturn | ⟨hturn, hrun⟩ | hturn
    · rw [hturn] at hs
      obtain rfl := Host.Outcome.next.inj hs
      exact (SameDialogue.refl _).adds
    · rw [hturn] at hs
      exact acqRunTurn_adds hrun hs
    · rw [hturn] at hs
      exact decRunTurn_adds hs
  · suffices Adds 1 { s with port := { s.port with inputs := rest } } t from
      this.ofPort rfl (by rw [commandsOnPort_of_command hport])
    rcases hturn with ⟨e, -, hturn⟩ | ⟨i, -, hfree, hturn⟩
    · rw [hturn] at hs
      obtain rfl := Host.Outcome.next.inj hs
      exact respond_adds _ _ _
    · rw [hturn] at hs
      exact exec_adds ((heldBack_withPort i s _).trans hfree) hs

/-- Settles O10: the count that the statement writes out is `commandCount`. -/
theorem everyCommandAnsweredOnce : Obligations.EveryCommandAnsweredOnce := by
  intro n s t isCommand commands hn hs
  have written : isCommand = isCommandInput := funext fun i => by cases i <;> rfl
  have counted : commands = commandCount := funext fun u => by
    simp only [commands, commandCount, runsInProgress, commandsOnPort, written, Nat.add_assoc]
  obtain ⟨hcount, hresponses⟩ := step_adds hs
  rw [counted] at hn ⊢
  exact ⟨hcount.trans hn, hresponses⟩

end Sys2Proof.Machine

/-! The ring consumer (statements O18, O22 to O24, O26, O32): the arithmetic of the ring, the data phase of a poll
as one list of Samples, and what a poll has done once it has taken its look at BEFORE. -/

namespace Sys2Proof.Machine

/-! ### The arithmetic of the ring -/

/-- A legal CAPACITY divides 2^32, so a counter's wrap does not move an offset (40_ring_consumer.md R121). -/
theorem acqCfgOk_capacity_dvd {cfg : Config} (h : acqCfgOk cfg = true) : cfg.capacity.toNat ∣ 2 ^ 32 := by
  simp only [acqCfgOk, isPowerOfTwo, Bool.and_eq_true, List.any_eq_true, beq_iff_eq, List.mem_range] at h
  obtain ⟨⟨⟨⟨⟨⟨⟨⟨k, hk, hpow⟩, -⟩, -⟩, -⟩, -⟩, -⟩, -⟩, -⟩ := h
  rw [capBytes] at hpow
  exact hpow ▸ Nat.pow_dvd_pow 2 (by omega)

theorem sub32_ofNat {a b : Nat} (hle : b ≤ a) (hlt : a - b < 2 ^ 32) :
    (sub32 (BitVec.ofNat 32 a) (BitVec.ofNat 32 b)).toNat = a - b := by
  rw [sub32, BitVec.toNat_sub, BitVec.toNat_ofNat, BitVec.toNat_ofNat]
  omega

/-- Settles O23: CAPACITY divides 2^32, and a distance below 2^32 survives the wrap. -/
theorem wrappedCounterArithmetic : Obligations.WrappedCounterArithmetic := by
  intro cfg a b hcfg
  refine ⟨?_, sub32_ofNat⟩
  rw [BitVec.toNat_ofNat]
  exact Nat.mod_mod_of_dvd a (acqCfgOk_capacity_dvd hcfg)

/-- The distance from `l` to `w` around the ring, by their offsets (40_ring_consumer.md R122). -/
theorem sub32_mod_capacity {cap : Nat} (hdvd : cap ∣ 2 ^ 32) (l w : Word) :
    (sub32 w l).toNat % cap =
      if l.toNat % cap > w.toNat % cap then cap - l.toNat % cap + w.toNat % cap
      else w.toNat % cap - l.toNat % cap := by
  have hpos : 0 < cap := Nat.pos_of_dvd_of_pos hdvd (by decide)
  have forward : (l.toNat + (sub32 w l).toNat) % 2 ^ 32 = w.toNat := by
    rw [sub32, BitVec.toNat_sub]
    omega
  have offsets : (l.toNat % cap + (sub32 w l).toNat % cap) % cap = w.toNat % cap := by
    rw [← Nat.add_mod, ← Nat.mod_mod_of_dvd _ hdvd, forward]
  have hl := Nat.mod_lt l.toNat hpos
  have hn := Nat.mod_lt (sub32 w l).toNat hpos
  rcases Nat.lt_or_ge (l.toNat % cap + (sub32 w l).toNat % cap) cap with h | h
  · rw [Nat.mod_eq_of_lt h] at offsets
    split_ifs <;> omega
  · rw [Nat.mod_eq_sub_mod h, Nat.mod_eq_of_lt (by omega)] at offsets
    split_ifs <;> omega

theorem spanBytes_rbSpans {cap : Nat} (hdvd : cap ∣ 2 ^ 32) (l w : Word) :
    spanBytes (rbSpans cap l w) = (sub32 w l).toNat % cap := by
  rw [sub32_mod_capacity hdvd, rbSpans]
  split_ifs <;> simp [spanBytes]

/-- Steps of `d` from offset `l mod cap` up to the end of the ring, then from 0 on, are steps of `d` from `l`
taken mod `cap` (40_ring_consumer.md R122). -/
theorem map_range_wrap {cap l d a b : Nat} (hfit : ∀ j < a, l % cap + d * j < cap)
    (hend : 0 < b → l % cap + d * a = cap) (hrest : ∀ j < b, d * j < cap) :
    (List.range a).map (l % cap + d * ·) ++ (List.range b).map (0 + d * ·) =
      (List.range (a + b)).map fun j => (l + d * j) % cap := by
  rw [List.range_add, List.map_append, List.map_map]
  congr 1
  · refine List.map_congr_left fun j hj => ?_
    rw [← Nat.mod_add_mod, Nat.mod_eq_of_lt (hfit j (List.mem_range.mp hj))]
  · refine List.map_congr_left fun j hj => ?_
    have hj := List.mem_range.mp hj
    have past : l % cap + d * (a + j) = cap + d * j := by
      rw [Nat.mul_add, ← Nat.add_assoc, hend (by omega)]
    rw [Function.comp_apply, ← Nat.mod_add_mod, past, Nat.add_mod_left, Nat.mod_eq_of_lt (hrest j hj),
      Nat.zero_add]

/-- The case of no wrap. -/
theorem map_range_straight {cap l d a : Nat} (hfit : ∀ j < a, l % cap + d * j < cap) :
    (List.range a).map (l % cap + d * ·) = (List.range a).map fun j => (l + d * j) % cap := by
  have := map_range_wrap (b := 0) hfit nofun nofun
  rwa [List.range_zero, List.map_nil, List.append_nil] at this

theorem spanOffsets_rbSpans {cap : Nat} (hdvd : cap ∣ 2 ^ 32) (l w : Word) :
    spanOffsets (rbSpans cap l w) =
      (List.range ((sub32 w l).toNat % cap)).map fun j => (l.toNat + j) % cap := by
  have hpos : 0 < cap := Nat.pos_of_dvd_of_pos hdvd (by decide)
  have hl := Nat.mod_lt l.toNat hpos
  have hw := Nat.mod_lt w.toNat hpos
  have steps : ∀ b n, List.range' b n = (List.range n).map (b + 1 * ·) := fun b n => by
    simp [List.range'_eq_map_range]
  rw [sub32_mod_capacity hdvd, rbSpans]
  split_ifs with h
  · have wrap := map_range_wrap (cap := cap) (l := l.toNat) (d := 1) (a := cap - l.toNat % cap)
      (b := w.toNat % cap) (fun _ _ => by omega) (fun _ => by omega) (fun _ _ => by omega)
    simpa only [spanOffsets, List.flatMap_cons, List.flatMap_nil, List.append_nil, steps, Nat.sub_zero,
      Nat.one_mul] using wrap
  · have straight := map_range_straight (cap := cap) (l := l.toNat) (d := 1)
      (a := w.toNat % cap - l.toNat % cap) fun _ _ => by omega
    simpa only [spanOffsets, List.flatMap_cons, List.flatMap_nil, List.append_nil, steps,
      Nat.one_mul] using straight

/-- Settles O22: both counts go by the offsets of `l` and `w`, and a distance below CAPACITY is its own
remainder. -/
theorem ringRangeCorrect : Obligations.RingRangeCorrect := by
  intro cfg l w hcfg cap
  have hdvd := acqCfgOk_capacity_dvd hcfg
  exact ⟨spanBytes_rbSpans hdvd l w, spanOffsets_rbSpans hdvd l w, fun hlt => by
    rw [spanBytes_rbSpans hdvd, Nat.mod_eq_of_lt hlt]⟩

/-! ### The Samples of a poll, in order -/

/-- The offsets that the data phase reads, in order (40_ring_consumer.md R110, R115). -/
def sampleOffsets (spans : List (Nat × Nat)) : List Nat :=
  spans.flatMap fun sp => (List.range (samplesIn sp)).map (sp.1 + 4 * ·)

/-- The spans between two aligned counters are read at `(L + 4j) mod CAPACITY` (40_ring_consumer.md R122). -/
theorem sampleOffsets_rbSpans {cap : Nat} (hdvd : cap ∣ 2 ^ 32) (hcap : 4 ∣ cap) {l w : Word}
    (hl : l.toNat % 4 = 0) (hw : w.toNat % 4 = 0) :
    sampleOffsets (rbSpans cap l w) =
        (List.range ((sub32 w l).toNat % cap / 4)).map (fun j => (l.toNat + 4 * j) % cap) ∧
      (sub32 w l).toNat % cap % 4 = 0 := by
  have hpos : 0 < cap := Nat.pos_of_dvd_of_pos hdvd (by decide)
  have hlt := Nat.mod_lt l.toNat hpos
  have hwt := Nat.mod_lt w.toNat hpos
  have hl4 : l.toNat % cap % 4 = 0 := (Nat.mod_mod_of_dvd _ hcap).trans hl
  have hw4 : w.toNat % cap % 4 = 0 := (Nat.mod_mod_of_dvd _ hcap).trans hw
  rw [sub32_mod_capacity hdvd, rbSpans]
  split_ifs with h
  · refine ⟨?_, by omega⟩
    have count : (cap - l.toNat % cap + w.toNat % cap) / 4 =
        samplesIn (l.toNat % cap, cap) + samplesIn (0, w.toNat % cap) := by
      unfold samplesIn
      omega
    have wrap := map_range_wrap (cap := cap) (l := l.toNat) (d := 4) (a := samplesIn (l.toNat % cap, cap))
      (b := samplesIn (0, w.toNat % cap)) (by unfold samplesIn; omega) (by unfold samplesIn; omega)
      (by unfold samplesIn; omega)
    simpa only [sampleOffsets, List.flatMap_cons, List.flatMap_nil, List.append_nil, count] using wrap
  · refine ⟨?_, by omega⟩
    have count : (w.toNat % cap - l.toNat % cap) / 4 = samplesIn (l.toNat % cap, w.toNat % cap) := by
      unfold samplesIn
      omega
    have straight := map_range_straight (cap := cap) (l := l.toNat) (d := 4)
      (a := samplesIn (l.toNat % cap, w.toNat % cap)) (by unfold samplesIn; omega)
    simpa only [sampleOffsets, List.flatMap_cons, List.flatMap_nil, List.append_nil, count] using straight

/-- One Sample: its MemRead, and RB.SAMPLE on it; the result is the next running offset
(40_ring_consumer.md R110). -/
def takeSample (o : Nat) (x : Word) (s : State) : Micro Word :=
  (memRead o s).bind fun v s1 => (rbSample v x s1).bind fun _ s2 => .done (add32 x 4) s2

/-- The Samples at a list of offsets, in order. -/
def takeSamples : List Nat → Word → State → Micro Word
  | [], x, s => .done x s
  | o :: os, x, s => (takeSample o x s).bind fun x' s' => takeSamples os x' s'

theorem takeSamples_singleton (o : Nat) (x : Word) (s : State) : takeSamples [o] x s = takeSample o x s := by
  unfold takeSamples
  cases takeSample o x s <;> rfl

theorem takeSamples_append (os os' : List Nat) (x : Word) (s : State) :
    takeSamples (os ++ os') x s = (takeSamples os x s).bind fun x' s' => takeSamples os' x' s' := by
  induction os generalizing x s with
  | nil => rfl
  | cons o os ih =>
    rw [List.cons_append, takeSamples, takeSamples, Micro.bind_assoc]
    exact congrArg (Micro.bind _) (funext fun x' => funext fun s' => ih x' s')

theorem sampleLoop_eq_takeSamples (n o : Nat) (x : Word) (s : State) :
    sampleLoop n o x s = takeSamples ((List.range n).map (o + 4 * ·)) x s := by
  induction n generalizing o x s with
  | zero => rfl
  | succ n ih =>
    have shifted : (List.range n).map ((o + 4 * ·) ∘ Nat.succ) = (List.range n).map (o + 4 + 4 * ·) :=
      List.map_congr_left fun j _ => by rw [Function.comp_apply]; omega
    rw [sampleLoop, List.range_succ_eq_map, List.map_cons, List.map_map, shifted, takeSamples, takeSample,
      Micro.bind_assoc]
    simp only [Micro.bind_assoc, Micro.bind_done, ih, Nat.mul_zero, Nat.add_zero]

/-- The data phase of a poll takes the Samples of its spans, one after the other. -/
theorem spanLoop_eq_takeSamples (spans : List (Nat × Nat)) (x : Word) (s : State) :
    spanLoop spans x s = takeSamples (sampleOffsets spans) x s := by
  induction spans generalizing x s with
  | nil => rfl
  | cons sp rest ih =>
    rw [spanLoop, sampleOffsets, List.flatMap_cons, takeSamples_append, sampleLoop_eq_takeSamples]
    exact congrArg (Micro.bind _) (funext fun x' => funext fun s' => ih x' s')

/-! ### What a Sample does to the packer and to the verifier -/

/-- The bits of a word after one more is shifted in (41_bit_packer_unpacker.md R140). -/
theorem getLsbD_shiftIn {i : Nat} (hi : i < 32) (w : Word) (b : Bool) :
    (shiftIn w b).getLsbD i = if i = 0 then b else w.getLsbD (i - 1) := by
  rw [shiftIn, BitVec.getLsbD_or, BitVec.getLsbD_shiftLeft]
  cases i with
  | zero => cases b <;> simp
  | succ i => simp [hi]

/-- A bit shifted in comes after the bits that the partial word holds (10_state.md R30). -/
theorem partialBits_shiftIn {n : Nat} (hn : n < 32) (w : Word) (b : Bool) :
    partialBits (shiftIn w b) (n + 1) = partialBits w n ++ [b] := by
  rw [partialBits, List.range_succ, List.map_append, partialBits]
  congr 1
  · refine List.map_congr_left fun k hk => ?_
    have hk := List.mem_range.mp hk
    rw [getLsbD_shiftIn (by omega), if_neg (by omega)]
    congr 1
    omega
  · rw [List.map_singleton, Nat.add_sub_cancel, Nat.sub_self, getLsbD_shiftIn (by decide), if_pos rfl]

theorem streamBits_append (ws ws' : List Word) : streamBits (ws ++ ws') = streamBits ws ++ streamBits ws' :=
  List.flatMap_append

theorem streamBits_singleton (w : Word) : streamBits [w] = partialBits w 32 := by
  rw [streamBits, List.flatMap_singleton]
  rfl

/-- The word that the 32nd bit completes (41_bit_packer_unpacker.md R140). -/
theorem streamBits_completed {n : Nat} (hn : n + 1 = 32) (w : Word) (b : Bool) :
    streamBits [shiftIn w b] = partialBits w n ++ [b] := by
  obtain rfl : n = 31 := by omega
  exact (streamBits_singleton _).trans (partialBits_shiftIn (by decide) w b)

/-- A flush moves the buffered words, it loses none (41_bit_packer_unpacker.md R141). -/
theorem packFlush_stream {s t : State} (h : packFlush s = .done () t) : packedStream t = packedStream s := by
  rcases packFlush_done h with ⟨-, rfl⟩ | ⟨-, -, rfl⟩
  · rfl
  · rw [packedStream, packedStream, streamBits_append]
    simp [streamBits]

/-- The states agree on everything that RB.SAMPLE works on (40_ring_consumer.md R114). -/
structure SameData (s t : State) : Prop where
  cfg : t.cfg = s.cfg
  acq : t.acq = s.acq
  persisted : t.env.persisted = s.env.persisted
  tape : t.env.sinkTape = s.env.sinkTape

theorem SameData.trans {s t u : State} (h : SameData s t) (h' : SameData t u) : SameData s u :=
  ⟨h'.cfg.trans h.cfg, h'.acq.trans h.acq, h'.persisted.trans h.persisted, h'.tape.trans h.tape⟩

theorem logEvent_sameData (s : State) (ev : BusEvent) : SameData s (s.logEvent ev) := ⟨rfl, rfl, rfl, rfl⟩

theorem producerTurn_sameData (s : State) : SameData s (producerTurn s) := by
  obtain ⟨sh, ct, h⟩ := producerTurn_spec s
  rw [h]
  exact ⟨rfl, rfl, rfl, rfl⟩

theorem ctrlRead_sameData {w : CtrlWord} {s t : State} {v : Word} (h : ctrlRead w s = .done v t) :
    SameData s t := by
  obtain ⟨-, -, rfl⟩ := ctrlRead_spec h
  exact (producerTurn_sameData s).trans (logEvent_sameData _ _)

theorem memRead_sameData {o : Nat} {s t : State} {v : Word} (h : memRead o s = .done v t) : SameData s t := by
  obtain ⟨-, -, -, rfl⟩ := memRead_spec h
  exact (producerTurn_sameData s).trans (logEvent_sameData _ _)

/-- From `s` to `t` the packer has been given `bits`; of the ACQ registers only its own have changed, and a
sink that accepts everything still does (41_bit_packer_unpacker.md R140). -/
structure Packed (s : State) (bits : List Bool) (t : State) : Prop where
  acq : t.acq = { s.acq with
    pkWord := t.acq.pkWord, pkNbits := t.acq.pkNbits, pkBatch := t.acq.pkBatch }
  below : t.acq.pkNbits < 32
  stream : packedStream t = packedStream s ++ bits
  tape : s.env.sinkTape = [] → t.env.sinkTape = []

theorem Packed.refl {s : State} (h : s.acq.pkNbits < 32) : Packed s [] s :=
  ⟨rfl, h, (List.append_nil _).symm, id⟩

theorem Packed.trans {s t u : State} {bits bits' : List Bool} (h : Packed s bits t) (h' : Packed t bits' u) :
    Packed s (bits ++ bits') u :=
  ⟨by rw [h'.acq, h.acq], h'.below, by rw [h'.stream, h.stream, List.append_assoc], h'.tape ∘ h.tape⟩

theorem Packed.ofSameData {s s' t : State} {bits : List Bool} (h : Packed s' bits t) (hs : SameData s s') :
    Packed s bits t :=
  ⟨by rw [h.acq, hs.acq], h.below, by rw [h.stream, packedStream, hs.acq, hs.persisted]; rfl,
    fun htape => h.tape (hs.tape.trans htape)⟩

theorem Packed.thenSameData {s t t' : State} {bits : List Bool} (h : Packed s bits t) (ht : SameData t t') :
    Packed s bits t' :=
  ⟨by rw [ht.acq, h.acq], ht.acq ▸ h.below, by rw [packedStream, ht.acq, ht.persisted]; exact h.stream,
    fun htape => ht.tape.trans (h.tape htape)⟩

/-- A completed word joins the buffer with the bits it holds (41_bit_packer_unpacker.md R140). -/
theorem packedStream_completed {s : State} (b : Bool) (hfull : s.acq.pkNbits + 1 = 32) :
    packedStream { s with acq := { s.acq with
        pkBatch := s.acq.pkBatch ++ [shiftIn s.acq.pkWord b], pkWord := 0, pkNbits := 0 } } =
      packedStream s ++ [b] := by
  simp only [packedStream, streamBits_append, streamBits_completed hfull, List.append_assoc]
  rfl

/-- Everything a PACK.ADD that is done means for the bit stream (41_bit_packer_unpacker.md R140). -/
theorem packBit_packed {b : Bool} {s t : State} (hbits : s.acq.pkNbits < 32)
    (h : packBit b s = .done () t) : Packed s [b] t := by
  rcases packBit_done h with ⟨hroom, rfl⟩ | ⟨hfull, -, rfl⟩ | ⟨hfull, -, hflush⟩
  · refine ⟨rfl, by dsimp only; omega, ?_, id⟩
    simp only [packedStream, partialBits_shiftIn hbits, List.append_assoc]
  · exact ⟨rfl, Nat.succ_pos 31, packedStream_completed b hfull, id⟩
  · have moved := (packFlush_stream hflush).trans (packedStream_completed b hfull)
    rcases packFlush_done hflush with ⟨-, rfl⟩ | ⟨-, -, rfl⟩
    · exact ⟨rfl, Nat.succ_pos 31, moved, id⟩
    · exact ⟨rfl, Nat.succ_pos 31, moved, fun htape => by rw [htape]; rfl⟩

/-- VFY.CHECK of the Samples `val 0`, .., `val (m - 1)`, with the running offsets from `x` on
(41_bit_packer_unpacker.md R147). -/
def verifySamples (val : Nat → Word) (x : Word) (m : Nat) (s : State) : State :=
  (List.range m).foldl (fun u j => verifyCheck (val j) (add32 x (BitVec.ofNat 32 (4 * j))) u) s

theorem verifySamples_succ (val : Nat → Word) (x : Word) (m : Nat) (s : State) :
    verifySamples val x (m + 1) s =
      verifyCheck (val m) (add32 x (BitVec.ofNat 32 (4 * m))) (verifySamples val x m s) := by
  rw [verifySamples, List.range_succ, List.foldl_append]
  rfl

/-- The verifier touches its own registers only. -/
theorem verifySamples_spec (val : Nat → Word) (x : Word) (m : Nat) (s : State) :
    ∃ k o g f, verifySamples val x m s = { s with acq := { s.acq with
      vfyMismatch := k, vfyFirstOff := o, vfyFirstGot := g, fVerifyErr := f } } := by
  induction m with
  | zero => exact ⟨s.acq.vfyMismatch, s.acq.vfyFirstOff, s.acq.vfyFirstGot, s.acq.fVerifyErr, rfl⟩
  | succ m ih =>
    obtain ⟨k, o, g, f, h⟩ := ih
    obtain ⟨k', o', g', f', h'⟩ := verifyCheck_spec (val m) (add32 x (BitVec.ofNat 32 (4 * m)))
      (verifySamples val x m s)
    exact ⟨k', o', g', f', by rw [verifySamples_succ, h', h]⟩

@[simp] theorem verifySamples_cfg (val : Nat → Word) (x : Word) (m : Nat) (s : State) :
    (verifySamples val x m s).cfg = s.cfg := by
  obtain ⟨k, o, g, f, h⟩ := verifySamples_spec val x m s
  rw [h]

/-- What VFY.CHECK makes of the registers depends on the configuration and the registers only. -/
theorem verifyCheck_acq_congr {s t : State} (v x : Word) (hc : t.cfg = s.cfg) (ha : t.acq = s.acq) :
    (verifyCheck v x t).acq = (verifyCheck v x s).acq := by
  rw [verifyCheck, verifyCheck, hc, ha]
  split_ifs <;> simp [ha]

theorem verifySamples_acq_congr {s t : State} (val : Nat → Word) (x : Word) (m : Nat) (hc : t.cfg = s.cfg)
    (ha : t.acq = s.acq) : (verifySamples val x m t).acq = (verifySamples val x m s).acq := by
  induction m with
  | zero => exact ha
  | succ m ih =>
    rw [verifySamples_succ, verifySamples_succ]
    exact verifyCheck_acq_congr _ _ (by simp [hc]) ih

/-- The packer or, in self-test mode, the verifier has been given the Samples `val 0`, .., `val (m - 1)`, with the
running offsets from `x` on (40_ring_consumer.md R114, R115). -/
structure SamplesGiven (s : State) (val : Nat → Word) (m : Nat) (x : Word) (t : State) : Prop where
  verified : s.cfg.testMode = true → t.acq = (verifySamples val x m s).acq ∧
    t.env.persisted = s.env.persisted ∧ t.env.sinkTape = s.env.sinkTape
  packed : s.cfg.testMode = false →
    Packed s ((List.range m).map fun j => (val j).getLsbD s.cfg.signalBit) t

theorem SamplesGiven.ofSameData {s s' t : State} {val : Nat → Word} {m : Nat} {x : Word}
    (h : SamplesGiven s' val m x t) (hs : SameData s s') : SamplesGiven s val m x t where
  verified htest := by
    obtain ⟨hacq, hpersisted, htape⟩ := h.verified (hs.cfg ▸ htest)
    exact ⟨hacq.trans (verifySamples_acq_congr val x m hs.cfg hs.acq), hpersisted.trans hs.persisted,
      htape.trans hs.tape⟩
  packed htest := hs.cfg ▸ (h.packed (hs.cfg ▸ htest)).ofSameData hs

theorem SamplesGiven.thenSameData {s t t' : State} {val : Nat → Word} {m : Nat} {x : Word}
    (h : SamplesGiven s val m x t) (ht : SameData t t') : SamplesGiven s val m x t' where
  verified htest := by
    rw [ht.acq, ht.persisted, ht.tape]
    exact h.verified htest
  packed htest := (h.packed htest).thenSameData ht

/-- One more Sample is given (40_ring_consumer.md R114). -/
theorem SamplesGiven.succ {s u t : State} {val : Nat → Word} {m : Nat} {x : Word}
    (hu : SamplesGiven s val m x u) (hcfg : u.cfg = s.cfg)
    (h : rbSample (val m) (add32 x (BitVec.ofNat 32 (4 * m))) u = .done () t) :
    SamplesGiven s val (m + 1) x t := by
  unfold rbSample at h
  rw [hcfg] at h
  refine ⟨fun htest => ?_, fun htest => ?_⟩
  · obtain ⟨hacq, hpersisted, htape⟩ := hu.verified htest
    rw [if_pos htest] at h
    injection h with _ h
    subst h
    obtain ⟨k, o, g, f, hspec⟩ := verifyCheck_spec (val m) (add32 x (BitVec.ofNat 32 (4 * m))) u
    refine ⟨?_, by rw [hspec, hpersisted], by rw [hspec, htape]⟩
    rw [verifySamples_succ]
    exact verifyCheck_acq_congr _ _ (by rw [hcfg, verifySamples_cfg]) hacq
  · have before := hu.packed htest
    rw [if_neg (by rw [htest]; decide)] at h
    rw [List.range_succ, List.map_append, List.map_singleton]
    exact before.trans (packBit_packed before.below h)

/-- The ACQ registers then: the packer's, or in self-test mode the verifier's, have changed
(40_ring_consumer.md R114). -/
theorem SamplesGiven.acq_eq {s t : State} {val : Nat → Word} {m : Nat} {x : Word}
    (h : SamplesGiven s val m x t) :
    t.acq = { s.acq with
      pkWord := t.acq.pkWord, pkNbits := t.acq.pkNbits, pkBatch := t.acq.pkBatch
      vfyMismatch := (if s.cfg.testMode then verifySamples val x m s else s).acq.vfyMismatch
      vfyFirstOff := (if s.cfg.testMode then verifySamples val x m s else s).acq.vfyFirstOff
      vfyFirstGot := (if s.cfg.testMode then verifySamples val x m s else s).acq.vfyFirstGot
      fVerifyErr := (if s.cfg.testMode then verifySamples val x m s else s).acq.fVerifyErr } := by
  cases htest : s.cfg.testMode with
  | true =>
    obtain ⟨k, o, g, f, hspec⟩ := verifySamples_spec val x m s
    rw [(h.verified htest).1, if_pos rfl, hspec]
  | false =>
    rw [(h.packed htest).acq]
    rfl

/-- In self-test mode the packer is left alone (41_bit_packer_unpacker.md R147). -/
theorem SamplesGiven.packer_eq {s t : State} {val : Nat → Word} {m : Nat} {x : Word}
    (h : SamplesGiven s val m x t) (htest : s.cfg.testMode = true) :
    t.acq.pkWord = s.acq.pkWord ∧ t.acq.pkNbits = s.acq.pkNbits ∧ t.acq.pkBatch = s.acq.pkBatch := by
  obtain ⟨k, o, g, f, hspec⟩ := verifySamples_spec val x m s
  rw [(h.verified htest).1, hspec]
  exact ⟨rfl, rfl, rfl⟩

/-- A sink that is not written, or accepts everything, answers the same afterwards (log 8). -/
theorem SamplesGiven.tape {s t : State} {val : Nat → Word} {m : Nat} {x : Word}
    (h : SamplesGiven s val m x t) (hsink : s.cfg.testMode = true ∨ s.env.sinkTape = []) :
    t.env.sinkTape = s.env.sinkTape := by
  cases htest : s.cfg.testMode with
  | true => exact (h.verified htest).2.2
  | false =>
    have htape := hsink.resolve_left (by rw [htest]; decide)
    exact ((h.packed htest).tape htape).trans htape.symm

/-! ### The data phase of a poll that is done -/

/-- A Sample depends on the region and its epoch only. -/
theorem sharedWord_congr {e e' : Env} (a : Nat) (h : e.shared = e'.shared)
    (he : e.sharedEpoch = e'.sharedEpoch) : sharedWord e a = sharedWord e' a := by
  unfold sharedWord sharedByte
  rw [h, he]

theorem DataFrame.sharedEpoch {s t : State} (h : DataFrame s t) :
    t.env.sharedEpoch = s.env.sharedEpoch := by
  rw [h.env]

/-- The producer's batches move no epoch. -/
theorem producedEnv_epochs (s : State) (k : Nat) :
    (producedEnv s k).sharedEpoch = s.env.sharedEpoch ∧ (producedEnv s k).ctrlEpoch = s.env.ctrlEpoch := by
  obtain ⟨sh, ct, h⟩ := foldl_applyProdWrite_spec s.cfg (s.env.schedule.take k).flatten s.env
  rw [producedEnv, h]
  exact ⟨rfl, rfl⟩

theorem producedEnv_quiet {s : State} (hq : s.env.schedule = []) (k : Nat) : producedEnv s k = s.env := by
  simp [producedEnv, hq]

/-- A Sample in a later state is what the producer's batches so far have made of it (20_memory.md R83(c)). -/
theorem ProducedFrom.sharedWord_eq {s t : State} {k : Nat} (h : ProducedFrom s k t)
    (he : t.env.sharedEpoch = s.env.sharedEpoch) (a : Nat) :
    sharedWord t.env a = sharedWord (producedEnv s k) a :=
  sharedWord_congr a h.shared (he.trans (producedEnv_epochs s k).1.symm)

/-- A control word in a later state is what the producer's batches so far have made of it
(20_memory.md R83(d)). -/
theorem ProducedFrom.ctrlValue_eq {s t : State} {k : Nat} (h : ProducedFrom s k t) (w : CtrlWord) :
    ctrlValue t.cfg t.env w = ctrlValue s.cfg (producedEnv s k) w := by
  rw [h.cfg]
  exact ctrlValue_congr w h.ctrl (h.ctrlEpoch.trans (producedEnv_epochs s k).2.symm)

/-- The one access of a MemRead that is done (20_memory.md R70). -/
theorem memRead_accesses {o : Nat} {s t : State} {v : Word} (h : memRead o s = .done v t) :
    DataAccesses s [(o, v)] [.memRead o v] t ∧ v = sharedWord t.env o := by
  obtain ⟨h4, hc, hv, rfl⟩ := memRead_spec h
  obtain ⟨sh, ct, hp⟩ := producerTurn_spec s
  have trace : ((producerTurn s).logEvent (.memRead o v)).env.trace = s.env.trace ++ [.memRead o v] := by
    rw [hp]
    rfl
  exact ⟨⟨(producerTurn_produced s).trans (logEvent_produced _ _), trace, rfl,
    List.forall_mem_singleton.mpr ⟨h4, hc⟩⟩, hv⟩

/-- The accesses of RB.SAMPLE: SinkWrites only. -/
theorem rbSample_accesses {v x : Word} {s t : State} (h : rbSample v x s = .done () t) :
    ∃ evs, DataAccesses s [] evs t := by
  have reads := rbSample_reads v x s
  rw [h] at reads
  obtain ⟨_, evs, hnone, hdata⟩ := reads
  obtain rfl := List.eq_nil_of_length_eq_zero hnone
  exact ⟨evs, hdata⟩

/-- What taking a Sample does: its MemRead, after which it is given to the packer or the verifier
(40_ring_consumer.md R110). -/
theorem takeSample_done {o : Nat} {x x' : Word} {s t : State} (h : takeSample o x s = .done x' t) :
    x' = add32 x 4 ∧ DataFrame s t ∧ ∃ v u evs, SameData s u ∧ ProducedFrom s 1 u ∧ DataFrame s u ∧
      v = sharedWord u.env o ∧ rbSample v x u = .done () t ∧ DataAccesses s [(o, v)] evs t := by
  obtain ⟨v, u, hread, h⟩ := Micro.bind_eq_done.mp h
  obtain ⟨_, t', hsample, h⟩ := Micro.bind_eq_done.mp h
  injection h with hx ht
  subst hx ht
  have readFrame := memRead_frame o s
  have sampleFrame := rbSample_frame v x u
  rw [hread] at readFrame
  rw [hsample] at sampleFrame
  obtain ⟨read, hv⟩ := memRead_accesses hread
  obtain ⟨evs, sinks⟩ := rbSample_accesses hsample
  exact ⟨rfl, readFrame.trans sampleFrame, v, u, _, memRead_sameData hread, read.produced, readFrame, hv,
    hsample, read.trans sinks⟩

/-- From `s` to `t` the data phase has taken the `m` Samples at `pos 0`, .., `pos (m - 1)`, found the values
`val 0`, .., and its running offsets have gone from `x` to `x'` (40_ring_consumer.md R110, R114, R115). -/
structure SamplesTaken (s : State) (pos : Nat → Nat) (val : Nat → Word) (m : Nat) (x x' : Word) (t : State) :
    Prop where
  offset : x' = add32 x (BitVec.ofNat 32 (4 * m))
  frame : DataFrame s t
  accesses : ∃ evs, DataAccesses s ((List.range m).map fun j => (pos j, val j)) evs t
  given : SamplesGiven s val m x t

theorem SamplesTaken.zero {s : State} (hbits : s.acq.pkNbits < 32) (pos : Nat → Nat) (val : Nat → Word)
    (x : Word) : SamplesTaken s pos val 0 x x s where
  offset := by simp [add32]
  frame := .refl s
  accesses := ⟨[], .none (.refl s) rfl⟩
  given := ⟨fun _ => ⟨rfl, rfl, rfl⟩, fun _ => .refl hbits⟩

theorem SamplesTaken.produced {s t : State} {pos : Nat → Nat} {val : Nat → Word} {m : Nat} {x x' : Word}
    (h : SamplesTaken s pos val m x x' t) : ProducedFrom s m t := by
  obtain ⟨evs, haccesses⟩ := h.accesses
  simpa using haccesses.produced

/-- One more Sample, whose value is what the region holds after one more batch of the producer
(20_memory.md R70, R83(c)). -/
theorem SamplesTaken.succ {s u t : State} {pos : Nat → Nat} {val : Nat → Word} {m : Nat} {x y x' : Word}
    (hu : SamplesTaken s pos val m x y u) (hval : val m = sharedWord (producedEnv s (m + 1)) (pos m))
    (h : takeSample (pos m) y u = .done x' t) : SamplesTaken s pos val (m + 1) x x' t := by
  obtain ⟨rfl, frame, v, u1, evs', same, produced, frame1, hv, hsample, hlast⟩ := takeSample_done h
  obtain ⟨evs, haccesses⟩ := hu.accesses
  obtain rfl : v = val m := by
    rw [hval, hv]
    exact (hu.produced.trans produced).sharedWord_eq (hu.frame.trans frame1).sharedEpoch _
  refine ⟨?_, hu.frame.trans frame, ⟨evs ++ evs', ?_⟩,
    (hu.given.thenSameData same).succ (same.cfg.trans hu.frame.cfg) ?_⟩
  · rw [hu.offset, add32, add32, add32, BitVec.add_assoc, Nat.mul_succ, BitVec.ofNat_add]
    rfl
  · rw [List.range_succ, List.map_append]
    exact haccesses.trans hlast
  · rw [← hu.offset]
    exact hsample

/-- A data phase that is done has taken its Samples, each after one more batch of the producer. -/
theorem takeSamples_taken {s t : State} {pos : Nat → Nat} {val : Nat → Word} {m : Nat} {x x' : Word}
    (hbits : s.acq.pkNbits < 32) (hval : ∀ j < m, val j = sharedWord (producedEnv s (j + 1)) (pos j))
    (h : takeSamples ((List.range m).map pos) x s = .done x' t) : SamplesTaken s pos val m x x' t := by
  induction m generalizing x' t with
  | zero =>
    injection h with hx ht
    subst hx ht
    exact .zero hbits pos val x
  | succ m ih =>
    rw [List.range_succ, List.map_append, takeSamples_append] at h
    obtain ⟨y, u, hfirst, hlast⟩ := Micro.bind_eq_done.mp h
    rw [List.map_singleton, takeSamples_singleton] at hlast
    exact (ih (fun j hj => hval j (by omega)) hfirst).succ (hval m (by omega)) hlast

/-! ### A poll up to its look at BEFORE -/

/-- n, the bytes that a poll with the snapshot `w` consumes (40_ring_consumer.md R122). -/
def pollBytes (s : State) (w : Word) : Nat := (sub32 w s.acq.lastRead).toNat % s.cfg.capacity.toNat

/-- The offset of Sample `j` of a poll (40_ring_consumer.md R122). -/
def pollOffset (s : State) (j : Nat) : Nat := (s.acq.lastRead.toNat + 4 * j) % s.cfg.capacity.toNat

/-- The value of Sample `j` of a poll: it is read after `j + 2` batches of the producer (20_memory.md R70). -/
def pollSample (s : State) (j : Nat) : Word := sharedWord (producedEnv s (j + 2)) (pollOffset s j)

/-- The state whose verifier registers a poll leaves (40_ring_consumer.md R114; 41_bit_packer_unpacker.md R147). -/
def pollVerified (s : State) (w : Word) : State :=
  if s.cfg.testMode then verifySamples (pollSample s) s.acq.lastRead (pollBytes s w / 4) s else s

/-- RB.ADVANCE and RB.STATS have been done for a snapshot `w`, `n` bytes and the distance `unread`
(40_ring_consumer.md R118, R119). -/
structure Advanced (s : State) (w : Word) (n : Nat) (unread : Word) (t : State) : Prop where
  acq : t.acq = { s.acq with
    lastRead := w
    totalBytes := s.acq.totalBytes + BitVec.ofNat 64 n
    pollCount := s.acq.pollCount + 1
    peakUnread := maxWord s.acq.peakUnread unread }
  persisted : t.env.persisted = s.env.persisted
  tape : t.env.sinkTape = s.env.sinkTape

/-- From `s` to `t` a poll has run up to its look at BEFORE: the snapshot was `w`, the look saw `b`
(40_ring_consumer.md R110). -/
structure Looked (s : State) (w b : Word) (t : State) : Prop where
  snapshot : w = ctrlValue s.cfg (producedEnv s 1) .after
  look : b = ctrlValue s.cfg (producedEnv s (pollBytes s w / 4 + 2)) .before
  whole : pollBytes s w % 4 = 0
  produced : ProducedFrom s (pollBytes s w / 4 + 2) t
  frame : PollFrame s t
  data : ∃ u, SamplesGiven s (pollSample s) (pollBytes s w / 4) s.acq.lastRead u ∧
    Advanced u w (pollBytes s w) (sub32 w s.acq.lastRead) t
  accesses : ∃ evs, t.env.trace = s.env.trace ++ evs ∧
    evs.filter notSinkWrite = [.ctrlRead .after w, .barrier] ++
      (List.range (pollBytes s w / 4)).map (fun j => .memRead (pollOffset s j) (pollSample s j)) ++
      [.barrier, .ctrlRead .before b]

theorem Looked.lastRead {s t : State} {w b : Word} (h : Looked s w b t) : t.acq.lastRead = w := by
  obtain ⟨u, -, advanced⟩ := h.data
  rw [advanced.acq]

/-- The ACQ registers after a poll that has not taken an exit (40_ring_consumer.md R114, R118, R119). -/
theorem Looked.acq {s t : State} {w b : Word} (h : Looked s w b t) :
    t.acq = { s.acq with
      lastRead := w
      totalBytes := s.acq.totalBytes + BitVec.ofNat 64 (pollBytes s w)
      pollCount := s.acq.pollCount + 1
      peakUnread := maxWord s.acq.peakUnread (sub32 w s.acq.lastRead)
      pkWord := t.acq.pkWord, pkNbits := t.acq.pkNbits, pkBatch := t.acq.pkBatch
      vfyMismatch := (pollVerified s w).acq.vfyMismatch, vfyFirstOff := (pollVerified s w).acq.vfyFirstOff
      vfyFirstGot := (pollVerified s w).acq.vfyFirstGot, fVerifyErr := (pollVerified s w).acq.fVerifyErr } := by
  obtain ⟨u, given, advanced⟩ := h.data
  rw [advanced.acq, given.acq_eq]
  rfl

theorem Looked.tape {s t : State} {w b : Word} (h : Looked s w b t)
    (hsink : s.cfg.testMode = true ∨ s.env.sinkTape = []) : t.env.sinkTape = s.env.sinkTape := by
  obtain ⟨u, given, advanced⟩ := h.data
  exact advanced.tape.trans (given.tape hsink)

/-- A self-test poll leaves the packer and the sink alone (41_bit_packer_unpacker.md R147). -/
theorem Looked.selfTest {s t : State} {w b : Word} (h : Looked s w b t) (htest : s.cfg.testMode = true) :
    t.acq.pkWord = s.acq.pkWord ∧ t.acq.pkNbits = s.acq.pkNbits ∧ t.acq.pkBatch = s.acq.pkBatch ∧
      t.env.persisted = s.env.persisted := by
  obtain ⟨u, given, advanced⟩ := h.data
  obtain ⟨hword, hbits, hbatch⟩ := given.packer_eq htest
  obtain ⟨-, hpersisted, -⟩ := given.verified htest
  rw [advanced.acq]
  exact ⟨hword, hbits, hbatch, advanced.persisted.trans hpersisted⟩

/-- Outside self-test mode a poll gives the packer the signal bits in order (40_ring_consumer.md R114). -/
theorem Looked.packed {s t : State} {w b : Word} (h : Looked s w b t) (htest : s.cfg.testMode = false) :
    t.acq.pkNbits < 32 ∧ packedStream t = packedStream s ++
      (List.range (pollBytes s w / 4)).map fun j => (pollSample s j).getLsbD s.cfg.signalBit := by
  obtain ⟨u, given, advanced⟩ := h.data
  have packed := given.packed htest
  rw [packedStream, advanced.acq, advanced.persisted]
  exact ⟨packed.below, packed.stream⟩

/-- A Sample in the future of a later state (20_memory.md R83(c)). -/
theorem ProducedFrom.sharedWord_later {s t : State} {j : Nat} (h : ProducedFrom s j t)
    (he : t.env.sharedEpoch = s.env.sharedEpoch) (k a : Nat) :
    sharedWord (producedEnv t k) a = sharedWord (producedEnv s (j + k)) a := by
  obtain ⟨hshared, hctrl⟩ := producedEnv_epochs t k
  have future : ProducedFrom t k { t with env := { producedEnv t k with schedule := t.env.schedule.drop k } } :=
    ⟨rfl, rfl, rfl, rfl, hctrl⟩
  exact (h.trans future).sharedWord_eq (hshared.trans he) a

/-- The bytes that a poll of a RUNNING unit counts, and the offsets it reads, after an aligned snapshot. -/
theorem AcqInv.pollSpans {s : State} (h : AcqInv s) (hrun : s.acq.acqState = .running) {w : Word}
    (hw : w.toNat % 4 = 0) :
    spanBytes (rbSpans (capBytes s.cfg) s.acq.lastRead w) = pollBytes s w ∧
      sampleOffsets (rbSpans (capBytes s.cfg) s.acq.lastRead w) =
        (List.range (pollBytes s w / 4)).map (pollOffset s) ∧
      pollBytes s w % 4 = 0 := by
  have hcfg := h.runningCfg hrun
  have hdvd := acqCfgOk_capacity_dvd hcfg
  obtain ⟨hoffsets, hwhole⟩ := sampleOffsets_rbSpans hdvd (acqCfgOk_capacity hcfg).1 h.lastReadAligned hw
  exact ⟨spanBytes_rbSpans hdvd _ _, hoffsets, hwhole⟩

/-- The data phase of a poll takes Sample `j` after `j + 2` batches of the producer: one before the snapshot,
and one before each Sample. -/
theorem AcqInv.dataPhase {s s1 s2 : State} {w o : Word} (h : AcqInv s) (hrun : s.acq.acqState = .running)
    (h1 : ctrlRead .after s = .done w s1)
    (h2 : spanLoop (rbSpans (capBytes s1.cfg) s1.acq.lastRead w) s1.acq.lastRead (barrier s1) = .done o s2) :
    SamplesTaken (barrier s1) (pollOffset s) (pollSample s) (pollBytes s w / 4) s.acq.lastRead o s2 := by
  obtain ⟨snapshot, -, hacq, -⟩ := ctrlRead_done h1
  obtain ⟨-, haligned, -⟩ := ctrlRead_spec h1
  have begun : ProducedFrom s 1 (barrier s1) := snapshot.trans (logEvent_produced s1 .barrier)
  have epoch : (barrier s1).env.sharedEpoch = s.env.sharedEpoch := (ctrlRead_frame h1).sharedEpoch
  rw [snapshot.cfg, hacq, spanLoop_eq_takeSamples, (h.pollSpans hrun haligned).2.1] at h2
  refine takeSamples_taken (by rw [barrier_acq, hacq]; exact h.nbitsBelow) (fun j _ => ?_) h2
  rw [begun.sharedWord_later epoch, pollSample, show 1 + (j + 1) = j + 2 by omega]

/-- The look at BEFORE comes after RB.ADVANCE and RB.STATS (40_ring_consumer.md R110). -/
theorem advanced_of_look {s t : State} {cfg : Config} {l w b : Word}
    (h : ctrlRead .before (pollChecked cfg l w s) = .done b t) :
    Advanced s w (spanBytes (rbSpans (capBytes cfg) l w)) (sub32 w l) t where
  acq := (ctrlRead_sameData h).acq
  persisted := (ctrlRead_sameData h).persisted
  tape := (ctrlRead_sameData h).tape

/-- A poll that has looked at BEFORE (40_ring_consumer.md R110, R112 to R119). -/
theorem AcqInv.looked {s s1 s2 t : State} {w o b : Word} (h : AcqInv s) (hrun : s.acq.acqState = .running)
    (h1 : ctrlRead .after s = .done w s1)
    (h2 : spanLoop (rbSpans (capBytes s1.cfg) s1.acq.lastRead w) s1.acq.lastRead (barrier s1) = .done o s2)
    (h3 : ctrlRead .before (pollChecked s1.cfg s1.acq.lastRead w s2) = .done b t) : Looked s w b t := by
  have taken := h.dataPhase hrun h1 h2
  obtain ⟨snapshot, hw, hacq, -⟩ := ctrlRead_done h1
  obtain ⟨-, haligned, -⟩ := ctrlRead_spec h1
  obtain ⟨hbytes, -, hwhole⟩ := h.pollSpans hrun haligned
  obtain ⟨evs, hdata⟩ := taken.accesses
  obtain ⟨htrace, hfilter, -, hproduced⟩ := snapshot_accesses h1 hdata
  obtain ⟨look, hb, -, hlast⟩ := ctrlRead_done h3
  have begun : SameData s (barrier s1) := (ctrlRead_sameData h1).trans (logEvent_sameData s1 .barrier)
  have frame2 : DataFrame s s2 := ((ctrlRead_frame h1).trans (logEvent_frame s1 .barrier)).trans taken.frame
  have produced : ProducedFrom s (pollBytes s w / 4 + 2) t := by
    have all := (hproduced.trans (u := pollChecked s1.cfg s1.acq.lastRead w s2) (k := 0)
      ⟨rfl, rfl, rfl, rfl, rfl⟩).trans look
    rwa [List.length_map, List.length_range,
      show 1 + pollBytes s w / 4 + 0 + 1 = pollBytes s w / 4 + 2 by omega] at all
  have advanced := advanced_of_look h3
  rw [snapshot.cfg, hacq, hbytes] at advanced
  refine ⟨hw.trans (snapshot.ctrlValue_eq .after), hb.trans (produced.ctrlValue_eq .before), hwhole, produced,
    (frame2.pollFrame.trans (pollChecked_frame _ _ _ _)).trans (ctrlRead_frame h3).pollFrame,
    ⟨s2, taken.given.ofSameData begun, advanced⟩,
    .ctrlRead .after w :: .barrier :: evs ++ [.barrier, .ctrlRead .before b], ?_, ?_⟩
  · rw [hlast, pollChecked, barrier_env_trace, rbStats_env, rbAdvance_env, htrace]
    simp only [List.append_assoc, List.cons_append, List.nil_append]
  · rw [List.filter_append, hfilter, pollOpening, List.map_map]
    rfl

/-- A legal poll counts no more than CAPACITY bytes, which fit in a response (40_ring_consumer.md R110). -/
theorem AcqInv.pollBytes_lt {s : State} (h : AcqInv s) (hrun : s.acq.acqState = .running) (w : Word) :
    pollBytes s w < 2 ^ 32 := by
  obtain ⟨-, hmin, hmax⟩ := acqCfgOk_capacity (h.runningCfg hrun)
  rw [capBytes] at hmin hmax
  have := Nat.mod_lt (sub32 w s.acq.lastRead).toNat (show 0 < s.cfg.capacity.toNat by omega)
  rw [pollBytes]
  omega

/-- A poll that is done has looked at BEFORE, and its result is the bytes consumed (40_ring_consumer.md R110). -/
theorem AcqInv.looked_of_done {s t : State} {n : Nat} (h : AcqInv s) (hrun : s.acq.acqState = .running)
    (hpoll : poll s = .done n t) : ∃ w b, Looked s w b t ∧ n = pollBytes s w := by
  obtain ⟨-, w, s1, o, s2, b, h1, h2, h3, -, hn⟩ := poll_done hpoll
  obtain ⟨snapshot, -, hacq, -⟩ := ctrlRead_done h1
  obtain ⟨-, haligned, -⟩ := ctrlRead_spec h1
  rw [snapshot.cfg, hacq, (h.pollSpans hrun haligned).1] at hn
  exact ⟨w, b, h.looked hrun h1 h2 h3, hn⟩

/-- Settles O32: a poll that answers RC_OK is done, so it has looked at BEFORE, and the number in the response is
the bytes it consumed. -/
theorem pollUnderInterleaving : Obligations.PollUnderInterleaving := by
  intro s t n hinv hrun hs hn hok
  obtain ⟨n', u, hpoll, rfl, hval⟩ := execAcqPoll_answers_ok hrun hs hok
  obtain ⟨w, b, looked, rfl⟩ := hinv.looked_of_done hrun hpoll
  have small := hinv.pollBytes_lt hrun w
  obtain rfl : n = pollBytes s w := by
    have := congrArg BitVec.toNat hval
    rw [BitVec.toNat_ofNat, BitVec.toNat_ofNat] at this
    omega
  have accesses := looked.accesses
  rw [looked.look] at accesses
  obtain rfl := looked.snapshot
  exact ⟨rfl, looked.whole, looked.lastRead, looked.produced.schedule, looked.produced.shared,
    looked.produced.ctrl, accesses⟩

/-! ### A poll that a failing sink ends -/

/-- A flush that raises sets `f_io_err` (41_bit_packer_unpacker.md R141). -/
theorem packFlush_ioErr (s : State) :
    (packFlush s).Post (fun _ _ => True) fun _ t => t.acq.fIoErr = true := by
  cases h : packFlush s with
  | raised c t =>
    obtain ⟨-, -, n, -, -, rfl⟩ := packFlush_raised h
    rfl
  | done _ _ | fault _ | refused _ => trivial

theorem rbSample_ioErr (v x : Word) (s : State) :
    (rbSample v x s).Post (fun _ _ => True) fun _ t => t.acq.fIoErr = true := by
  unfold rbSample
  split_ifs
  · trivial
  · cases h : packBit (v.getLsbD s.cfg.signalBit) s with
    | raised c t =>
      have flush := packFlush_ioErr { s with acq := { s.acq with
        pkBatch := s.acq.pkBatch ++ [shiftIn s.acq.pkWord (v.getLsbD s.cfg.signalBit)], pkWord := 0,
        pkNbits := 0 } }
      rwa [(packBit_raised h).2.2] at flush
    | done _ _ | fault _ | refused _ => trivial

/-- A data phase that raises has set `f_io_err` (40_ring_consumer.md R117). -/
theorem spanLoop_ioErr (spans : List (Nat × Nat)) (x : Word) (s : State) :
    (spanLoop spans x s).Post (fun _ _ => True) fun _ t => t.acq.fIoErr = true := by
  refine spanLoop_post (P := fun _ => True) (fun o u _ => ?_) (fun v y u _ => rbSample_ioErr v y u) spans x s
    trivial
  cases h : memRead o u with
  | raised c t => exact absurd h (memRead_not_raised o u t c)
  | done _ _ | fault _ | refused _ => trivial

/-- The exit sequence leaves `f_overrun` alone (60_exceptions.md R232). -/
theorem exitAcq_fOverrun {c : Cause} {s t : State} (h : exitAcq c s = .next t) :
    t.acq.fOverrun = s.acq.fOverrun := by
  have frame := packClose_frame s
  rcases exitAcq_spec h with ⟨-, ⟨u, hu, rfl⟩ | ⟨u, hu, rfl⟩⟩ | ⟨-, -, rfl⟩
  · rw [hu] at frame
    rw [leaveAcq_acq, DataFrame.acq frame]
  · rw [hu] at frame
    rw [leaveAcq_acq, frame.2.acq]
  · rw [leaveAcq_acq]

/-- A poll that is not cancelled and ends with IO_ERR but no overrun was ended by its data phase. -/
theorem AcqInv.poll_failed {s t : State} (h : AcqInv s) (hrun : s.acq.acqState = .running)
    (hcancel : s.acq.cancel = false) (hs : exec .acqPoll s = .next t) (hcause : t.acq.acqCause = .ioErr)
    (hover : t.acq.fOverrun = false) :
    ∃ w s1 u, ctrlRead .after s = .done w s1 ∧
      spanLoop (rbSpans (capBytes s1.cfg) s1.acq.lastRead w) s1.acq.lastRead (barrier s1) = .raised .ioErr u ∧
      t = leaveAcq .ioErr u := by
  rw [exec, execAcqPoll, if_pos hrun, settleAcq_eq_next] at hs
  rcases hs with ⟨n, u, hpoll, rfl⟩ | ⟨c, u, hpoll, hexit⟩
  · have frame := poll_frame s
    rw [hpoll] at frame
    have none : s.acq.acqCause = .none := h.causeStopped.mpr (by rw [hrun]; decide)
    rw [respond_acq, PollFrame.acq frame, none] at hcause
    exact absurd hcause (by decide)
  · rcases poll_raised hpoll with ⟨hcancelled, -⟩ | ⟨-, w, s1, h1, h2 | ⟨o, s2, b, s3, -, -, -, -, rfl⟩⟩
    · exact absurd (hcancel.symm.trans hcancelled) (by decide)
    · obtain ⟨rfl, -⟩ := failed_accesses h1 h2
      exact ⟨w, s1, u, h1, h2, by simpa [exitAcq, eq_comm] using hexit⟩
    · exact (Bool.false_ne_true (hover.symm.trans (exitAcq_fOverrun hexit))).elim

/-- Settles O26: such a poll stopped in its data phase, which writes neither the read counter nor a statistic and
reads no BEFORE; and its exit closes nothing. -/
theorem ioErrorInsidePoll : Obligations.IoErrorInsidePoll := by
  intro s t hinv hrun hcancel _ hs hcause hover
  obtain ⟨w, s1, u, h1, h2, rfl⟩ := hinv.poll_failed hrun hcancel hs hcause hover
  have data := spanLoop_frame (rbSpans (capBytes s1.cfg) s1.acq.lastRead w) s1.acq.lastRead (barrier s1)
  have failed := spanLoop_ioErr (rbSpans (capBytes s1.cfg) s1.acq.lastRead w) s1.acq.lastRead (barrier s1)
  rw [h2] at data failed
  have frame : DataFrame s u := ((ctrlRead_frame h1).trans (logEvent_frame s1 .barrier)).trans data.2
  have running := frame.acqState.trans hrun
  obtain ⟨-, reads, evs, htrace, hfilter, -⟩ := failed_accesses h1 h2
  have noLook : ∀ b, .ctrlRead .before b ∉ evs := fun b hmem => by
    have := List.mem_filter.mpr ⟨hmem, show notSinkWrite (.ctrlRead .before b) = true from rfl⟩
    simp [hfilter, pollOpening] at this
  have regs := frame.acq
  rw [leaveAcq_trace _ running, leaveAcq_acq, leaveAcq_env, if_pos running, leaveAcq_port, frame.port, htrace]
  refine ⟨by rw [regs], by rw [regs], by rw [regs], by rw [regs], failed, rfl, rfl, by rw [regs], by rw [regs],
    by rw [regs], rfl, rfl, evs ++ [.barrier, .prodStop], List.append_assoc _ _ _, fun b hmem => ?_⟩
  rcases List.mem_append.mp hmem with hmem | hmem
  · exact noLook b hmem
  · simp at hmem

/-! ### A poll of a quiet environment -/

/-- In a quiet environment a poll sees the Samples as they stand (20_memory.md R83(c)). -/
theorem pollSample_quiet {s : State} (hq : s.env.schedule = []) :
    pollSample s = fun j => sharedWord s.env (pollOffset s j) :=
  funext fun j => by rw [pollSample, producedEnv_quiet hq]

theorem pollVerified_quiet {s : State} (hq : s.env.schedule = []) (w : Word) :
    pollVerified s w = if s.cfg.testMode then
      verifySamples (fun j => sharedWord s.env (pollOffset s j)) s.acq.lastRead (pollBytes s w / 4) s
    else s := by
  rw [pollVerified, pollSample_quiet hq]

/-- The state in which a poll that overruns takes its exit (40_ring_consumer.md R120). -/
def overrunFlagged (b : Word) (s : State) : State :=
  { s with acq := { s.acq with
      fOverrun := true, ovrBefore := b, ovrLast := s.acq.lastRead, ovrGap := sub32 b s.acq.lastRead } }

/-- After its look at BEFORE a poll is done, or flags an overrun (40_ring_consumer.md R110, R120). -/
theorem rbOvrChk_of_looked {s t : State} {w b : Word} (h : Looked s w b t) {n : Nat} :
    ((sub32 b w).toNat ≤ s.cfg.capacity.toNat →
      ((rbOvrChk b t).bind fun _ u => .done n u) = .done n t) ∧
    (s.cfg.capacity.toNat < (sub32 b w).toNat →
      ((rbOvrChk b t).bind fun _ u => .done n u) = .raised .overrun (overrunFlagged b t)) := by
  have check := rbOvrChk_cases b t
  rw [show capBytes t.cfg = s.cfg.capacity.toNat by rw [h.frame.cfg, capBytes], h.lastRead] at check
  rcases check with ⟨hover, hflag⟩ | ⟨hle, hpass⟩
  · rw [hflag, overrunFlagged, h.lastRead]
    exact ⟨fun hle => absurd hle (Nat.not_le.mpr hover), fun _ => rfl⟩
  · rw [hpass]
    exact ⟨fun _ => rfl, fun hover => absurd hover (Nat.not_lt.mpr hle)⟩

/-- After its look at BEFORE only the overrun check of a poll is left (40_ring_consumer.md R110). -/
theorem pollFrom_looked {s s2 t : State} {w o b : Word}
    (h2 : spanLoop (rbSpans (capBytes s.cfg) s.acq.lastRead w) s.acq.lastRead (barrier s) = .done o s2)
    (h3 : ctrlRead .before (pollChecked s.cfg s.acq.lastRead w s2) = .done b t) :
    pollFrom w s = (rbOvrChk b t).bind fun _ u =>
      .done (spanBytes (rbSpans (capBytes s.cfg) s.acq.lastRead w)) u := by
  unfold pollFrom
  dsimp only
  rw [h2, Micro.bind_done]
  exact congrArg (Micro.bind · _) h3

/-- With aligned counters and a sink that does not end it, a poll of a quiet environment gets to its look at
BEFORE, and then is done or flags an overrun (40_ring_consumer.md R110, R120). -/
theorem AcqInv.poll_quiet {s : State} {w b : Word} (h : AcqInv s) (hrun : s.acq.acqState = .running)
    (hcancel : s.acq.cancel = false) (hq : s.env.schedule = [])
    (hw : ctrlValue s.cfg s.env .after = w) (hb : ctrlValue s.cfg s.env .before = b)
    (hw4 : w.toNat % 4 = 0) (hb4 : b.toNat % 4 = 0) (hsink : s.cfg.testMode = true ∨ s.env.sinkTape = []) :
    ∃ t, Looked s w b t ∧
      ((sub32 b w).toNat ≤ s.cfg.capacity.toNat → poll s = .done (pollBytes s w) t) ∧
      (s.cfg.capacity.toNat < (sub32 b w).toNat → poll s = .raised .overrun (overrunFlagged b t)) := by
  have h1 := ctrlRead_aligned (w := .after) hq (by rwa [hw])
  rw [hw] at h1
  obtain ⟨o, s2, h2, -⟩ := (spanLoop_faultFree (E := False) s.acq.lastRead
    (s := barrier (s.logEvent (.ctrlRead .after w))) (h.spansInside hrun hw4) (.inr hsink)).isDone
  have taken := h.dataPhase hrun h1 h2
  have snapshot := (logEvent_produced s (.ctrlRead .after w)).trans (logEvent_produced _ .barrier)
  have checked : ProducedFrom s _ (pollChecked s.cfg s.acq.lastRead w s2) :=
    snapshot.trans (taken.produced.trans (k := 0) ⟨rfl, rfl, rfl, rfl, rfl⟩)
  have quiet : (pollChecked s.cfg s.acq.lastRead w s2).env.schedule = [] := by
    rw [checked.schedule, hq, List.drop_nil]
  have same := (checked.ctrlValue_quiet hq .before).trans hb
  have h3 := ctrlRead_aligned (w := .before) quiet (by rwa [same])
  rw [same] at h3
  have looked := h.looked hrun h1 h2 h3
  refine ⟨_, looked, ?_⟩
  rw [poll_not_cancelled hcancel, h1, Micro.bind_done,
    pollFrom_looked (s := s.logEvent (.ctrlRead .after w)) h2 h3, logEvent_cfg, logEvent_acq,
    (h.pollSpans hrun hw4).1]
  exact rbOvrChk_of_looked looked

/-- What a poll of a quiet environment leaves outside the units. -/
theorem Looked.env_quiet {s t : State} {w b : Word} (h : Looked s w b t) (hq : s.env.schedule = [])
    (hsink : s.cfg.testMode = true ∨ s.env.sinkTape = []) :
    t.env = { s.env with persisted := t.env.persisted, trace := t.env.trace } := by
  have shared := h.produced.shared
  have ctrl := h.produced.ctrl
  have schedule := h.produced.schedule
  rw [producedEnv_quiet hq] at shared ctrl
  rw [hq, List.drop_nil, ← hq] at schedule
  rw [h.frame.env, shared, ctrl, schedule, h.tape hsink]

/-- Settles O18: the poll gets to its look at BEFORE, which the overrun check passes. -/
theorem pollOfQuietProducer : Obligations.PollOfQuietProducer := by
  intro s hinv hrun hcancel hq hw hb hnear hsink w n off checked
  obtain ⟨t, looked, hdone, -⟩ := hinv.poll_quiet hrun hcancel hq rfl rfl hw hb hsink
  have done := hdone hnear
  have acq := looked.acq
  have packed := looked.packed
  have accesses := looked.accesses
  rw [pollVerified_quiet hq] at acq
  rw [pollSample_quiet hq] at packed accesses
  refine ⟨t.respond .ok (BitVec.ofNat 32 n), ?_, ?_, looked.frame.cfg, looked.frame.dec, ?_, acq,
    looked.env_quiet hq hsink, looked.selfTest, fun htest => (packed htest).2, accesses⟩
  · rw [exec, execAcqPoll, if_pos hrun, done]
    rfl
  · rw [exec, execAcqRun, if_pos hrun, acqRunPoll, done, ← looked.frame.port]
    rfl
  · rw [respond_port, looked.frame.port]

/-! ### The overrun exit -/

/-- The state after a close whose flush is fully accepted (41_bit_packer_unpacker.md R142). -/
def closedPacker (s : State) : State :=
  { s with
    acq := { s.acq with pkWord := 0, pkNbits := 0, pkBatch := [] }
    env := { s.env with
      persisted := s.env.persisted ++ s.acq.pkBatch
      trace := s.env.trace ++
        if s.acq.pkBatch = [] then [] else [.sinkWrite s.acq.pkBatch s.acq.pkBatch.length] } }

theorem packClose_accepting {s : State} (htape : s.env.sinkTape = []) :
    packClose s = .done () (closedPacker s) := by
  by_cases hempty : s.acq.pkBatch = []
  · rw [packClose, packFlush_empty hempty, Micro.bind_done, closedPacker, if_pos hempty, hempty,
      List.append_nil, List.append_nil, ← hempty]
  · rw [packClose, packFlush_accepted hempty (by rw [sinkAccepts, htape]; rfl), Micro.bind_done, closedPacker,
      if_neg hempty, htape, List.tail_nil, ← htape]

/-- The exit sequence does not look at the run in progress (60_exceptions.md R232). -/
theorem leaveAcq_endAcqRun (c : Cause) (s : State) :
    leaveAcq c (endAcqRun s) = endAcqRun (leaveAcq c s) := by
  unfold leaveAcq
  by_cases hrun : s.acq.acqState = .running
  · rw [if_pos hrun, if_pos (show (endAcqRun s).acq.acqState = .running from hrun)]
    rfl
  · rw [if_neg hrun, if_neg (show (endAcqRun s).acq.acqState ≠ .running from hrun)]
    rfl

/-- The overrun exit with a sink that accepts everything, in a poll and in an ACQ.RUN that it ends
(60_exceptions.md R232; 42_acquisition_loop.md R163). -/
theorem exitAcq_overrun_accepting {s : State} (htape : s.env.sinkTape = []) :
    exitAcq .overrun s = .next (leaveAcq .overrun (closedPacker s)) ∧
      exitAcq .overrun (endAcqRun s) = .next (endAcqRun (leaveAcq .overrun (closedPacker s))) := by
  rw [← leaveAcq_endAcqRun, exitAcq, exitAcq, if_pos (.inr rfl), if_pos (.inr rfl), packClose_accepting htape,
    packClose_accepting (s := endAcqRun s) htape]
  exact ⟨rfl, rfl⟩

/-- What the overrun exit of a RUNNING unit leaves in the environment, and what it drops: the partial word
(41_bit_packer_unpacker.md R142; 60_exceptions.md R232). -/
theorem leaveAcq_closedPacker {s : State} (hrun : s.acq.acqState = .running) :
    (leaveAcq .overrun (closedPacker s)).env = { s.env with
        producer := .stopped
        persisted := s.env.persisted ++ s.acq.pkBatch
        trace := (leaveAcq .overrun (closedPacker s)).env.trace } ∧
      streamBits (leaveAcq .overrun (closedPacker s)).env.persisted ++
        partialBits s.acq.pkWord s.acq.pkNbits = packedStream s := by
  have running : (closedPacker s).acq.acqState = .running := hrun
  rw [leaveAcq_env, if_pos running]
  exact ⟨rfl, congrArg (· ++ _) (streamBits_append _ _)⟩

/-- Settles O24: the poll gets to its look at BEFORE, the overrun check flags the overrun, and the exit closes
the packer, whose partial word is what is dropped. -/
theorem overrunTakesTheExit : Obligations.OverrunTakesTheExit := by
  intro s hinv hrun hcancel hq hw hb hfar htape w b n off checked
  obtain ⟨u, looked, -, hraised⟩ := hinv.poll_quiet hrun hcancel hq rfl rfl hw hb (.inr htape)
  have raised := hraised hfar
  have running : (overrunFlagged b u).acq.acqState = .running := looked.frame.acqState.trans hrun
  obtain ⟨pollExit, runExit⟩ :=
    exitAcq_overrun_accepting (s := overrunFlagged b u) ((looked.tape (.inr htape)).trans htape)
  obtain ⟨env, stream⟩ := leaveAcq_closedPacker running
  obtain ⟨evs', exitTrace, exitFilter, -⟩ := exitAcq_accesses running pollExit
  have acq := looked.acq
  have packed := looked.packed
  obtain ⟨evs, htrace, hfilter⟩ := looked.accesses
  rw [pollVerified_quiet hq] at acq
  rw [pollSample_quiet hq] at packed hfilter
  refine ⟨leaveAcq .overrun (closedPacker (overrunFlagged b u)), ?_, ?_, ?_, ?_, ?_, ?_, ?_, fun htest => ?_,
    fun htest => ?_, evs ++ evs', ?_, ?_⟩
  · rw [exec, execAcqPoll, if_pos hrun, raised]
    exact pollExit
  · rw [exec, execAcqRun, if_pos hrun, acqRunPoll, raised]
    exact runExit
  · rw [leaveAcq_cfg]
    exact looked.frame.cfg
  · rw [leaveAcq_dec]
    exact looked.frame.dec
  · rw [leaveAcq_acq, closedPacker, overrunFlagged, looked.lastRead, acq]
    rfl
  · rw [env, overrunFlagged, looked.env_quiet hq (.inr htape)]
  · rw [leaveAcq_port, closedPacker, overrunFlagged, looked.frame.port]
    rfl
  · obtain ⟨-, -, hbatch, hpersisted⟩ := looked.selfTest htest
    rw [env, ← hbatch, ← hpersisted]
    rfl
  · obtain ⟨hbits, hstream⟩ := packed htest
    exact ⟨partialBits u.acq.pkWord u.acq.pkNbits, by simpa [partialBits] using hbits, stream.trans hstream⟩
  · rw [exitTrace, ← List.append_assoc, ← htrace]
    rfl
  · have all : (evs ++ evs').filter notSinkWrite = _ := List.filter_append evs evs'
    rw [hfilter, exitFilter, List.append_assoc] at all
    exact all

end Sys2Proof.Machine

/-! The bit packer, the bit unpacker and the verifier (statements O29, O34 to O39): how a packer command ends,
the lane law of the packed words, what UNPK.GET does for each answer of the source, and the round trip. -/

namespace Sys2Proof.Machine

/-! ### The verifier -/

/-- The default expectation is the Sample's index (41_bit_packer_unpacker.md R147). -/
theorem eq_verifyExpect_iff {v off : Word} :
    v = verifyExpect .sampleIndex off ↔ v.toNat = off.toNat / 4 := by
  rw [← BitVec.toNat_inj, verifyExpect, BitVec.toNat_udiv]
  rfl

theorem verifyCheck_match {v off : Word} {s : State} (h : v = verifyExpect s.cfg.verify off) :
    verifyCheck v off s = s := if_pos h

theorem verifyCheck_mismatch {v off : Word} {s : State} (h : v ≠ verifyExpect s.cfg.verify off) :
    verifyCheck v off s = { s with acq := { s.acq with
      vfyFirstOff := if s.acq.vfyMismatch = 0 then off else s.acq.vfyFirstOff
      vfyFirstGot := if s.acq.vfyMismatch = 0 then v else s.acq.vfyFirstGot
      vfyMismatch := s.acq.vfyMismatch + 1
      fVerifyErr := true } } := if_neg h

/-- Settles O29: the first mismatch is the one that finds the count at 0. -/
theorem verifierChecksSample : Obligations.VerifierChecksSample := by
  intro s v off hrule
  have expected : v = verifyExpect s.cfg.verify off ↔ v.toNat = off.toNat / 4 := hrule ▸ eq_verifyExpect_iff
  refine ⟨verifyCheck_match ∘ expected.mpr, fun hne hfirst => ?_, fun hne hlater => ?_⟩
  · rw [verifyCheck_mismatch (hne ∘ expected.mp), if_pos hfirst, if_pos hfirst, hfirst]
    rfl
  · rw [verifyCheck_mismatch (hne ∘ expected.mp), if_neg hlater, if_neg hlater]

/-! ### How a packer command ends -/

theorem packerCommand_stopped {m : State → Micro Unit} {s : State} (h : s.acq.acqState = .stopped) :
    packerCommand m s = .next (s.respond .illegalState 0) := if_pos h

theorem packerCommand_done {m : State → Micro Unit} {s t : State} (hlive : s.acq.acqState ≠ .stopped)
    (h : m s = .done () t) : packerCommand m s = .next (t.respond .ok 0) := by
  rw [packerCommand, if_neg hlive, h]
  rfl

/-- The state after the exit with IO_ERR, which closes nothing and stops the producer of a RUNNING unit
(60_exceptions.md R232). -/
def exitedIoErr (s : State) : State :=
  { s with
    acq := { s.acq with acqCause := .ioErr, acqExit := 1, acqState := .stopped }
    env := { s.env with
      producer := if s.acq.acqState = .running then .stopped else s.env.producer
      trace := s.env.trace ++ if s.acq.acqState = .running then [.barrier, .prodStop] else [] }
    port := { s.port with responses := s.port.responses ++ [{ rc := .exit, val := 3 }] } }

theorem leaveAcq_ioErr (s : State) : leaveAcq .ioErr s = exitedIoErr s := by
  unfold leaveAcq exitedIoErr
  by_cases hrun : s.acq.acqState = .running
  · simp only [if_pos hrun]
    rw [List.append_cons]
    rfl
  · simp only [if_neg hrun, List.append_nil]
    rfl

theorem packerCommand_ioErr {m : State → Micro Unit} {s t : State} (hlive : s.acq.acqState ≠ .stopped)
    (h : m s = .raised .ioErr t) : packerCommand m s = .next (exitedIoErr t) := by
  rw [packerCommand, if_neg hlive, h, ← leaveAcq_ioErr]
  rfl

/-- Settles O35, by the three things a flush can do. -/
theorem PackerCommand.packFlush : Obligations.PackFlush := by
  intro s answer
  refine ⟨fun hlive hempty => ?_, fun hlive hne haccept => ?_, fun n hlive htape hshort => ?_,
    packerCommand_stopped⟩
  · exact packerCommand_done hlive (packFlush_empty hempty)
  · exact packerCommand_done hlive (packFlush_accepted hne haccept)
  · exact packerCommand_ioErr hlive (packFlush_short htape hshort)

theorem packClose_of_flush_done {s t : State} (h : packFlush s = .done () t) :
    packClose s = .done () { t with acq := { t.acq with pkWord := 0, pkNbits := 0 } } := by
  rw [packClose, h, Micro.bind_done]

theorem packClose_of_flush_raised {s t : State} {c : Cause} (h : packFlush s = .raised c t) :
    packClose s = .raised c t := by
  rw [packClose, h, Micro.bind_raised]

/-- Settles O36: the partial word is cleared after the flush, so a flush that fails keeps it. -/
theorem PackerCommand.packClose : Obligations.PackClose := by
  intro s answer
  refine ⟨fun hlive hempty => ?_, fun hlive hne haccept => ?_, fun n hlive htape hshort => ?_,
    packerCommand_stopped⟩
  · exact packerCommand_done hlive (packClose_of_flush_done (packFlush_empty hempty))
  · exact packerCommand_done hlive (packClose_of_flush_done (packFlush_accepted hne haccept))
  · exact packerCommand_ioErr hlive (packClose_of_flush_raised (packFlush_short htape hshort))

/-! ### PACK.ADD -/

/-- Shifting a bit in is doubling and adding, modulo 2^32 (41_bit_packer_unpacker.md R140). -/
theorem shiftIn_eq_ofNat (w : Word) (b : Bool) : shiftIn w b = BitVec.ofNat 32 (2 * w.toNat + b.toNat) := by
  apply BitVec.eq_of_getLsbD_eq
  intro i hi
  rw [getLsbD_shiftIn hi, BitVec.getLsbD_ofNat, ← Nat.bit_val]
  cases i with
  | zero => simp
  | succ i => simp [hi, Nat.testBit_bit_succ, BitVec.testBit_toNat]

/-- A bit that does not complete the word (41_bit_packer_unpacker.md R140). -/
theorem packBit_partial {s : State} (b : Bool) (hbits : s.acq.pkNbits + 1 ≠ 32) :
    packBit b s = .done () { s with acq := { s.acq with
      pkWord := shiftIn s.acq.pkWord b, pkNbits := s.acq.pkNbits + 1 } } := if_neg hbits

/-- A bit that completes a word but not the batch (41_bit_packer_unpacker.md R140). -/
theorem packBit_completes {s : State} (b : Bool) (hbits : s.acq.pkNbits + 1 = 32)
    (hwords : s.acq.pkBatch.length + 1 ≠ s.cfg.batchWords) :
    packBit b s = .done () { s with acq := { s.acq with
      pkBatch := s.acq.pkBatch ++ [shiftIn s.acq.pkWord b], pkWord := 0, pkNbits := 0 } } := by
  unfold packBit
  rw [if_pos hbits]
  exact if_neg (by rw [List.length_append]; exact hwords)

/-- Settles O34, by where the bit falls: inside a word, at the end of one, at the end of the batch, whose flush
is accepted or short. -/
theorem PackerCommand.packAdd : Obligations.PackAdd := by
  intro s b
  rw [← shiftIn_eq_ofNat]
  intro w full answer
  have hlen : full.length = s.acq.pkBatch.length + 1 := List.length_append
  refine ⟨fun hlive hpart => ?_, fun hlive hbits hroom => ?_, fun hlive hbits hfull haccept => ?_,
    fun n hlive hbits hfull htape hshort => ?_, packerCommand_stopped⟩
  · exact packerCommand_done hlive (packBit_partial b hpart)
  · exact packerCommand_done hlive (packBit_completes b hbits (hlen ▸ hroom))
  · exact packerCommand_done hlive ((packBit_fills b hbits (hlen ▸ hfull)).trans
      (packFlush_accepted (by simp) haccept))
  · exact packerCommand_ioErr hlive ((packBit_fills b hbits (hlen ▸ hfull)).trans
      (packFlush_short htape hshort))

/-! ### The lane law -/

/-- The words that the packer has written or buffered, oldest first (41_bit_packer_unpacker.md R143). -/
def wordsOut (s : State) : List Word := s.env.persisted ++ s.acq.pkBatch

theorem packFlush_wordsOut {s t : State} (h : packFlush s = .done () t) : wordsOut t = wordsOut s := by
  rcases packFlush_done h with ⟨-, rfl⟩ | ⟨-, -, rfl⟩
  · rfl
  · exact List.append_nil _

/-- PACK.ADD takes no word back (41_bit_packer_unpacker.md R140). -/
theorem packBit_wordsOut {b : Bool} {s t : State} (h : packBit b s = .done () t) : wordsOut s <+: wordsOut t := by
  have stored : wordsOut s <+: s.env.persisted ++ (s.acq.pkBatch ++ [shiftIn s.acq.pkWord b]) :=
    ⟨_, List.append_assoc ..⟩
  rcases packBit_done h with ⟨-, rfl⟩ | ⟨-, -, rfl⟩ | ⟨-, -, hflush⟩
  · exact ⟨[], List.append_nil _⟩
  · exact stored
  · rw [packFlush_wordsOut hflush]
    exact stored

/-- PACK.ADD of each bit of a list gives the packer these bits, and takes no word back
(41_bit_packer_unpacker.md R143). -/
theorem packAll_packed {bs : List Bool} {s t : State} (hbits : s.acq.pkNbits < 32)
    (h : packAll bs s = .done () t) : Packed s bs t ∧ wordsOut s <+: wordsOut t := by
  induction bs generalizing s with
  | nil =>
    injection h with _ h
    exact h ▸ ⟨Packed.refl hbits, [], List.append_nil _⟩
  | cons b bs ih =>
    obtain ⟨_, u, hbit, hrest⟩ := Micro.bind_eq_done.mp h
    have first := packBit_packed hbits hbit
    obtain ⟨rest, words⟩ := ih first.below hrest
    exact ⟨first.trans rest, (packBit_wordsOut hbit).trans words⟩

/-- A sink that accepts everything ends no PACK.ADD (log 8). -/
theorem packAll_accepting {bs : List Bool} {s : State} (htape : s.env.sinkTape = []) :
    (packAll bs s).FaultFree False fun _ _ => True := by
  induction bs generalizing s with
  | nil => trivial
  | cons b bs ih =>
    exact (packBit_faultFree b (.inr htape)).bind fun _ _ hu => ih (hu.2.resolve_left id)

theorem packedStream_eq (s : State) :
    packedStream s = streamBits (wordsOut s) ++ partialBits s.acq.pkWord s.acq.pkNbits := by
  rw [packedStream, wordsOut, streamBits_append]

/-- From an empty packer, the words written or buffered since and the partial word hold the bits in order
(41_bit_packer_unpacker.md R143). -/
theorem packAll_lanes {bs : List Bool} {s t : State} (hbits : s.acq.pkNbits = 0) (hbatch : s.acq.pkBatch = [])
    (h : packAll bs s = .done () t) :
    ∃ ws, wordsOut t = s.env.persisted ++ ws ∧
      streamBits ws ++ partialBits t.acq.pkWord t.acq.pkNbits = bs ∧ t.acq.pkNbits < 32 := by
  obtain ⟨packed, ws, hws⟩ := packAll_packed (by omega) h
  have before : wordsOut s = s.env.persisted := by rw [wordsOut, hbatch, List.append_nil]
  have stream := packed.stream
  rw [packedStream_eq, packedStream_eq, ← hws, before, hbits, streamBits_append, List.append_assoc,
    List.append_assoc] at stream
  exact ⟨ws, by rw [← hws, before], List.append_cancel_left stream, packed.below⟩

theorem streamBits_cons (w : Word) (ws : List Word) : streamBits (w :: ws) = wordBits w ++ streamBits ws :=
  List.flatMap_cons

theorem length_wordBits (w : Word) : (wordBits w).length = 32 := by simp [wordBits]

theorem length_streamBits (ws : List Word) : (streamBits ws).length = 32 * ws.length := by
  simp [streamBits, List.length_flatMap, length_wordBits, mul_comm]

theorem length_partialBits (w : Word) (n : Nat) : (partialBits w n).length = n := by simp [partialBits]

/-- Whole words followed by fewer than 32 bits are found again by division by 32
(41_bit_packer_unpacker.md R143). -/
theorem lanes_of_split {ws : List Word} {w : Word} {n : Nat} {bs : List Bool} (hn : n < 32)
    (h : streamBits ws ++ partialBits w n = bs) :
    ws.length = bs.length / 32 ∧ streamBits ws = bs.take (32 * (bs.length / 32)) ∧ n = bs.length % 32 ∧
      partialBits w n = bs.drop (32 * (bs.length / 32)) := by
  have hlen : bs.length = 32 * ws.length + n := by
    rw [← h, List.length_append, length_streamBits, length_partialBits]
  have hdiv : bs.length / 32 = ws.length := by omega
  rw [hdiv, ← length_streamBits]
  refine ⟨rfl, ?_, by omega, ?_⟩
  · rw [← h, List.take_left]
  · rw [← h, List.drop_left]

/-- Settles O37: PACK.ADD appends to the packed stream, whose split into words and rest is unique. -/
theorem laneLaw : Obligations.LaneLaw := by
  intro bs s hbits hbatch
  refine ⟨fun htape => ?_, fun t ht => ?_⟩
  · obtain ⟨_, t, ht, -⟩ := (packAll_accepting htape).isDone
    exact ⟨t, ht⟩
  · obtain ⟨ws, hout, hsplit, hbelow⟩ := packAll_lanes hbits hbatch ht
    exact ⟨ws, hout, lanes_of_split hbelow hsplit⟩

/-! ### What UNPK.GET does -/

theorem sourceTape_headD {s : State} {ans : SourceAnswer} (h : s.env.sourceTape.head? = some ans) :
    s.env.sourceTape.headD .eos = ans := by
  rw [List.headD_eq_head?_getD, h]
  rfl

/-- The state after a read of the source (20_memory.md R68). -/
def sourceAsked (ans : SourceAnswer) (s : State) : State :=
  { s with env := { s.env with
    sourceTape := s.env.sourceTape.tail
    trace := s.env.trace ++ [.sourceRead s.cfg.batchWords ans] } }

/-- The state after a refill with data (41_bit_packer_unpacker.md R145). -/
def refilled (ws : List Word) (s : State) : State :=
  { sourceAsked (.data ws) s with dec := { s.dec with upBatch := ws, upWidx := 0 } }

/-- The state after a refill that meets the end of the stream (41_bit_packer_unpacker.md R145). -/
def streamEnded (s : State) : State :=
  { sourceAsked .eos s with dec := { s.dec with upEos := true, decCause := .eos, decExit := 0 } }

theorem unpkRefill_data {s : State} {ws : List Word} (h : s.env.sourceTape.headD .eos = .data ws)
    (hpos : 1 ≤ ws.length) (hmax : ws.length ≤ s.cfg.batchWords) :
    unpkRefill s = .done true (refilled ws s) := by
  rw [unpkRefill, sourceRead, h]
  simp only [hpos, hmax, and_self, if_true, Micro.bind_done]
  rfl

theorem unpkRefill_eos {s : State} (h : s.env.sourceTape.headD .eos = .eos) :
    unpkRefill s = .done false (streamEnded s) := by
  rw [unpkRefill, sourceRead, h]
  rfl

theorem unpkRefill_err {s : State} (h : s.env.sourceTape.headD .eos = .err) :
    unpkRefill s =
      .raised .ioErr { sourceAsked .err s with dec := { s.dec with upIoErr := true } } := by
  rw [unpkRefill, sourceRead, h]
  rfl

theorem unpkBit_sticky {s : State} (h : s.dec.upEos = true) : unpkBit s = .done none s := if_pos h

theorem unpkBit_inWord {s : State} (heos : s.dec.upEos = false) (hleft : s.dec.upNleft ≠ 0) :
    unpkBit s = unpkTakeBit s := by
  rw [unpkBit, heos, if_neg (by decide), if_neg hleft]

theorem unpkBit_inBatch {s : State} (heos : s.dec.upEos = false) (hleft : s.dec.upNleft = 0)
    (hidx : s.dec.upWidx < s.dec.upBatch.length) : unpkBit s = unpkTakeBit (unpkNextWord s) := by
  rw [unpkBit, heos, if_neg (by decide), if_pos hleft, if_neg hidx.ne]

/-- UNPK.GET at the end of the batch is its refill, and a bit of the first word if there is one
(41_bit_packer_unpacker.md R144). -/
theorem unpkBit_refills {s : State} (heos : s.dec.upEos = false) (hleft : s.dec.upNleft = 0)
    (hidx : s.dec.upWidx = s.dec.upBatch.length) :
    unpkBit s = (unpkRefill s).bind fun more s1 =>
      if more then unpkTakeBit (unpkNextWord s1) else .done none s1 := by
  rw [unpkBit, heos, if_neg (by decide), if_pos hleft, if_pos hidx]

/-- The next buffered word becomes the current one, all its bits still to come
(41_bit_packer_unpacker.md R144). -/
theorem unpkNextWord_eq {s : State} (h : s.dec.upWidx < s.dec.upBatch.length) :
    unpkNextWord s = { s with dec := { s.dec with
      upWord := s.dec.upBatch[s.dec.upWidx], upWidx := s.dec.upWidx + 1, upNleft := 32 } } := by
  rw [unpkNextWord, List.getD_eq_getElem _ _ h]

theorem exec_unpkGet_done {s t : State} {r : Option Bool} (hready : decReady s = true)
    (h : unpkBit s = .done r t) : exec .unpkGet s = .next (respondBit r t) := by
  rw [exec, execUnpkGet, if_pos hready, h]
  rfl

theorem exec_unpkGet_raised {s t : State} {c : Cause} (hready : decReady s = true)
    (h : unpkBit s = .raised c t) : exec .unpkGet s = .next (exitDec c t) := by
  rw [exec, execUnpkGet, if_pos hready, h]
  rfl

/-- Settles O39, by the place of the next bit: behind the sticky end, in the current word, in the next word of the
batch, or behind a refill with its three answers. -/
theorem unpkGet : Obligations.UnpkGet := by
  intro s answer asked bitOf
  refine ⟨fun hready => ?_, fun hready => ⟨fun heos => ?_, fun heos hleft => ?_, fun hidx heos hleft => ?_,
    fun heos hleft hidx => ⟨fun w ws htape hmax => ?_, fun htape => ?_, fun htape => ?_⟩⟩⟩
  · exact exec_of_not_accepts (i := .unpkGet) (by simp [Accepts, hready])
  · exact exec_unpkGet_done hready (unpkBit_sticky heos)
  · exact exec_unpkGet_done hready (unpkBit_inWord heos hleft)
  · refine (exec_unpkGet_done hready (unpkBit_inBatch heos hleft hidx)).trans ?_
    rw [unpkNextWord_eq hidx]
    rfl
  · have refill := unpkRefill_data (sourceTape_headD htape) (Nat.succ_pos _) hmax
    have bit := unpkBit_refills heos hleft hidx
    rw [refill, Micro.bind_done, if_pos rfl, unpkNextWord_eq (Nat.succ_pos _)] at bit
    exact exec_unpkGet_done hready bit
  · have bit := unpkBit_refills heos hleft hidx
    rw [unpkRefill_eos (sourceTape_headD htape), Micro.bind_done, if_neg (by decide)] at bit
    exact exec_unpkGet_done hready bit
  · have bit := unpkBit_refills heos hleft hidx
    rw [unpkRefill_err (sourceTape_headD htape), Micro.bind_raised] at bit
    exact exec_unpkGet_raised hready bit

/-! ### The round trip -/

/-- The unpacker has `bits` still to yield: what is left of its current word, the words of its batch that it has not
taken, and the pieces that its source will deliver before the end (41_bit_packer_unpacker.md R144, R146). -/
structure StillYields (s : State) (bits : List Bool) (pieces : List (List Word)) : Prop where
  notEnded : s.dec.upEos = false
  index : s.dec.upWidx ≤ s.dec.upBatch.length
  sizes : ∀ p ∈ pieces, 1 ≤ p.length ∧ p.length ≤ s.cfg.batchWords
  source : ∃ rest, s.env.sourceTape = pieces.map .data ++ rest ∧ rest.headD .eos = .eos
  bits : bits = partialBits s.dec.upWord s.dec.upNleft ++
    streamBits (s.dec.upBatch.drop s.dec.upWidx ++ pieces.flatten)

theorem partialBits_succ (w : Word) (n : Nat) : partialBits w (n + 1) = w.getLsbD n :: partialBits w n := by
  rw [partialBits, List.range_succ_eq_map, List.map_cons, List.map_map, partialBits]
  congr 1
  refine List.map_congr_left fun k _ => congrArg w.getLsbD ?_
  simp only [Nat.succ_eq_add_one]
  omega

/-- Taking a bit of the current word (41_bit_packer_unpacker.md R144). -/
theorem StillYields.takeBit {s : State} {bits : List Bool} {pieces : List (List Word)}
    (h : StillYields s bits pieces) (hleft : s.dec.upNleft ≠ 0) :
    ∃ b bits' t, bits = b :: bits' ∧ unpkTakeBit s = .done (some b) t ∧ StillYields t bits' pieces := by
  obtain ⟨n, hn⟩ := Nat.exists_eq_succ_of_ne_zero hleft
  refine ⟨_, _, _, ?_, rfl, { h with bits := rfl }⟩
  rw [h.bits, hn]
  exact congrArg (· ++ _) (partialBits_succ _ _)

/-- Taking the next word of the batch (41_bit_packer_unpacker.md R144). -/
theorem StillYields.takeNext {s : State} {bits : List Bool} {pieces : List (List Word)}
    (h : StillYields s bits pieces) (hleft : s.dec.upNleft = 0) (hidx : s.dec.upWidx < s.dec.upBatch.length) :
    ∃ b bits' t, bits = b :: bits' ∧ unpkTakeBit (unpkNextWord s) = .done (some b) t ∧
      StillYields t bits' pieces := by
  rw [unpkNextWord_eq hidx]
  refine StillYields.takeBit { h with index := hidx, bits := ?_ } (Nat.succ_ne_zero 31)
  rw [h.bits, hleft, List.drop_eq_getElem_cons hidx, List.cons_append, streamBits_cons]
  rfl

/-- A refill takes the next piece off the source (41_bit_packer_unpacker.md R145). -/
theorem StillYields.refill {s : State} {bits : List Bool} {p : List Word} {pieces : List (List Word)}
    (h : StillYields s bits (p :: pieces)) (hidx : s.dec.upWidx = s.dec.upBatch.length) :
    unpkRefill s = .done true (refilled p s) ∧ StillYields (refilled p s) bits pieces := by
  obtain ⟨rest, htape, hend⟩ := h.source
  obtain ⟨⟨hpos, hmax⟩, hsizes⟩ := List.forall_mem_cons.mp h.sizes
  refine ⟨unpkRefill_data (by rw [htape]; rfl) hpos hmax, h.notEnded, Nat.zero_le _, hsizes,
    ⟨rest, congrArg List.tail htape, hend⟩, ?_⟩
  rw [h.bits, hidx, List.drop_length]
  rfl

/-- UNPK.GET yields the first of the bits still to come, or meets the end of the stream when there is none
(41_bit_packer_unpacker.md R144). -/
theorem StillYields.getsNext {s : State} {bits : List Bool} {pieces : List (List Word)}
    (h : StillYields s bits pieces) :
    (∃ b bits' pieces' t, bits = b :: bits' ∧ unpkBit s = .done (some b) t ∧ StillYields t bits' pieces') ∨
    (bits = [] ∧ ∃ t, unpkBit s = .done none t ∧ t.dec.upEos = true) := by
  by_cases hleft : s.dec.upNleft = 0
  · rcases h.index.lt_or_eq with hidx | hidx
    · obtain ⟨b, bits', t, hcons, hbit, ht⟩ := h.takeNext hleft hidx
      exact .inl ⟨b, bits', pieces, t, hcons, (unpkBit_inBatch h.notEnded hleft hidx).trans hbit, ht⟩
    · rw [unpkBit_refills h.notEnded hleft hidx]
      cases pieces with
      | nil =>
        obtain ⟨rest, htape, hend⟩ := h.source
        refine .inr ⟨?_, streamEnded s, ?_, rfl⟩
        · rw [h.bits, hleft, hidx, List.drop_length]
          rfl
        · rw [unpkRefill_eos (by rw [htape]; exact hend)]
          rfl
      | cons p pieces =>
        obtain ⟨hrefill, hp⟩ := h.refill hidx
        obtain ⟨b, bits', t, hcons, hbit, ht⟩ := hp.takeNext hleft (h.sizes p List.mem_cons_self).1
        exact .inl ⟨b, bits', pieces, t, hcons, by rw [hrefill]; exact hbit, ht⟩
  · obtain ⟨b, bits', t, hcons, hbit, ht⟩ := h.takeBit hleft
    exact .inl ⟨b, bits', pieces, t, hcons, (unpkBit_inWord h.notEnded hleft).trans hbit, ht⟩

/-- Repeated UNPK.GET yields all bits still to come and then meets the end of the stream
(41_bit_packer_unpacker.md R146). -/
theorem StillYields.unpacksAll {s : State} {bits : List Bool} {pieces : List (List Word)}
    (h : StillYields s bits pieces) :
    ∃ t, unpackMany (bits.length + 1) s = .done bits t ∧ t.dec.upEos = true := by
  induction bits generalizing s pieces with
  | nil =>
    rcases h.getsNext with ⟨b, bits', _, _, hcons, -, -⟩ | ⟨-, t, hend, heos⟩
    · exact absurd hcons (List.cons_ne_nil b bits').symm
    · exact ⟨t, by rw [List.length_nil, unpackMany, hend]; rfl, heos⟩
  | cons b bits ih =>
    rcases h.getsNext with ⟨_, _, pieces', u, hcons, hbit, hu⟩ | ⟨hnil, -⟩
    · obtain ⟨rfl, rfl⟩ := List.cons_eq_cons.mp hcons
      obtain ⟨t, hrest, heos⟩ := ih hu
      refine ⟨t, ?_, heos⟩
      rw [List.length_cons, unpackMany, hbit, Micro.bind_done]
      exact congrArg (Micro.bind · _) hrest
    · exact absurd hnil (List.cons_ne_nil b bits)

/-- A reset unpacker yields the stream that its source delivers (41_bit_packer_unpacker.md R146). -/
theorem stillYields_of_reset {u : State} {pieces : List (List Word)} {rest : List SourceAnswer}
    (hreset : u.dec = Dec.reset) (hsizes : ∀ p ∈ pieces, 1 ≤ p.length ∧ p.length ≤ u.cfg.batchWords)
    (htape : u.env.sourceTape = pieces.map .data ++ rest) (hend : rest.headD .eos = .eos) :
    StillYields u (streamBits pieces.flatten) pieces where
  notEnded := by rw [hreset]; rfl
  index := by rw [hreset]; exact le_rfl
  sizes := hsizes
  source := ⟨rest, htape, hend⟩
  bits := by rw [hreset]; rfl

/-- A close that is done has written every complete word (41_bit_packer_unpacker.md R142). -/
theorem packClose_persisted {s t : State} (h : packClose s = .done () t) : t.env.persisted = wordsOut s := by
  obtain ⟨u, hflush, rfl⟩ := packClose_done h
  rcases packFlush_done hflush with ⟨hempty, rfl⟩ | ⟨-, -, rfl⟩
  · rw [wordsOut, hempty, List.append_nil]
  · rfl

/-- Settles O38: the words persisted are those of the lane law, and the reset unpacker yields their bits. -/
theorem packUnpackRoundTrip : Obligations.PackUnpackRoundTrip := by
  intro bs s t t' u pieces rest hbits hbatch hempty hpack hclose hreset hsizes hpieces htape hend
  obtain ⟨ws, hout, hsplit, hbelow⟩ := packAll_lanes hbits hbatch hpack
  obtain ⟨hlen, hstream, -, -⟩ := lanes_of_split hbelow hsplit
  have written : t'.env.persisted = ws := by rw [packClose_persisted hclose, hout, hempty, List.nil_append]
  obtain ⟨v, hunpack, heos⟩ := (stillYields_of_reset hreset hsizes htape hend).unpacksAll
  rw [length_streamBits, hpieces, written, hlen, hstream] at hunpack
  exact ⟨by rw [written, hlen], v, hunpack, heos⟩

end Sys2Proof.Machine

/-! The acquisition loop (statements O5, O13, O15, O16, O30): whose step it is while a unit is busy with a run, the
configuration check and the accesses of ACQ.INIT, the clean exit, and a self-test poll of a correct counter. -/

namespace Sys2Proof.Machine

/-! ### A unit that is busy with a run -/

/-- With an empty port the ACQ unit goes first, then the DEC unit (log 1). -/
theorem step_without_input {s : State} (hport : s.port.inputs = []) :
    step s = if acqBusy s then acqRunTurn s else decRunTurn s := by
  unfold step nextTurn turnWithoutInput
  rw [hport]
  by_cases hbusy : acqBusy s = true
  · simp only [if_pos hbusy]
  · by_cases hrun : s.dec.run = .idle
    · simp only [if_neg hbusy, hrun, ne_eq, not_true_eq_false, if_false, decRunTurn]
    · simp only [if_neg hbusy, if_pos hrun]

/-- A command that is held back stays on the port while its unit goes on with its run (log 13). -/
theorem step_of_heldBack {s : State} {w : CmdWord} {rest : List Input} {i : Instr}
    (hport : s.port.inputs = .command w :: rest) (hd : decode w = .ok i) (hheld : heldBack i s = true) :
    step s = if addressesAcq i then acqRunTurn s else decRunTurn s := by
  unfold step nextTurn
  simp only [hport, hd, hheld, if_true]
  cases addressesAcq i <;> rfl

/-- The commands that a unit busy with an ACQ.RUN holds back (93_implementation_defined.md U15; log 13). -/
theorem heldBack_of_acqBusy {s : State} {i : Instr} (hbusy : acqBusy s = true)
    (hi : i ∈ [.acqInit, .acqPoll, .acqStop, .acqRun, .packFlush, .packClose] ∨ ∃ b, i = .packAdd b) :
    heldBack i s = true ∧ addressesAcq i = true := by
  rcases hi with hi | ⟨b, rfl⟩
  · simp only [List.mem_cons, List.not_mem_nil, or_false] at hi
    rcases hi with rfl | rfl | rfl | rfl | rfl | rfl
    all_goals exact ⟨hbusy, rfl⟩
  · exact ⟨hbusy, rfl⟩

/-- The commands that a DEC.RUN in progress holds back (log 13). -/
theorem heldBack_of_decRun {s : State} {i : Instr} (hrun : s.dec.run ≠ .idle)
    (hi : i ∈ [.unpkGet, .decRun] ∨ ∃ b, i = .decBit b) :
    heldBack i s = true ∧ addressesAcq i = false := by
  have held : decide (s.dec.run ≠ .idle) = true := decide_eq_true hrun
  rcases hi with hi | ⟨b, rfl⟩
  · rcases List.mem_pair.mp hi with rfl | rfl
    all_goals exact ⟨held, rfl⟩
  · exact ⟨held, rfl⟩

/-- An iteration of an ACQ.RUN is what the command's own first iteration is (42_acquisition_loop.md R163). -/
theorem acqRunTurn_of_running {s : State} (h : s.acq.acqState = .running) :
    acqRunTurn s = exec .acqRun s :=
  (if_pos h).trans (exec_acqRun_of_running h).symm

/-- A UNPK.GET step of a DEC.RUN is what the command's own first step is (45_decode_driver.md R212). -/
theorem decRunTurn_of_fetch {s : State} (hready : decReady s = true) (hrun : s.dec.run = .fetch) :
    decRunTurn s = exec .decRun s := by
  rw [decRunTurn, hrun, exec_decRun_of_ready hready]

theorem decRunTurn_of_bit {s : State} {b : Bool} (hrun : s.dec.run = .bit b) :
    decRunTurn s = decRunBit b s := by
  rw [decRunTurn, hrun]

theorem exec_decBit_of_ready {s : State} (b : Bool) (h : decReady s = true) :
    exec (.decBit b) s = settleDec (decodeBit b s) fun ev u => u.respond .ok ev.word :=
  if_pos h

/-- Where DEC.BIT goes on, the DEC.BIT step of a run does the same but for the response
(45_decode_driver.md R212). -/
theorem decRunBit_of_next {s t : State} {b : Bool} (hready : decReady s = true)
    (h : exec (.decBit b) s = .next t) :
    decRunBit b s = .next { t with dec := { t.dec with run := .fetch }, port := s.port } := by
  rw [exec_decBit_of_ready b hready] at h
  have frame := decodeBit_keepsDialogue b s
  rcases settleDec_eq_next.mp h with ⟨ev, u, hu, rfl⟩ | ⟨c, u, hu, -⟩
  · rw [hu] at frame
    have port : u.port = s.port := SameDialogue.port frame
    rw [decRunBit, hu, ← port]
    rfl
  · exact absurd hu (decodeBit_not_raised _ _ _ _)

/-- Where DEC.BIT is refused by the model, so is the DEC.BIT step of a run (93_implementation_defined.md U6). -/
theorem decRunBit_of_refused {s : State} {b : Bool} {r : Refusal} (hready : decReady s = true)
    (h : exec (.decBit b) s = .refused r) : decRunBit b s = .refused r := by
  rw [exec_decBit_of_ready b hready] at h
  unfold decRunBit
  cases hu : decodeBit b s with
  | refused r' =>
    rw [hu] at h
    exact h
  | done _ _ | raised _ _ | fault _ =>
    rw [hu] at h
    cases h

/-- Settles O5: with an empty port, or a command held back at its head, the step is the busy unit's next turn. -/
theorem busyUnitHoldsItsCommands : Obligations.BusyUnitHoldsItsCommands := by
  intro s offered acqHeld decHeld inAcqRun
  constructor
  · rintro ⟨hactive, hrun⟩ hport
    rw [← acqRunTurn_of_running hrun]
    have busy := acqBusy_eq_true.mpr ⟨hactive, hrun⟩
    rcases hport with hport | ⟨w, rest, i, hport, hd, hi⟩
    · rw [step_without_input hport, if_pos busy]
    · obtain ⟨held, acq⟩ := heldBack_of_acqBusy busy hi
      rw [step_of_heldBack hport hd held, if_pos acq]
  · intro hready hport
    have turn : s.dec.run ≠ .idle → step s = decRunTurn s := by
      intro hrun
      rcases hport with ⟨hport, hfree⟩ | ⟨w, rest, i, hport, hd, hi⟩
      · rw [step_without_input hport, if_neg (hfree ∘ acqBusy_eq_true.mp)]
      · obtain ⟨held, dec⟩ := heldBack_of_decRun hrun hi
        rw [step_of_heldBack hport hd held, dec]
        rfl
    refine ⟨fun hrun => ?_, fun b hrun => ?_⟩
    · rw [turn (by rw [hrun]; nofun), decRunTurn_of_fetch hready hrun]
    · rw [turn (by rw [hrun]; nofun), decRunTurn_of_bit hrun]
      exact ⟨fun t => decRunBit_of_next hready, fun r => decRunBit_of_refused hready⟩

/-! ### ACQ.INIT -/

/-- The powers of two that a 32-bit CAPACITY may be (00_scope.md R7). -/
theorem isPowerOfTwo_iff {c : Nat} (hc : c ≤ 2 ^ 31) : isPowerOfTwo c = true ↔ ∃ k, c = 2 ^ k := by
  simp only [isPowerOfTwo, List.any_eq_true, List.mem_range, beq_iff_eq]
  constructor
  · rintro ⟨k, -, hk⟩
    exact ⟨k, hk⟩
  · rintro ⟨k, rfl⟩
    have := (Nat.pow_le_pow_iff_right (by decide : 1 < 2)).mp hc
    exact ⟨k, by omega, rfl⟩

/-- CTRL_OFF_* are distinct multiples of 4 (00_scope.md R7). -/
theorem ctrlOffsetsOk_iff {cfg : Config} :
    ctrlOffsetsOk cfg = true ↔
      [cfg.ctrlOffBase, cfg.ctrlOffSize, cfg.ctrlOffChoke, cfg.ctrlOffBefore, cfg.ctrlOffAfter].Nodup ∧
        ∀ w, ctrlOffset cfg w % 4 = 0 := by
  unfold ctrlOffsetsOk
  dsimp only
  rw [Bool.and_eq_true, decide_eq_true_eq]
  refine and_congr_right fun _ => ?_
  simp only [List.all_cons, List.all_nil, Bool.and_true, Bool.and_eq_true, beq_iff_eq]
  constructor
  · rintro ⟨hbase, hsize, hchoke, hbefore, hafter⟩ w
    cases w <;> assumption
  · exact fun h => ⟨h .base, h .size, h .choke, h .before, h .after⟩

/-- The configurations that ACQ.INIT accepts (42_acquisition_loop.md R160; 00_scope.md R7; log 16). -/
theorem acqCfgOk_iff {cfg : Config} :
    acqCfgOk cfg = true ↔
      (∃ k, cfg.capacity.toNat = 2 ^ k) ∧ 4 ≤ cfg.capacity.toNat ∧ cfg.capacity.toNat ≤ 2 ^ 31 ∧
        cfg.minCapacity.toNat ≤ cfg.capacity.toNat ∧ cfg.signalBit ≤ 31 ∧ 1 ≤ cfg.batchWords ∧
        cfg.minCapacity.toNat % 4 = 0 ∧
        [cfg.ctrlOffBase, cfg.ctrlOffSize, cfg.ctrlOffChoke, cfg.ctrlOffBefore, cfg.ctrlOffAfter].Nodup ∧
        ∀ w, ctrlOffset cfg w % 4 = 0 := by
  simp only [acqCfgOk, Bool.and_eq_true, decide_eq_true_eq, ctrlOffsetsOk_iff, and_assoc]
  constructor
  · rintro ⟨hpow, hmin, hmax, rest⟩
    exact ⟨(isPowerOfTwo_iff hmax).mp hpow, hmin, hmax, rest⟩
  · rintro ⟨hpow, hmin, hmax, rest⟩
    exact ⟨(isPowerOfTwo_iff hmax).mpr hpow, hmin, hmax, rest⟩

/-- What the accesses of ACQ.INIT make of the environment (42_acquisition_loop.md R160; log 5, 6). -/
theorem programProducer_eq (s : State) :
    programProducer s = { s with env := { s.env with
      shared := []
      sharedEpoch := s.env.sharedEpoch + 1
      ctrl :=
        ((((Memory.setWord [] s.cfg.ctrlOffBefore 0).setWord s.cfg.ctrlOffAfter 0).setWord
          s.cfg.ctrlOffBase s.cfg.shmBase).setWord s.cfg.ctrlOffSize s.cfg.capacity).setWord
          s.cfg.ctrlOffChoke s.cfg.choke
      ctrlEpoch := s.env.ctrlEpoch + 1
      producer := .running
      trace := s.env.trace ++
        [.prodReset, .ctrlWrite .base s.cfg.shmBase, .ctrlWrite .size s.cfg.capacity,
         .ctrlWrite .choke s.cfg.choke, .barrier, .prodStart] } } := by
  simp only [programProducer, prodStart, barrier, ctrlWrite, prodReset, State.logEvent, ctrlOffset,
    List.append_assoc, List.cons_append, List.nil_append]

theorem execAcqInit_legal {s : State} (hidle : s.acq.acqState = .idle) (hcfg : acqCfgOk s.cfg = true) :
    execAcqInit s = .next (State.respond
      { programProducer { s with acq := clearForInit s.acq } with
        acq := { clearForInit s.acq with acqState := .running } } .ok 0) := by
  rw [execAcqInit, if_pos hidle, if_pos hcfg]
  rfl

/-- A configuration error ends in STOPPED without an access (42_acquisition_loop.md R160;
60_exceptions.md R221). -/
theorem execAcqInit_illegal {s : State} (hidle : s.acq.acqState = .idle) (hcfg : acqCfgOk s.cfg ≠ true) :
    execAcqInit s = .next (leaveAcq .cfgErr { s with acq := { s.acq with fCfgErr := true } }) := by
  rw [execAcqInit, if_pos hidle, if_neg hcfg]
  rfl

/-- The exit sequence of a unit that is not RUNNING makes no access (60_exceptions.md R232). -/
theorem leaveAcq_of_not_running (c : Cause) {s : State} (h : s.acq.acqState ≠ .running) :
    leaveAcq c s = State.respond { s with acq := { s.acq with
      acqCause := c
      acqExit := if c = .cancelled then 0 else 1
      acqState := .stopped } } .exit c.value := by
  unfold leaveAcq
  rw [if_neg h]

/-- Settles O13: the check is the statement's list, and the three branches of ACQ.INIT are its three clauses. -/
theorem acqInit : Obligations.AcqInit := by
  intro s ok
  have check : acqCfgOk s.cfg = true ↔ ok := acqCfgOk_iff
  refine ⟨fun hidle hok => ?_, fun hidle hbad => ?_, fun hbusy => if_neg hbusy⟩
  · rw [exec, execAcqInit_legal hidle (check.mpr hok), programProducer_eq]
    rfl
  · have idle : s.acq.acqState ≠ .running := by rw [hidle]; nofun
    rw [exec, execAcqInit_illegal hidle (hbad ∘ check.mp)]
    exact congrArg Host.Outcome.next (leaveAcq_of_not_running .cfgErr idle)

/-- Settles O15: ACQ.CANCEL has one branch, with no condition. -/
theorem acqCancelSetsOneBit : Obligations.AcqCancelSetsOneBit := fun _ => rfl

/-! ### The clean exit -/

/-- A close of an empty buffer, or of one that the sink accepts whole (41_bit_packer_unpacker.md R142). -/
theorem packClose_accepted {s : State} (h : s.acq.pkBatch = [] ∨ sinkAccepts s.env s.acq.pkBatch.length) :
    packClose s = .done () { closedPacker s with env := { (closedPacker s).env with
      sinkTape := if s.acq.pkBatch = [] then s.env.sinkTape else s.env.sinkTape.tail } } := by
  by_cases hempty : s.acq.pkBatch = []
  · rw [packClose_of_flush_done (packFlush_empty hempty), closedPacker, if_pos hempty, if_pos hempty, hempty,
      List.append_nil, List.append_nil, ← hempty]
  · rw [packClose_of_flush_done (packFlush_accepted hempty (h.resolve_left hempty)), closedPacker,
      if_neg hempty, if_neg hempty]

/-- The state after the clean exit of a RUNNING unit whose closing flush the sink accepts
(60_exceptions.md R232; 41_bit_packer_unpacker.md R142). -/
def cleanlyExited (s : State) : State :=
  { s with
    acq := { s.acq with
      fCancelled := true, pkBatch := [], pkWord := 0, pkNbits := 0
      acqCause := .cancelled, acqExit := 0, acqState := .stopped }
    env := { s.env with
      producer := .stopped
      sinkTape := if s.acq.pkBatch = [] then s.env.sinkTape else s.env.sinkTape.tail
      persisted := s.env.persisted ++ s.acq.pkBatch
      trace := s.env.trace ++
        (if s.acq.pkBatch = [] then [] else [.sinkWrite s.acq.pkBatch s.acq.pkBatch.length]) ++
        [.barrier, .prodStop] }
    port := { s.port with responses := s.port.responses ++ [{ rc := .exit, val := 1 }] } }

/-- The end of the exit sequence of a RUNNING unit stops the producer after a barrier
(60_exceptions.md R232). -/
theorem leaveAcq_of_running (c : Cause) {s : State} (h : s.acq.acqState = .running) :
    leaveAcq c s = State.respond { s with
      acq := { s.acq with
        acqCause := c
        acqExit := if c = .cancelled then 0 else 1
        acqState := .stopped }
      env := { s.env with
        producer := .stopped
        trace := s.env.trace ++ [.barrier, .prodStop] } } .exit c.value := by
  unfold leaveAcq
  rw [if_pos h, List.append_cons]
  rfl

/-- A cancellation whose close is done leaves with CANCELLED (60_exceptions.md R232). -/
theorem exitAcq_cancelled_of_close {s u : State} (h : packClose s = .done () u) :
    exitAcq .cancelled s = .next (leaveAcq .cancelled u) := by
  rw [exitAcq, if_pos (.inl rfl), h]

/-- The exit sequence with CANCELLED (42_acquisition_loop.md R162; 60_exceptions.md R232). -/
theorem exitAcq_cancelled_accepted {s : State} (hrun : s.acq.acqState = .running)
    (h : s.acq.pkBatch = [] ∨ sinkAccepts s.env s.acq.pkBatch.length) :
    exitAcq .cancelled { s with acq := { s.acq with fCancelled := true } } = .next (cleanlyExited s) := by
  have closed := packClose_accepted (s := { s with acq := { s.acq with fCancelled := true } }) h
  exact (exitAcq_cancelled_of_close closed).trans
    (congrArg Host.Outcome.next (leaveAcq_of_running .cancelled hrun))

/-- Settles O16: each of the three commands takes the exit sequence with CANCELLED before any read, and an
ACQ.RUN has ended by then. -/
theorem cleanExit : Obligations.CleanExit := by
  intro s i hrun hi hsink
  have exits := exitAcq_cancelled_accepted hrun hsink
  rcases hi with rfl | ⟨hcancel, rfl | rfl⟩
  · rw [exec, execAcqStop, if_pos hrun]
    exact exits
  · rw [exec, execAcqPoll, if_pos hrun, poll_cancelled hcancel]
    exact exits
  · rw [exec_acqRun_of_running hrun, acqRunPoll, poll_cancelled hcancel]
    exact exitAcq_cancelled_accepted (s := endAcqRun s) hrun hsink

/-! ### The self-test poll of a correct counter -/

/-- The registers of the verifier are the same (10_state.md R32). -/
structure SameVerifier (s t : State) : Prop where
  mismatch : t.acq.vfyMismatch = s.acq.vfyMismatch
  flag : t.acq.fVerifyErr = s.acq.fVerifyErr
  firstOff : t.acq.vfyFirstOff = s.acq.vfyFirstOff
  firstGot : t.acq.vfyFirstGot = s.acq.vfyFirstGot

theorem SameVerifier.trans {s t u : State} (h : SameVerifier s t) (h' : SameVerifier t u) :
    SameVerifier s u :=
  ⟨h'.mismatch.trans h.mismatch, h'.flag.trans h.flag, h'.firstOff.trans h.firstOff,
    h'.firstGot.trans h.firstGot⟩

theorem overrunFlagged_sameVerifier (b : Word) (s : State) : SameVerifier s (overrunFlagged b s) :=
  ⟨rfl, rfl, rfl, rfl⟩

theorem leaveAcq_sameVerifier (c : Cause) (s : State) : SameVerifier s (leaveAcq c s) := by
  constructor <;> rw [leaveAcq_acq]

theorem packClose_sameVerifier (s : State) :
    (packClose s).Post (fun _ => SameVerifier s) (fun _ => SameVerifier s) := by
  cases h : packClose s with
  | done _ t =>
    obtain ⟨u, hu, rfl⟩ := packClose_done h
    rcases packFlush_done hu with ⟨-, rfl⟩ | ⟨-, -, rfl⟩
    · exact ⟨rfl, rfl, rfl, rfl⟩
    · exact ⟨rfl, rfl, rfl, rfl⟩
  | raised c t =>
    obtain ⟨-, -, n, -, -, rfl⟩ := packFlush_raised (packClose_raised h)
    exact ⟨rfl, rfl, rfl, rfl⟩
  | fault _ | refused _ => trivial

/-- The exit sequence leaves the verifier alone (60_exceptions.md R232). -/
theorem exitAcq_sameVerifier {c : Cause} {s t : State} (h : exitAcq c s = .next t) : SameVerifier s t := by
  have closed := packClose_sameVerifier s
  rcases exitAcq_spec h with ⟨-, ⟨u, hu, rfl⟩ | ⟨u, hu, rfl⟩⟩ | ⟨-, -, rfl⟩
  · rw [hu] at closed
    exact SameVerifier.trans closed (leaveAcq_sameVerifier _ u)
  · rw [hu] at closed
    exact SameVerifier.trans closed (leaveAcq_sameVerifier _ u)
  · exact leaveAcq_sameVerifier _ s

/-- Samples that are what the verifier expects change nothing (41_bit_packer_unpacker.md R147). -/
theorem verifySamples_match {val : Nat → Word} {x : Word} {m : Nat} {s : State}
    (h : ∀ j < m, val j = verifyExpect s.cfg.verify (add32 x (BitVec.ofNat 32 (4 * j)))) :
    verifySamples val x m s = s := by
  induction m with
  | zero => rfl
  | succ m ih =>
    rw [verifySamples_succ, ih fun j hj => h j (by omega)]
    exact verifyCheck_match (h m (by omega))

/-- The running offset of Sample `j` of a poll (40_ring_consumer.md R114, R115). -/
theorem toNat_runningOffset (x : Word) (j : Nat) :
    (add32 x (BitVec.ofNat 32 (4 * j))).toNat = (x.toNat + 4 * j) % 2 ^ 32 := by
  rw [add32, BitVec.toNat_add, BitVec.toNat_ofNat, Nat.add_mod_mod]

/-- The Samples of a poll hold the index of their logical position (42_acquisition_loop.md R165). -/
def CountsUp (s : State) (n : Nat) : Prop :=
  ∀ j, 4 * j < n → (sharedWord s.env (pollOffset s j)).toNat = (s.acq.lastRead.toNat + 4 * j) % 2 ^ 32 / 4

/-- The verifier's registers after a quiet self-test poll of a correct counter (42_acquisition_loop.md R165). -/
theorem pollVerified_of_countsUp {s : State} {w : Word} (hrule : s.cfg.verify = .sampleIndex)
    (hq : s.env.schedule = []) (h : CountsUp s (pollBytes s w)) : pollVerified s w = s := by
  rw [pollVerified_quiet hq, verifySamples_match, ite_self]
  intro j hj
  rw [hrule, eq_verifyExpect_iff, toNat_runningOffset]
  exact h j (by omega)

theorem Looked.sameVerifier {s t : State} {w b : Word} (h : Looked s w b t) (hv : pollVerified s w = s) :
    SameVerifier s t := by
  have acq := h.acq
  rw [hv] at acq
  constructor <;> rw [acq]

/-- Settles O30: with a counter that is misaligned the poll is refused; otherwise it gets to its look at BEFORE
with no mismatch, and is done or takes the overrun exit, which leaves the verifier alone. -/
theorem selfTestPollFindsNoMismatch : Obligations.SelfTestPollFindsNoMismatch := by
  intro s t hinv hrun hcancel htest hrule hq hcounter hs
  obtain ⟨misalignedAfter, misalignedBefore⟩ := misalignedCounterRefused s hrun hcancel hq
  have goesOn : ∀ r, exec .acqPoll s ≠ .refused r := fun r hr => by rw [hs] at hr; cases hr
  have hw : (ctrlValue s.cfg s.env .after).toNat % 4 = 0 :=
    Decidable.of_not_not fun hw => goesOn _ (misalignedAfter hw).1
  have hb : (ctrlValue s.cfg s.env .before).toNat % 4 = 0 :=
    Decidable.of_not_not fun hb => goesOn _ (misalignedBefore hinv hw hb (.inl htest)).1
  obtain ⟨u, looked, done, overrun⟩ := hinv.poll_quiet hrun hcancel hq rfl rfl hw hb (.inl htest)
  have verified := looked.sameVerifier (pollVerified_of_countsUp hrule hq hcounter)
  rw [exec, execAcqPoll, if_pos hrun] at hs
  have same : SameVerifier s t := by
    rcases Nat.lt_or_ge s.cfg.capacity.toNat
        (sub32 (ctrlValue s.cfg s.env .before) (ctrlValue s.cfg s.env .after)).toNat with hfar | hnear
    · rw [overrun hfar] at hs
      exact (verified.trans (overrunFlagged_sameVerifier _ u)).trans (exitAcq_sameVerifier hs)
    · rw [done hnear] at hs
      obtain rfl := Host.Outcome.next.inj hs
      exact verified.trans ⟨rfl, rfl, rfl, rfl⟩
  exact ⟨same.mismatch, same.flag, same.firstOff, same.firstGot⟩

end Sys2Proof.Machine

/-! The sync detector (statements O41, O42, O47): what DEC.BIT does in phase SYNC, for a bit that is counted and
for a fall that ends a long run, and the counter after any number of high bits. -/

namespace Sys2Proof.Machine

/-! ### The saturating counter -/

@[simp] theorem sat32_toNat (n : Nat) : (sat32 n).toNat = min n (2 ^ 32 - 1) := by
  rw [sat32, BitVec.toNat_ofNat]
  omega

/-- Counting on from a counter that may have saturated is counting on from the true number
(00_scope.md R10). -/
theorem sat32_sat32_succ (n : Nat) : sat32 ((sat32 n).toNat + 1) = sat32 (n + 1) := by
  apply BitVec.eq_of_toNat_eq
  simp only [sat32_toNat]
  omega

/-- The counter stays at its greatest value, and goes up by one below it (43_sync_detector.md R175). -/
theorem sat32_toNat_succ (w : Word) :
    sat32 (w.toNat + 1) = if w.toNat = 2 ^ 32 - 1 then w else w + 1 := by
  have bound := w.isLt
  apply BitVec.eq_of_toNat_eq
  rw [sat32_toNat]
  split_ifs with hmax
  · omega
  · rw [BitVec.toNat_add, show (1 : Word).toNat = 1 from rfl]
    omega

/-! ### The SYNC fields after a bit that is counted -/

theorem syncNext_high (f : SyncFields) :
    syncNext f true =
      { consecutiveHighs :=
          if f.consecutiveHighs.toNat = 2 ^ 32 - 1 then f.consecutiveHighs else f.consecutiveHighs + 1
        lastBit := true } := by
  rw [← sat32_toNat_succ]
  rfl

theorem syncNext_low_of_low {f : SyncFields} (hlast : f.lastBit = false) : syncNext f false = f := by
  obtain ⟨highs, last⟩ := f
  obtain rfl : last = false := hlast
  rfl

theorem syncNext_low_of_high {f : SyncFields} (hlast : f.lastBit = true) :
    syncNext f false = SyncFields.entry := by
  obtain ⟨highs, last⟩ := f
  obtain rfl : last = true := hlast
  rfl

/-- The SYNC fields after `n` high bits from the entry state (43_sync_detector.md R175, R178). -/
def SyncFields.afterHighs (n : Nat) : SyncFields where
  consecutiveHighs := sat32 n
  lastBit := decide (0 < n)

theorem afterHighs_zero : SyncFields.afterHighs 0 = SyncFields.entry := rfl

theorem syncNext_afterHighs_high (n : Nat) :
    syncNext (.afterHighs n) true = .afterHighs (n + 1) := by
  simp only [syncNext, SyncFields.afterHighs, if_true, sat32_sat32_succ, Nat.zero_lt_succ, decide_true]

/-- A low bit that is counted leads to the entry state, whether or not a high bit came before it. -/
theorem syncNext_afterHighs_low (n : Nat) : syncNext (.afterHighs n) false = SyncFields.entry := by
  cases n with
  | zero => exact syncNext_low_of_low rfl
  | succ n => exact syncNext_low_of_high (by simp [SyncFields.afterHighs])

/-! ### DEC.BIT in phase SYNC -/

/-- Does this bit end a run of at least SYNC_MIN highs? Then SYNC.BIT commits (43_sync_detector.md R175). -/
def EndsLongRun (cfg : Config) (f : SyncFields) (b : Bool) : Prop :=
  b = false ∧ f.lastBit = true ∧ syncMin cfg.frameLen ≤ f.consecutiveHighs.toNat

theorem not_endsLongRun_high (cfg : Config) (f : SyncFields) : ¬ EndsLongRun cfg f true := nofun

theorem not_endsLongRun_of_low {cfg : Config} {f : SyncFields} (b : Bool) (hlast : f.lastBit = false) :
    ¬ EndsLongRun cfg f b :=
  fun ⟨_, hhigh, _⟩ => Bool.false_ne_true (hlast.symm.trans hhigh)

theorem not_endsLongRun_of_short {cfg : Config} {f : SyncFields} (b : Bool)
    (hshort : f.consecutiveHighs.toNat < syncMin cfg.frameLen) : ¬ EndsLongRun cfg f b :=
  fun ⟨_, _, hlong⟩ => Nat.not_lt.mpr hlong hshort

theorem decCfgOk_iff {cfg : Config} :
    decCfgOk cfg = true ↔ 11 ≤ cfg.frameLen ∧ cfg.frameLen ≤ cfg.frameLenMax ∧
      cfg.frameLenMax < 2 ^ 31 ∧ 1 ≤ cfg.batchWords := by
  simp [decCfgOk, and_assoc]

/-- The counter, saturated or not, tells long runs from short ones: SYNC_MIN is below 2^32 under DEC_CFG_OK
(45_decode_driver.md R205). -/
theorem endsLongRun_afterHighs {cfg : Config} (hcfg : decCfgOk cfg = true) (n : Nat) :
    EndsLongRun cfg (.afterHighs n) false ↔ syncMin cfg.frameLen ≤ n := by
  obtain ⟨hmin, hmax, hword, -⟩ := decCfgOk_iff.mp hcfg
  simp only [EndsLongRun, SyncFields.afterHighs, sat32_toNat, decide_eq_true_eq, true_and, syncMin]
  omega

/-- The default LEARN answers FRAME_LEN, which DEC_CFG_OK keeps within 11..FRAME_LEN_MAX
(43_sync_detector.md R179, 45_decode_driver.md R205). -/
theorem learn_configured {cfg : Config} (hcfg : decCfgOk cfg = true) (hrule : cfg.learn = .configured)
    (run : Nat) :
    11 ≤ learn cfg.learn cfg.frameLen run ∧ learn cfg.learn cfg.frameLen run ≤ cfg.frameLenMax ∧
      learn cfg.learn cfg.frameLen run = cfg.frameLen := by
  obtain ⟨hmin, hmax, -, -⟩ := decCfgOk_iff.mp hcfg
  rw [hrule]
  exact ⟨hmin, hmax, rfl⟩

section
variable {s : State} {f : SyncFields} (hphase : s.dec.phase = .sync f)
include hphase

theorem decodeBit_of_sync (b : Bool) :
    decodeBit b s = syncBit f b s.dec.bitOffset
      { s with dec := { s.dec with bitOffset := s.dec.bitOffset + 1 } } := by
  unfold decodeBit
  rw [hphase]

/-- A bit that does not end a long run is counted (43_sync_detector.md R175). -/
theorem decodeBit_counts {b : Bool} (hrun : ¬ EndsLongRun s.cfg f b) :
    decodeBit b s = .done .none { s with dec := { s.dec with
      bitOffset := s.dec.bitOffset + 1, phase := .sync (syncNext f b) } } := by
  rw [decodeBit_of_sync hphase]
  exact if_neg hrun

/-- The low bit that ends a long run goes to SYNC.COMMIT (43_sync_detector.md R175). -/
theorem decodeBit_fall (hrun : EndsLongRun s.cfg f false) :
    decodeBit false s = syncCommit f false s.dec.bitOffset
      { s with dec := { s.dec with bitOffset := s.dec.bitOffset + 1 } } := by
  rw [decodeBit_of_sync hphase]
  exact if_pos hrun

/-- A commit within LEARN's range enters DECODE, with the falling-edge bit as sample 0
(43_sync_detector.md R176). -/
theorem decodeBit_commits {fl : Nat} (hrun : EndsLongRun s.cfg f false)
    (hfl : learn s.cfg.learn s.cfg.frameLen f.consecutiveHighs.toNat = fl)
    (hrange : 11 ≤ fl ∧ fl ≤ s.cfg.frameLenMax) :
    decodeBit false s = .done .commit { s with dec := { s.dec with
      bitOffset := s.dec.bitOffset + 1
      nSync := s.dec.nSync + 1
      phase := .decode { frameLength := fl, buf := [false], frameStart := s.dec.bitOffset } } } := by
  subst hfl
  rw [decodeBit_fall hphase hrun]
  exact if_pos hrange

/-- A commit outside LEARN's range has no meaning (43_sync_detector.md R179; log 10). -/
theorem decodeBit_refuses {fl : Nat} (hrun : EndsLongRun s.cfg f false)
    (hfl : learn s.cfg.learn s.cfg.frameLen f.consecutiveHighs.toNat = fl)
    (hrange : ¬ (11 ≤ fl ∧ fl ≤ s.cfg.frameLenMax)) :
    decodeBit false s = .refused (.learnOutOfRange fl) := by
  subst hfl
  rw [decodeBit_fall hphase hrun]
  exact if_neg hrange

end

/-- DEC.BIT answers the event word of its bit (45_decode_driver.md R206). -/
theorem exec_decBit_done {s t : State} {b : Bool} {ev : DecEvent} (hready : decReady s = true)
    (h : decodeBit b s = .done ev t) : exec (.decBit b) s = .next (t.respond .ok ev.word) := by
  rw [exec_decBit_of_ready b hready, h]
  rfl

theorem exec_decBit_refused {s : State} {b : Bool} {r : Refusal} (hready : decReady s = true)
    (h : decodeBit b s = .refused r) : exec (.decBit b) s = .refused r := by
  rw [exec_decBit_of_ready b hready, h]
  rfl

/-- Settles O41: each clause is one branch of SYNC.BIT, with the fields that `syncNext` or the commit leaves. -/
theorem decBitInSync : Obligations.DecBitInSync := by
  intro s f hready hphase
  dsimp only
  refine ⟨?high, fun hlast => ?low, fun hlast hshort => ?shortFall, fun hlast hlong hmin hmax => ?commit,
    fun hrule => learn_configured (decReady_cfg hready) hrule _⟩
  case high =>
    rw [← syncNext_high]
    exact exec_decBit_done hready (decodeBit_counts hphase (not_endsLongRun_high _ _))
  case low =>
    have counted := decodeBit_counts hphase (not_endsLongRun_of_low false hlast)
    rw [syncNext_low_of_low hlast] at counted
    exact exec_decBit_done hready counted
  case shortFall =>
    have cleared := decodeBit_counts hphase (not_endsLongRun_of_short false hshort)
    rw [syncNext_low_of_high hlast] at cleared
    exact exec_decBit_done hready cleared
  case commit =>
    exact exec_decBit_done hready (decodeBit_commits hphase ⟨rfl, hlast, hlong⟩ rfl ⟨hmin, hmax⟩)

/-- Settles O42: SYNC.COMMIT turns on LEARN's range alone. -/
theorem commitNeedsLearnInRange : Obligations.CommitNeedsLearnInRange := by
  intro s f hready hphase hlast hlong fl
  have hrun : EndsLongRun s.cfg f false := ⟨rfl, hlast, hlong⟩
  by_cases hrange : 11 ≤ fl ∧ fl ≤ s.cfg.frameLenMax
  · exact .inl ⟨hrange.1, hrange.2, _, exec_decBit_done hready (decodeBit_commits hphase hrun rfl hrange),
      _, rfl, rfl⟩
  · exact .inr ⟨hrange, exec_decBit_refused hready (decodeBit_refuses hphase hrun rfl hrange)⟩

/-! ### A run of high bits -/

/-- One more bit after a list of bits: one more event, and the state after it. -/
theorem decodeAll_concat {bs : List Bool} {b : Bool} {s t u : State} {evs : List DecEvent} {ev : DecEvent}
    (hbs : decodeAll bs s = .done evs t) (hb : decodeBit b t = .done ev u) :
    decodeAll (bs ++ [b]) s = .done (evs ++ [ev]) u := by
  induction bs generalizing s evs with
  | nil =>
    obtain ⟨rfl, rfl⟩ := Micro.done.inj hbs
    simp [decodeAll, hb]
  | cons c bs ih =>
    obtain ⟨ev₁, s₁, hfirst, hrest⟩ := Micro.bind_eq_done.mp hbs
    obtain ⟨evs₁, t₁, hothers, hdone⟩ := Micro.bind_eq_done.mp hrest
    obtain ⟨rfl, rfl⟩ := Micro.done.inj hdone
    simp [decodeAll, hfirst, ih hothers]

/-- The decoder `n` high bits after an entry into SYNC: it has counted them and nothing else
(43_sync_detector.md R175). -/
theorem decodeAll_highs {s : State} (hphase : s.dec.phase = .sync SyncFields.entry) (n : Nat) :
    decodeAll (List.replicate n true) s = .done (List.replicate n .none) { s with dec := { s.dec with
      bitOffset := s.dec.bitOffset + BitVec.ofNat 64 n, phase := .sync (.afterHighs n) } } := by
  induction n with
  | zero =>
    have nothing : { s with dec := { s.dec with
        bitOffset := s.dec.bitOffset + BitVec.ofNat 64 0, phase := .sync (.afterHighs 0) } } = s := by
      rw [afterHighs_zero, ← hphase, BitVec.add_zero]
    rw [nothing]
    rfl
  | succ n ih =>
    have counted := decodeAll_concat ih (decodeBit_counts rfl (not_endsLongRun_high _ _))
    rw [syncNext_afterHighs_high] at counted
    rw [List.replicate_succ', List.replicate_succ', counted, BitVec.ofNat_add, ← BitVec.add_assoc]
    rfl

/-- Settles O47: after the highs, the low bit commits exactly when the run is long. -/
theorem syncThreshold : Obligations.SyncThreshold := by
  intro s r hcfg hrule hphase
  have highs := decodeAll_highs hphase r
  have long := endsLongRun_afterHighs hcfg r
  rcases Nat.lt_or_ge r (syncMin s.cfg.frameLen) with hlt | hge
  · have cleared := decodeAll_concat highs (decodeBit_counts rfl (mt long.mp (Nat.not_le.mpr hlt)))
    rw [syncNext_afterHighs_low] at cleared
    exact ⟨_, _, cleared, fun hge => absurd hge (Nat.not_le.mpr hlt), fun _ => rfl⟩
  · obtain ⟨hmin, hmax, hfl⟩ := learn_configured hcfg hrule (sat32 r).toNat
    have committed := decodeAll_concat highs
      (decodeBit_commits rfl (long.mpr hge) hfl ⟨hfl ▸ hmin, hfl ▸ hmax⟩)
    exact ⟨_, _, committed, fun _ => rfl, fun hlt => absurd hge (Nat.not_le.mpr hlt)⟩

end Sys2Proof.Machine


/-! The frame decoder (statements O43 to O46, O49, O50): what a window evaluates to, sample by sample, what
DEC.BIT does in phase DECODE, and that what it does from SYNC on depends on nothing that came before. -/

namespace Sys2Proof.Machine

/-! ### The samples of a window -/

/-- From frame_length 11 on the samples of every cell lie inside the window (44_frame_decoder.md R194). -/
theorem ofs_inside {fl i : Nat} (hfl : 11 ≤ fl) (hi : i ≤ 9) : ofs fl i + 2 < frs fl := by
  have last : ofs fl i ≤ ofs fl 9 := Nat.div_le_div_right (Nat.mul_le_mul_left fl hi)
  have inside : ofs fl 9 + 2 < frs fl := by unfold ofs frs; omega
  exact (Nat.add_le_add_right last 2).trans_lt inside

theorem ofs_zero (fl : Nat) : ofs fl 0 = 0 := by rw [ofs, Nat.mul_zero, Nat.zero_div]

/-- Settles O46: by `ofs_inside`, and below 11 by the arithmetic of the last cell. -/
theorem sampledIndicesInBounds : Obligations.SampledIndicesInBounds := by
  intro fl
  refine ⟨fun hfl i hi => Nat.le_sub_one_of_lt (ofs_inside hfl hi), fun hpos hshort => ?_⟩
  unfold ofs frs
  omega

theorem windowAt_eq_getD {w : List Bool} {i : Nat} (h : i < w.length) (d : Bool) :
    windowAt w i = w.getD i d := by
  rw [windowAt, List.getD_eq_getElem _ _ h, List.getD_eq_getElem _ _ h]

theorem getElem?_eq_windowAt {w : List Bool} {i : Nat} (h : i < w.length) :
    w[i]? = some (windowAt w i) := by
  rw [windowAt, List.getD_eq_getElem _ _ h, List.getElem?_eq_getElem h]

theorem windowAt_of_getElem? {w : List Bool} {i : Nat} {b : Bool} (h : w[i]? = some b) :
    windowAt w i = b := by
  rw [windowAt, List.getD_eq_getElem?_getD, h, Option.getD_some]

theorem windowAt_zero_of_head? {w : List Bool} {b : Bool} (h : w.head? = some b) : windowAt w 0 = b :=
  windowAt_of_getElem? (List.head?_eq_getElem?.symm.trans h)

/-! ### FRM.VOTE and FRM.ASSEMBLE -/

/-- A cell whose three samples agree votes for their value (44_frame_decoder.md R187). -/
theorem vote_of_samples {w : List Bool} {fl i : Nat} {b : Bool}
    (h : ∀ t, t ≤ 2 → w[ofs fl i + t]? = some b) : vote w fl i = b := by
  have sample : ∀ t, t ≤ 2 → windowAt w (ofs fl i + t) = b := fun t ht => windowAt_of_getElem? (h t ht)
  have first : windowAt w (ofs fl i) = b := sample 0 (by decide)
  rw [vote, first, sample 1 (by decide), sample 2 (by decide), Bool.and_self, Bool.and_self]

/-- A low sample 0 makes position 0 low, whatever the other two are (44_frame_decoder.md R187, R195). -/
theorem vote_start_of_low {w : List Bool} {fl : Nat} (h : windowAt w 0 = false) : vote w fl 0 = false := by
  rw [vote, ofs_zero, h, Bool.false_and, Bool.false_and]

/-- The bit of the byte that takes logical position `i` of the frame (44_frame_decoder.md R189). -/
def byteBit (order : BitOrder) (i : Nat) : Nat := if order = .msbFirst then 8 - i else i - 1

theorem assemble_getLsbD (order : BitOrder) (v : Nat → Bool) {i : Nat} (hpos : 1 ≤ i) (hi : i ≤ 8) :
    (assemble order v).getLsbD (byteBit order i) = v i := by
  cases order with
  | msbFirst =>
    rw [assemble, BitVec.getLsbD_ofBoolListBE]
    interval_cases i <;> rfl
  | lsbFirst =>
    rw [assemble, BitVec.getLsbD_ofBoolListLE]
    interval_cases i <;> rfl

/-- Positions 1 to 8 take every bit of the byte, so they determine it (44_frame_decoder.md R189). -/
theorem assemble_eq {order : BitOrder} {v : Nat → Bool} {x : Byte}
    (h : ∀ i, 1 ≤ i → i ≤ 8 → v i = x.getLsbD (byteBit order i)) : assemble order v = x := by
  apply BitVec.eq_of_getLsbD_eq
  intro k hk
  obtain ⟨i, hpos, hi, rfl⟩ : ∃ i, 1 ≤ i ∧ i ≤ 8 ∧ byteBit order i = k := by
    cases order with
    | msbFirst => exact ⟨8 - k, by omega, by omega, by simp only [byteBit, if_true]; omega⟩
    | lsbFirst => exact ⟨k + 1, by omega, by omega, rfl⟩
  rw [assemble_getLsbD order v hpos hi, h i hpos hi]

/-! ### FRM.SEARCH -/

theorem searchFrom_eq_none_iff {w : List Bool} {n j : Nat} :
    searchFrom w n j = none ↔ ∀ k, j ≤ k → k < j + n → windowAt w k = true := by
  induction n generalizing j with
  | zero => exact iff_of_true rfl fun k hle hlt => absurd hlt (Nat.not_lt.mpr hle)
  | succ n ih =>
    rw [searchFrom]
    split_ifs with hj
    · rw [ih]
      constructor
      · intro h k hle hlt
        rcases Nat.eq_or_lt_of_le hle with rfl | hgt
        · exact hj
        · exact h k hgt (by omega)
      · exact fun h k hle hlt => h k (by omega) (by omega)
    · exact iff_of_false nofun fun h => hj (h j le_rfl (by omega))

/-- Every sample that FRM.SEARCH passed is 1 (44_frame_decoder.md R191). -/
theorem searchFrom_eq_some_passed {w : List Bool} {n j k : Nat} (h : searchFrom w n j = some k) :
    ∀ m, j ≤ m → m < k → windowAt w m = true := by
  induction n generalizing j with
  | zero => cases h
  | succ n ih =>
    rw [searchFrom] at h
    split_ifs at h with hj
    · intro m hle hlt
      rcases Nat.eq_or_lt_of_le hle with rfl | hgt
      · exact hj
      · exact ih h m hgt hlt
    · obtain rfl := Option.some.inj h
      exact fun m hle hlt => absurd hlt (Nat.not_lt.mpr hle)

/-- FRM.SEARCH answers the least index of its range whose sample is 0 (44_frame_decoder.md R191). -/
theorem searchFrom_eq_some_iff {w : List Bool} {n j k : Nat} :
    searchFrom w n j = some k ↔
      j ≤ k ∧ k < j + n ∧ windowAt w k = false ∧ ∀ m, j ≤ m → m < k → windowAt w m = true := by
  constructor
  · intro h
    obtain ⟨hle, hlt, hk⟩ := searchFrom_eq_some h
    exact ⟨hle, hlt, hk, searchFrom_eq_some_passed h⟩
  · rintro ⟨hle, hlt, hk, hpassed⟩
    cases hs : searchFrom w n j with
    | none => exact absurd (searchFrom_eq_none_iff.mp hs k hle hlt) (Bool.eq_false_iff.mp hk)
    | some m =>
      obtain ⟨hle', -, hm⟩ := searchFrom_eq_some hs
      rcases Nat.lt_trichotomy m k with hlt' | rfl | hgt
      · exact absurd (hpassed m hle' hlt') (Bool.eq_false_iff.mp hm)
      · rfl
      · exact absurd (searchFrom_eq_some_passed hs k hle hgt) (Bool.eq_false_iff.mp hk)

/-- The search ends at the end of the window, for it begins inside (44_frame_decoder.md R191). -/
theorem scan0_add_range {fl : Nat} (hfl : 11 ≤ fl) : scan0 fl + (frs fl - scan0 fl) = frs fl := by
  unfold scan0 frs
  omega

section
variable {w : List Bool} {fl : Nat} (hfl : 11 ≤ fl) (hw : w.length = frs fl)
include hfl hw

theorem search_eq_some_iff {j : Nat} :
    search w fl = some j ↔
      scan0 fl ≤ j ∧ w[j]? = some false ∧ ∀ k, scan0 fl ≤ k → k < j → w[k]? = some true := by
  rw [search, searchFrom_eq_some_iff, scan0_add_range hfl, ← hw]
  constructor
  · rintro ⟨hle, hlt, hj, hpassed⟩
    refine ⟨hle, ?_, fun k hk hkj => ?_⟩
    · rw [getElem?_eq_windowAt hlt, hj]
    · rw [getElem?_eq_windowAt (hkj.trans hlt), hpassed k hk hkj]
  · rintro ⟨hle, hj, hpassed⟩
    have hlt : j < w.length := (List.getElem?_eq_some_iff.mp hj).1
    exact ⟨hle, hlt, windowAt_of_getElem? hj, fun k hk hkj => windowAt_of_getElem? (hpassed k hk hkj)⟩

theorem search_eq_none_iff :
    search w fl = none ↔ ∀ k, scan0 fl ≤ k → k < w.length → w[k]? = some true := by
  rw [search, searchFrom_eq_none_iff, scan0_add_range hfl, ← hw]
  refine forall₃_congr fun k _ hlt => ?_
  rw [getElem?_eq_windowAt hlt, Option.some.injEq]

end

/-! ### FRM.EVAL -/

/-- A window is a framing failure iff its start check or its stop check fails (44_frame_decoder.md R188). -/
theorem evalWindow_framingFail_iff {w : List Bool} {fl : Nat} {order : BitOrder} :
    evalWindow w fl order = .framingFail ↔ vote w fl 0 = true ∨ vote w fl 9 = false := by
  rw [evalWindow, ite_eq_left_iff]
  exact ⟨fun h => Decidable.of_not_not fun hn => WindowResult.noConfusion (h hn), fun h hn => absurd h hn⟩

/-- A window that passes both checks is a byte with the search's answer (44_frame_decoder.md R196). -/
theorem evalWindow_valid {w : List Bool} {fl : Nat} {order : BitOrder} (hstart : vote w fl 0 = false)
    (hstop : vote w fl 9 = true) :
    evalWindow w fl order = .byte (assemble order (vote w fl)) (search w fl) := by
  rw [evalWindow, hstart, hstop]
  exact if_neg (by decide)

/-- Settles O44: the samples read are inside the window, so the free values never show; then each part of the
result is its own lemma. -/
theorem windowEvaluation : Obligations.WindowEvaluation := by
  intro w fl order hfl hw v
  have inside : ∀ i, i ≤ 9 → ofs fl i + 2 < w.length := fun i hi => hw ▸ ofs_inside hfl hi
  have voted : ∀ i, i ≤ 9 → vote w fl i = v i := by
    intro i hi
    have last := inside i hi
    rw [vote, windowAt_eq_getD (by omega) true, windowAt_eq_getD (by omega) true, windowAt_eq_getD last true]
    rfl
  have start := voted 0 (by decide)
  have stop := voted 9 (by decide)
  refine ⟨inside, fun hfail => ?fails, fun hstart hstop => 
    ⟨assemble order (vote w fl), search w fl, ?byte, ?bits, ?next, ?exhausted⟩⟩
  case fails => exact evalWindow_framingFail_iff.mpr (by rwa [start, stop])
  case byte => exact evalWindow_valid (start.trans hstart) (stop.trans hstop)
  case bits =>
    intro i hpos hi
    exact (assemble_getLsbD order _ hpos hi).trans (voted i (by omega))
  case next => exact fun j => search_eq_some_iff hfl hw
  case exhausted => exact search_eq_none_iff hfl hw

/-- Settles O45: every cell votes for its own logical bit. -/
theorem frameOfByteDecodes : Obligations.FrameOfByteDecodes := by
  intro w fl order x hfl hw
  refine ⟨fun hcells => ?_, fun h0 h1 h2 => ?_⟩
  · have voted : ∀ i, i ≤ 9 → vote w fl i =
        if i = 0 then false else if i = 9 then true else x.getLsbD (byteBit order i) :=
      fun i hi => vote_of_samples (hcells i · hi)
    have data : assemble order (vote w fl) = x := by
      refine assemble_eq fun i hpos hi => ?_
      rw [voted i (by omega), if_neg (by omega), if_neg (by omega)]
    rw [evalWindow_valid (voted 0 (by decide)) (voted 9 (by decide)), data]
  · have start : vote w fl 0 = true := by
      refine vote_of_samples fun t ht => ?_
      rw [ofs_zero, Nat.zero_add]
      interval_cases t
      · exact h0
      · exact h1
      · exact h2
    exact evalWindow_framingFail_iff.mpr (.inl start)

/-! ### DEC.BIT in phase DECODE -/

section
variable {s : State} {f : DecodeFields} (hphase : s.dec.phase = .decode f)
include hphase

theorem decodeBit_of_decode (b : Bool) :
    decodeBit b s = frmBit f b { s with dec := { s.dec with bitOffset := s.dec.bitOffset + 1 } } := by
  unfold decodeBit
  rw [hphase]

/-- A bit that does not complete the window is buffered (44_frame_decoder.md R185). -/
theorem decodeBit_buffers {b : Bool} (hpart : (f.buf ++ [b]).length ≠ frs f.frameLength) :
    decodeBit b s = .done .none { s with dec := { s.dec with
      bitOffset := s.dec.bitOffset + 1, phase := .decode { f with buf := f.buf ++ [b] } } } := by
  rw [decodeBit_of_decode hphase]
  exact if_neg hpart

variable {b : Bool} (hfull : (f.buf ++ [b]).length = frs f.frameLength)
include hfull

/-- The bit that completes the window has it evaluated in the same step (44_frame_decoder.md R185). -/
theorem decodeBit_of_full :
    decodeBit b s = frmEval { f with buf := f.buf ++ [b] }
      { s with dec := { s.dec with bitOffset := s.dec.bitOffset + 1 } } := by
  rw [decodeBit_of_decode hphase]
  exact if_pos hfull

theorem decodeBit_failsFraming
    (heval : evalWindow (f.buf ++ [b]) f.frameLength s.cfg.bitOrder = .framingFail) :
    decodeBit b s = .done .framingFail { s with dec := { s.dec with
      bitOffset := s.dec.bitOffset + 1
      nFramingFail := s.dec.nFramingFail + 1
      phase := .sync SyncFields.entry } } := by
  simp only [decodeBit_of_full hphase hfull, frmEval, heval]
  rfl

theorem decodeBit_findsNext {x : Byte} {j : Nat}
    (heval : evalWindow (f.buf ++ [b]) f.frameLength s.cfg.bitOrder = .byte x (some j)) :
    decodeBit b s = .done (.byte x) { s with
      dec := { s.dec with
        bitOffset := s.dec.bitOffset + 1
        nBytes := s.dec.nBytes + 1
        phase := .decode (frmShift { f with buf := f.buf ++ [b] } j) }
      env := { s.env with output := s.env.output ++ [x], trace := s.env.trace ++ [.emitByte x] } } := by
  simp only [decodeBit_of_full hphase hfull, frmEval, heval]
  rfl

theorem decodeBit_exhausts {x : Byte}
    (heval : evalWindow (f.buf ++ [b]) f.frameLength s.cfg.bitOrder = .byte x none) :
    decodeBit b s = .done (.byteExhausted x) { s with
      dec := { s.dec with
        bitOffset := s.dec.bitOffset + 1
        nBytes := s.dec.nBytes + 1
        nResyncExhaust := s.dec.nResyncExhaust + 1
        phase := .sync SyncFields.entry }
      env := { s.env with output := s.env.output ++ [x], trace := s.env.trace ++ [.emitByte x] } } := by
  simp only [decodeBit_of_full hphase hfull, frmEval, heval]
  rfl

end

/-! ### The event word of a byte (30_encoding.md R96) -/

/-- Flags above a byte and the byte do not overlap, so the event word is their sum. -/
theorem flags_or_byte (k : Nat) (x : Byte) :
    BitVec.ofNat 32 (2 ^ 8 * k) ||| x.zeroExtend 32 = BitVec.ofNat 32 (2 ^ 8 * k + x.toNat) := by
  have byte : x.zeroExtend 32 = BitVec.ofNat 32 x.toNat := BitVec.ofNat_toNat 32 x |>.symm
  rw [byte, ← BitVec.ofNat_or, Nat.two_pow_add_eq_or_of_lt x.isLt]

theorem word_byte (x : Byte) : (DecEvent.byte x).word = BitVec.ofNat 32 (0x100 + x.toNat) :=
  flags_or_byte 1 x

theorem word_byteExhausted (x : Byte) :
    (DecEvent.byteExhausted x).word = BitVec.ofNat 32 (0x900 + x.toNat) :=
  flags_or_byte 9 x

/-- Settles O43: one lemma for a bit that is buffered, and one for each result of a full window. -/
theorem decBitInDecode : Obligations.DecBitInDecode := by
  intro s f b hready hphase
  dsimp only
  refine ⟨fun hpart => exec_decBit_done hready (decodeBit_buffers hphase hpart), fun hfull =>
    ⟨fun heval => exec_decBit_done hready (decodeBit_failsFraming hphase hfull heval),
      fun x j heval => ?_, fun x heval => ?_⟩⟩
  · rw [← word_byte]
    exact exec_decBit_done hready (decodeBit_findsNext hphase hfull heval)
  · rw [← word_byteExhausted]
    exact exec_decBit_done hready (decodeBit_exhausts hphase hfull heval)

/-- Settles O50: sample 0 of a window is low under the invariant, which decides position 0. -/
theorem onlyTheStopCheckFails : Obligations.OnlyTheStopCheckFails := by
  intro s t f b hinv hphase hd
  obtain ⟨-, -, hhead, -, -⟩ := hinv.window f hphase
  have hlow : windowAt (f.buf ++ [b]) 0 = false := windowAt_zero_of_head? (by simp [hhead])
  have start : vote (f.buf ++ [b]) f.frameLength 0 = false := vote_start_of_low hlow
  have failed : vote (f.buf ++ [b]) f.frameLength 0 = true ∨ vote (f.buf ++ [b]) f.frameLength 9 = false := by
    rw [decodeBit_of_decode hphase] at hd
    rcases frmBit_done hd with ⟨-, h, -⟩ | ⟨-, heval, -, -⟩ | ⟨x, j, -, -, h, -⟩ | ⟨x, -, -, h, -⟩
    case inr.inl => exact evalWindow_framingFail_iff.mp heval
    all_goals cases h
  exact ⟨start, failed.resolve_left (Bool.eq_false_iff.mp start)⟩

/-! ### Self-resynchronization (44_frame_decoder.md R198) -/

/-- The bytes that an event of the decoder emits (44_frame_decoder.md R190). -/
def DecEvent.emitted : DecEvent → List Byte
  | .byte x | .byteExhausted x => [x]
  | .none | .commit | .framingFail => []

/-- What DEC.BIT adds to the byte output is the byte of its event (44_frame_decoder.md R190). -/
theorem decodeBit_output {b : Bool} {s t : State} {ev : DecEvent} (h : decodeBit b s = .done ev t) :
    t.env.output = s.env.output ++ ev.emitted := by
  cases hphase : s.dec.phase with
  | sync f =>
    rw [decodeBit_of_sync hphase] at h
    rcases syncBit_done h with ⟨-, -, -, -, -, rfl, rfl⟩ | ⟨-, rfl, rfl⟩
    all_goals exact (List.append_nil _).symm
  | decode f =>
    rw [decodeBit_of_decode hphase] at h
    rcases frmBit_done h with ⟨-, rfl, rfl⟩ | ⟨-, -, rfl, rfl⟩ | ⟨x, j, -, -, rfl, rfl⟩ | ⟨x, -, -, rfl, rfl⟩
    · exact (List.append_nil _).symm
    · exact (List.append_nil _).symm
    · rfl
    · rfl

/-- DEC.BIT of each bit of a list: the first bit's event, then those of the rest (45_decode_driver.md R207). -/
theorem decodeAll_cons_eq_done {b : Bool} {bs : List Bool} {s t : State} {evs : List DecEvent} :
    decodeAll (b :: bs) s = .done evs t ↔ ∃ ev evs' u,
      evs = ev :: evs' ∧ decodeBit b s = .done ev u ∧ decodeAll bs u = .done evs' t := by
  constructor
  · intro h
    obtain ⟨ev, u, hfirst, hrest⟩ := Micro.bind_eq_done.mp h
    obtain ⟨evs', v, hothers, hdone⟩ := Micro.bind_eq_done.mp hrest
    obtain ⟨rfl, rfl⟩ := Micro.done.inj hdone
    exact ⟨ev, evs', u, rfl, hfirst, hothers⟩
  · rintro ⟨ev, evs', u, rfl, hfirst, hothers⟩
    rw [decodeAll, hfirst, Micro.bind_done, hothers, Micro.bind_done]

theorem decodeAll_output {bs : List Bool} {s t : State} {evs : List DecEvent}
    (h : decodeAll bs s = .done evs t) : t.env.output = s.env.output ++ evs.flatMap DecEvent.emitted := by
  induction bs generalizing s evs with
  | nil =>
    obtain ⟨rfl, rfl⟩ := Micro.done.inj h
    exact (List.append_nil _).symm
  | cons b bs ih =>
    obtain ⟨ev, evs₁, s₁, rfl, hfirst, hothers⟩ := decodeAll_cons_eq_done.mp h
    rw [ih hothers, decodeBit_output hfirst, List.flatMap_cons, List.append_assoc]

/-- What the decoder's course depends on is the same in both states. -/
structure SameDecoder (s₁ s₂ : State) : Prop where
  cfg : s₁.cfg = s₂.cfg
  phase : s₁.dec.phase = s₂.dec.phase
  bitOffset : s₁.dec.bitOffset = s₂.dec.bitOffset

/-- DEC.BIT of the same bit gives the same event, and the decoders stay the same. -/
theorem SameDecoder.decodeBit_done {b : Bool} {s₁ s₂ t₁ : State} {ev : DecEvent} (h : SameDecoder s₁ s₂)
    (hd : decodeBit b s₁ = .done ev t₁) : ∃ t₂, decodeBit b s₂ = .done ev t₂ ∧ SameDecoder t₁ t₂ := by
  have moved : s₁.dec.bitOffset + 1 = s₂.dec.bitOffset + 1 := congrArg (· + 1) h.bitOffset
  cases hphase : s₁.dec.phase with
  | sync f =>
    have hphase₂ : s₂.dec.phase = .sync f := h.phase ▸ hphase
    rw [decodeBit_of_sync hphase] at hd
    rcases syncBit_done hd with ⟨rfl, hlast, hlong, hmin, hmax, rfl, rfl⟩ | ⟨hrun, rfl, rfl⟩
    · refine ⟨_, decodeBit_commits hphase₂ (h.cfg ▸ ⟨rfl, hlast, hlong⟩) rfl (h.cfg ▸ ⟨hmin, hmax⟩),
        h.cfg, ?_, moved⟩
      show Phase.decode _ = Phase.decode _
      rw [← h.cfg, ← h.bitOffset]
    · exact ⟨_, decodeBit_counts hphase₂ (h.cfg ▸ hrun), h.cfg, rfl, moved⟩
  | decode f =>
    have hphase₂ : s₂.dec.phase = .decode f := h.phase ▸ hphase
    have grown : (f.buf ++ [b]).length = f.buf.length + 1 := List.length_append
    have sameEval : evalWindow (f.buf ++ [b]) f.frameLength s₂.cfg.bitOrder =
        evalWindow (f.buf ++ [b]) f.frameLength s₁.cfg.bitOrder := by rw [h.cfg]
    rw [decodeBit_of_decode hphase] at hd
    rcases frmBit_done hd with ⟨hpart, rfl, rfl⟩ | ⟨hfull, heval, rfl, rfl⟩ |
      ⟨x, j, hfull, heval, rfl, rfl⟩ | ⟨x, hfull, heval, rfl, rfl⟩
    · exact ⟨_, decodeBit_buffers hphase₂ (grown ▸ hpart), h.cfg, rfl, moved⟩
    · exact ⟨_, decodeBit_failsFraming hphase₂ (grown.trans hfull) (sameEval.trans heval), h.cfg, rfl, moved⟩
    · exact ⟨_, decodeBit_findsNext hphase₂ (grown.trans hfull) (sameEval.trans heval), h.cfg, rfl, moved⟩
    · exact ⟨_, decodeBit_exhausts hphase₂ (grown.trans hfull) (sameEval.trans heval), h.cfg, rfl, moved⟩

theorem SameDecoder.decodeAll_done {bs : List Bool} {s₁ s₂ t₁ : State} {evs : List DecEvent}
    (h : SameDecoder s₁ s₂) (hd : decodeAll bs s₁ = .done evs t₁) :
    ∃ t₂, decodeAll bs s₂ = .done evs t₂ ∧ SameDecoder t₁ t₂ := by
  induction bs generalizing s₁ s₂ evs with
  | nil =>
    obtain ⟨rfl, rfl⟩ := Micro.done.inj hd
    exact ⟨s₂, rfl, h⟩
  | cons b bs ih =>
    obtain ⟨ev, evs', u₁, rfl, hfirst, hothers⟩ := decodeAll_cons_eq_done.mp hd
    obtain ⟨u₂, hfirst₂, hu⟩ := h.decodeBit_done hfirst
    obtain ⟨v₂, hothers₂, hv⟩ := ih hu hothers
    exact ⟨v₂, decodeAll_cons_eq_done.mpr ⟨ev, evs', u₂, rfl, hfirst₂, hothers₂⟩, hv⟩

/-- A framing failure and an exhausted search both enter SYNC anew (44_frame_decoder.md R193). -/
theorem decodeBit_resyncs {b : Bool} {s t : State} {ev : DecEvent} (h : decodeBit b s = .done ev t)
    (hev : ev = .framingFail ∨ ∃ x, ev = .byteExhausted x) : t.dec.phase = .sync SyncFields.entry := by
  cases hphase : s.dec.phase with
  | sync f =>
    rw [decodeBit_of_sync hphase] at h
    rcases syncBit_done h with ⟨-, -, -, -, -, rfl, -⟩ | ⟨-, rfl, -⟩
    all_goals simp at hev
  | decode f =>
    rw [decodeBit_of_decode hphase] at h
    rcases frmBit_done h with ⟨-, rfl, -⟩ | ⟨-, -, -, rfl⟩ | ⟨x, j, -, -, rfl, -⟩ | ⟨x, -, -, -, rfl⟩
    · simp at hev
    · rfl
    · simp at hev
    · rfl

/-- Until it commits, a decoder in phase SYNC emits nothing (43_sync_detector.md R175). -/
theorem decodeAll_silent_of_sync {bs : List Bool} {s t : State} {f : SyncFields} {evs : List DecEvent}
    (hphase : s.dec.phase = .sync f) (h : decodeAll bs s = .done evs t) (hev : .commit ∉ evs) :
    evs.flatMap DecEvent.emitted = [] := by
  induction bs generalizing s f evs with
  | nil =>
    obtain ⟨rfl, rfl⟩ := Micro.done.inj h
    rfl
  | cons b bs ih =>
    obtain ⟨ev, evs₁, s₁, rfl, hfirst, hothers⟩ := decodeAll_cons_eq_done.mp h
    rw [decodeBit_of_sync hphase] at hfirst
    rcases syncBit_done hfirst with ⟨-, -, -, -, -, rfl, -⟩ | ⟨-, rfl, rfl⟩
    · exact absurd List.mem_cons_self hev
    · have silent : evs₁.flatMap DecEvent.emitted = [] :=
        ih rfl hothers fun hmem => hev (List.mem_cons_of_mem _ hmem)
      exact silent

/-- Settles O49: the phase and `bit_offset` after the resynchronization are those of a reset decoder, and they
are all that the rest depends on. -/
theorem selfResynchronization : Obligations.SelfResynchronization := by
  intro s t t₁ b ev bs evs hbit hev hrest
  have entered : t.dec.phase = .sync SyncFields.entry := decodeBit_resyncs hbit hev
  have fresh : SameDecoder t { t with dec := { Dec.reset with bitOffset := t.dec.bitOffset } } :=
    ⟨rfl, entered, rfl⟩
  obtain ⟨t₂, hrest₂, same⟩ := fresh.decodeAll_done hrest
  have output₂ := decodeAll_output hrest₂
  exact ⟨entered, t₂, evs.flatMap DecEvent.emitted, hrest₂, same.phase, same.bitOffset,
    decodeAll_output hrest, output₂, decodeAll_silent_of_sync entered hrest⟩

end Sys2Proof.Machine

/-! The decode driver (statements O40, O48, O51 to O53): DEC.RESET, the two steps of a DEC.RUN beside the commands
that they stand for, and the decoder's counters as tallies of its events. -/

namespace Sys2Proof.Machine

/-! ### DEC.RESET -/

/-- Settles O40: DEC_CFG_OK is the statement's list, and the run is the one that was in progress (log 14). -/
theorem decReset : Obligations.DecReset := by
  intro s
  refine ⟨s.dec.run, fun hok => ?legal, fun hbad => ?illegal⟩
  case legal => exact if_pos (decCfgOk_iff.mpr hok)
  case illegal => exact if_neg (mt decCfgOk_iff.mp hbad)

/-! ### The steps of a DEC.RUN -/

/-- A UNPK.GET step that is done ends the run, or holds the bit (45_decode_driver.md R212). -/
theorem exec_decRun_done {s t : State} {r : Option Bool} (hready : decReady s = true)
    (h : unpkBit s = .done r t) : exec .decRun s = .next (decRunGot r t) :=
  (exec_decRun_of_ready hready).trans (decRunFetch_eq_next.mpr (.inl ⟨r, t, h, rfl⟩))

/-- An error of the source ends the run (45_decode_driver.md R212). -/
theorem exec_decRun_raised {s t : State} {c : Cause} (hready : decReady s = true)
    (h : unpkBit s = .raised c t) : exec .decRun s = .next (exitDec c (endDecRun t)) :=
  (exec_decRun_of_ready hready).trans (decRunFetch_eq_next.mpr (.inr ⟨c, t, h, rfl⟩))

/-- Settles O53, by the place of the next bit: behind the sticky end, or in the current word. -/
theorem decRunStarts : Obligations.DecRunStarts := by
  intro s hready
  refine ⟨fun heos => ?sticky, fun heos hleft => ?inWord⟩
  case sticky => exact exec_decRun_done hready (unpkBit_sticky heos)
  case inWord => exact exec_decRun_done hready (unpkBit_inWord heos hleft)

theorem unpkBit_done_port {s t : State} {r : Option Bool} (h : unpkBit s = .done r t) : t.port = s.port := by
  have same := unpkBit_keepsDialogue s
  rw [h] at same
  exact SameDialogue.port same

theorem unpkBit_raised_port {s t : State} {c : Cause} (h : unpkBit s = .raised c t) : t.port = s.port := by
  have same := unpkBit_keepsDialogue s
  rw [h] at same
  exact SameDialogue.port same

/-- What UNPK.GET answers when it is accepted: a bit, RC_EOS, or RC_EXIT (41_bit_packer_unpacker.md R144). -/
theorem exec_unpkGet_eq_next {s t : State} (hready : decReady s = true) :
    exec .unpkGet s = .next t ↔
      (∃ b u, unpkBit s = .done (some b) u ∧ t = u.respond .ok (BitVec.ofNat 32 b.toNat)) ∨
      (∃ u, unpkBit s = .done none u ∧ t = u.respond .eos 0) ∨
      ∃ c u, unpkBit s = .raised c u ∧ t = exitDec c u := by
  have settled : exec .unpkGet s = settleDec (unpkBit s) respondBit := if_pos hready
  rw [settled, settleDec_eq_next]
  constructor
  · rintro (⟨r, u, hu, rfl⟩ | hraised)
    · cases r with
      | some b => exact .inl ⟨b, u, hu, rfl⟩
      | none => exact .inr (.inl ⟨u, hu, rfl⟩)
    · exact .inr (.inr hraised)
  · rintro (⟨b, u, hu, rfl⟩ | ⟨u, hu, rfl⟩ | hraised)
    · exact .inl ⟨some b, u, hu, rfl⟩
    · exact .inl ⟨none, u, hu, rfl⟩
    · exact .inr hraised

theorem bitWord_injective {b c : Bool} (h : BitVec.ofNat 32 b.toNat = BitVec.ofNat 32 c.toNat) : b = c := by
  revert b c
  decide

/-- With an empty port and no ACQ.RUN the step is the DEC unit's turn (log 1). -/
theorem step_of_decRun {s : State} (hport : s.port.inputs = []) (hacq : s.acq.runActive = false) :
    step s = decRunTurn s := by
  rw [step_without_input hport, acqBusy_eq_false.mpr (.inl hacq), if_neg Bool.false_ne_true]

/-- Settles O51, by the answer of UNPK.GET: its last response tells a bit from RC_EOS and RC_EXIT, for the port is
untouched until then. -/
theorem decRunFetchesLikeUnpkGet : Obligations.DecRunFetchesLikeUnpkGet := by
  intro s t hready hget
  have turn : s.port.inputs = [] → s.acq.runActive = false → s.dec.run = .fetch → step s = exec .decRun s :=
    fun hport hacq hrun => (step_of_decRun hport hacq).trans (decRunTurn_of_fetch hready hrun)
  rcases (exec_unpkGet_eq_next hready).mp hget with ⟨b, u, hu, rfl⟩ | ⟨u, hu, rfl⟩ | ⟨c, u, hu, rfl⟩
  case inl =>
    have port : u.port = s.port := unpkBit_done_port hu
    refine ⟨fun b' hresp => ?_, fun hresp => absurd ?_ (hresp (BitVec.ofNat 32 b.toNat)), turn⟩
    · rw [← port] at hresp ⊢
      obtain rfl : b = b' := bitWord_injective (by simpa using hresp)
      exact exec_decRun_done hready hu
    · rw [← port]
      rfl
  case inr.inl =>
    refine ⟨fun b' hresp => ?_, fun _ => exec_decRun_done hready hu, turn⟩
    rw [← unpkBit_done_port hu] at hresp
    simp at hresp
  case inr.inr =>
    refine ⟨fun b' hresp => ?_, fun _ => exec_decRun_raised hready hu, turn⟩
    rw [← unpkBit_raised_port hu] at hresp
    simp at hresp

/-- Settles O52: the turn of a run that holds a bit is its DEC.BIT step. -/
theorem decRunGivesTheBitToDecBit : Obligations.DecRunGivesTheBitToDecBit := by
  intro s t b hready hport hacq hrun hbit
  calc step s
      = decRunTurn s := step_of_decRun hport hacq
    _ = decRunBit b s := decRunTurn_of_bit hrun
    _ = .next { t with dec := { t.dec with run := .fetch }, port := s.port } := decRunBit_of_next hready hbit

/-! ### The decoder's counters -/

/-- The four counters of the decoder (10_state.md R38). -/
structure DecCounters where
  nBytes : DWord
  nFramingFail : DWord
  nResyncExhaust : DWord
  nSync : DWord

def Dec.counters (d : Dec) : DecCounters where
  nBytes := d.nBytes
  nFramingFail := d.nFramingFail
  nResyncExhaust := d.nResyncExhaust
  nSync := d.nSync

/-- The counters after an event: each event has the counters it moves (43_sync_detector.md R176,
44_frame_decoder.md R186). -/
def DecCounters.tally (c : DecCounters) : DecEvent → DecCounters
  | .none => c
  | .commit => { c with nSync := c.nSync + 1 }
  | .framingFail => { c with nFramingFail := c.nFramingFail + 1 }
  | .byte _ => { c with nBytes := c.nBytes + 1 }
  | .byteExhausted _ => { c with nBytes := c.nBytes + 1, nResyncExhaust := c.nResyncExhaust + 1 }

/-- The event of a DEC.BIT tells what it has counted. -/
theorem decodeBit_counters {b : Bool} {s t : State} {ev : DecEvent} (h : decodeBit b s = .done ev t) :
    t.dec.counters = s.dec.counters.tally ev := by
  cases hphase : s.dec.phase with
  | sync f =>
    rw [decodeBit_of_sync hphase] at h
    rcases syncBit_done h with ⟨-, -, -, -, -, rfl, rfl⟩ | ⟨-, rfl, rfl⟩
    all_goals rfl
  | decode f =>
    rw [decodeBit_of_decode hphase] at h
    rcases frmBit_done h with ⟨-, rfl, rfl⟩ | ⟨-, -, rfl, rfl⟩ | ⟨x, j, -, -, rfl, rfl⟩ | ⟨x, -, -, rfl, rfl⟩
    all_goals rfl

theorem decodeAll_counters {bs : List Bool} {s t : State} {evs : List DecEvent}
    (h : decodeAll bs s = .done evs t) : t.dec.counters = evs.foldl DecCounters.tally s.dec.counters := by
  induction bs generalizing s evs with
  | nil =>
    obtain ⟨rfl, rfl⟩ := Micro.done.inj h
    rfl
  | cons b bs ih =>
    obtain ⟨ev, evs₁, s₁, rfl, hfirst, hothers⟩ := decodeAll_cons_eq_done.mp h
    rw [ih hothers, decodeBit_counters hfirst, List.foldl_cons]

/-- Settles O48: the events depend on the configuration, the phase and `bit_offset` alone, and the counters and the
bytes on the events. -/
theorem decoderDependsOnBitsOnly : Obligations.DecoderDependsOnBitsOnly := by
  intro bs s₁ s₂ t₁ evs hcfg hphase hoffset hbytes hfail hexhaust hsync hrun
  obtain ⟨t₂, hrun₂, same⟩ := SameDecoder.decodeAll_done ⟨hcfg, hphase, hoffset⟩ hrun
  have start : s₁.dec.counters = s₂.dec.counters := by
    simp only [Dec.counters, hbytes, hfail, hexhaust, hsync]
  have counters : t₁.dec.counters = t₂.dec.counters := by
    rw [decodeAll_counters hrun, decodeAll_counters hrun₂, start]
  obtain ⟨bytes, fail, exhaust, sync⟩ := DecCounters.mk.inj counters
  exact ⟨t₂, evs.flatMap DecEvent.emitted, hrun₂, same.phase, same.bitOffset, bytes, fail, exhaust, sync,
    decodeAll_output hrun, decodeAll_output hrun₂⟩

end Sys2Proof.Machine

/-! Exceptions (statements O6, O7, O17, O25): a step that takes a turn, or nothing, from the port; the exit sequence
whose closing flush fails; and a poll of a quiet environment whose Samples complete no word. -/

namespace Sys2Proof.Machine

/-! ### A step that takes no command -/

theorem decRunTurn_of_idle {s : State} (h : s.dec.run = .idle) : decRunTurn s = .next s := by
  rw [decRunTurn, h]

/-- An ACQ turn goes on with an ACQ.RUN in progress, outside RUNNING in vain (log 1, 14). -/
theorem step_of_acqTurn {s : State} {rest : List Input} (hport : s.port.inputs = .acqTurn :: rest) :
    step s = if acqBusy s then acqRunTurn { s with port := { s.port with inputs := rest } }
      else .next { s with port := { s.port with inputs := rest } } := by
  unfold step nextTurn acqBusy
  rw [hport]
  cases s.acq.runActive with
  | false => rfl
  | true =>
    by_cases hrun : s.acq.acqState = .running
    · simp only [hrun, decide_true, Bool.and_self, if_true]
    · simp only [acqRunTurn, hrun, decide_false, Bool.and_false, if_true, if_false, Bool.false_eq_true]

/-- A DEC turn goes on with a DEC.RUN in progress, if there is one (log 1). -/
theorem step_of_decTurn {s : State} {rest : List Input} (hport : s.port.inputs = .decTurn :: rest) :
    step s = decRunTurn { s with port := { s.port with inputs := rest } } := by
  unfold step nextTurn
  rw [hport]

/-- Settles O6: a turn does what the same unit's run does with an empty port, at the state with the turn taken. -/
theorem turnInputsRunTheirUnit : Obligations.TurnInputsRunTheirUnit := by
  intro s rest u
  refine ⟨fun hport => ⟨fun hactive hrun => ?_, fun hfree => ?_⟩,
    fun hport => ⟨fun hidle => ?_, fun hready => ⟨fun hrun => ?_, fun b hrun => ?_⟩⟩⟩
  · rw [step_of_acqTurn hport, if_pos (acqBusy_eq_true.mpr ⟨hactive, hrun⟩)]
    exact acqRunTurn_of_running hrun
  · rw [step_of_acqTurn hport, acqBusy_eq_false.mpr hfree]
    rfl
  · exact (step_of_decTurn hport).trans (decRunTurn_of_idle hidle)
  · exact (step_of_decTurn hport).trans (decRunTurn_of_fetch hready hrun)
  · have turn : step s = decRunBit b u := (step_of_decTurn hport).trans (decRunTurn_of_bit hrun)
    rw [turn]
    exact ⟨fun t => decRunBit_of_next hready, fun r => decRunBit_of_refused hready⟩

/-- Settles O7: with an empty port and no busy ACQ unit the turn is the DEC unit's, which has no run. -/
theorem idleMachineDoesNothing : Obligations.IdleMachineDoesNothing := by
  intro s hport hfree hidle
  rw [step_without_input hport, acqBusy_eq_false.mpr hfree]
  exact decRunTurn_of_idle hidle

/-! ### An exit whose closing flush fails -/

/-- The state after the exit sequence of a RUNNING unit of whose closing flush the sink accepts `n` words, too
few: the partial word stays (60_exceptions.md R232, R234; 41_bit_packer_unpacker.md R142). -/
def exitedWithShortFlush (n : Nat) (s : State) : State :=
  { s with
    acq := { s.acq with
      fIoErr := true, pkBatch := [], acqCause := .ioErr, acqExit := 1, acqState := .stopped }
    env := { s.env with
      producer := .stopped
      sinkTape := s.env.sinkTape.tail
      persisted := s.env.persisted ++ s.acq.pkBatch.take n
      trace := s.env.trace ++ [.sinkWrite s.acq.pkBatch n, .barrier, .prodStop] }
    port := { s.port with responses := s.port.responses ++ [{ rc := .exit, val := 3 }] } }

/-- The one level of nesting: the IO_ERR of the closing flush replaces the cause (60_exceptions.md R234). -/
theorem exitAcq_shortFlush {c : Cause} {s : State} {n : Nat} (hc : c = .cancelled ∨ c = .overrun)
    (hrun : s.acq.acqState = .running) (htape : s.env.sinkTape.head? = some n)
    (hn : n < s.acq.pkBatch.length) : exitAcq c s = .next (exitedWithShortFlush n s) := by
  rw [exitAcq, if_pos hc, packClose_of_flush_raised (packFlush_short htape hn)]
  dsimp only
  rw [leaveAcq_of_running, List.append_assoc]
  · rfl
  · exact hrun

/-- Settles O17: each of the three commands takes the exit sequence with CANCELLED before any read, and an
ACQ.RUN has ended by then. -/
theorem cleanExitWithFailingSink : Obligations.CleanExitWithFailingSink := by
  intro s i n hrun hi htape hn
  have exits := exitAcq_shortFlush (c := .cancelled)
    (s := { s with acq := { s.acq with fCancelled := true } }) (.inl rfl) hrun htape hn
  rcases hi with rfl | ⟨hcancel, rfl | rfl⟩
  · rw [exec, execAcqStop, if_pos hrun]
    exact exits
  · rw [exec, execAcqPoll, if_pos hrun, poll_cancelled hcancel]
    exact exits
  · rw [exec_acqRun_of_running hrun, acqRunPoll, poll_cancelled hcancel]
    exact exitAcq_shortFlush (s := endAcqRun { s with acq := { s.acq with fCancelled := true } })
      (.inl rfl) hrun htape hn

/-! ### A quiet poll whose Samples complete no word -/

/-- From `s` to `t` the packer's partial word has taken in `bits` and no word has been completed; the block has made
the accesses `evs`, and nothing else outside the units has changed (41_bit_packer_unpacker.md R140). -/
structure PartialWordTakes (s : State) (bits : List Bool) (evs : List BusEvent) (t : State) : Prop where
  cfg : t.cfg = s.cfg
  batch : t.acq.pkBatch = s.acq.pkBatch
  nbits : t.acq.pkNbits = s.acq.pkNbits + bits.length
  bits : partialBits t.acq.pkWord t.acq.pkNbits = partialBits s.acq.pkWord s.acq.pkNbits ++ bits
  env : t.env = { s.env with trace := s.env.trace ++ evs }

theorem PartialWordTakes.refl (s : State) : PartialWordTakes s [] [] s :=
  ⟨rfl, rfl, rfl, (List.append_nil _).symm, by rw [List.append_nil]⟩

theorem PartialWordTakes.trans {s t u : State} {bits bits' : List Bool} {evs evs' : List BusEvent}
    (h : PartialWordTakes s bits evs t) (h' : PartialWordTakes t bits' evs' u) :
    PartialWordTakes s (bits ++ bits') (evs ++ evs') u where
  cfg := h'.cfg.trans h.cfg
  batch := h'.batch.trans h.batch
  nbits := by rw [h'.nbits, h.nbits, List.length_append, Nat.add_assoc]
  bits := by rw [h'.bits, h.bits, List.append_assoc]
  env := by rw [h'.env, h.env, List.append_assoc]

/-- A record of an access is no bit. -/
theorem logEvent_partialWord (s : State) (ev : BusEvent) : PartialWordTakes s [] [ev] (s.logEvent ev) :=
  ⟨rfl, rfl, rfl, (List.append_nil _).symm, rfl⟩

/-- RB.ADVANCE and RB.STATS leave the packer alone, and a Barrier follows (40_ring_consumer.md R118, R119). -/
theorem pollChecked_partialWord (cfg : Config) (l w : Word) (s : State) :
    PartialWordTakes s [] [.barrier] (pollChecked cfg l w s) :=
  ⟨rfl, rfl, rfl, (List.append_nil _).symm, rfl⟩

/-- The bits that the Samples at the offsets `os` are to the packer: in self-test mode none, for they go to the
verifier (40_ring_consumer.md R114). -/
def sampleBits (cfg : Config) (e : Env) (os : List Nat) : List Bool :=
  if cfg.testMode then [] else os.map fun o => (sharedWord e o).getLsbD cfg.signalBit

theorem sampleBits_cons (cfg : Config) (e : Env) (o : Nat) (os : List Nat) :
    sampleBits cfg e (o :: os) = sampleBits cfg e [o] ++ sampleBits cfg e os := by
  unfold sampleBits
  split_ifs <;> rfl

theorem sampleBits_map_range (cfg : Config) (e : Env) (pos : Nat → Nat) (m : Nat) :
    sampleBits cfg e ((List.range m).map pos) =
      (List.range (if cfg.testMode then 0 else m)).map fun j =>
        (sharedWord e (pos j)).getLsbD cfg.signalBit := by
  unfold sampleBits
  split_ifs
  · rfl
  · exact List.map_map

/-- The MemReads of the Samples at the offsets `os`. -/
def sampleReads (e : Env) (os : List Nat) : List BusEvent := os.map fun o => .memRead o (sharedWord e o)

/-- RB.SAMPLE where the partial word has room for the signal bit (40_ring_consumer.md R114). -/
theorem rbSample_partialWord (o : Nat) (x : Word) {s : State}
    (hroom : s.acq.pkNbits + (sampleBits s.cfg s.env [o]).length < 32) :
    ∃ t, rbSample (sharedWord s.env o) x s = .done () t ∧
      PartialWordTakes s (sampleBits s.cfg s.env [o]) [] t := by
  unfold rbSample
  unfold sampleBits at hroom ⊢
  split_ifs at hroom ⊢ with htest
  · obtain ⟨m, off, g, f, h⟩ := verifyCheck_spec (sharedWord s.env o) x s
    refine ⟨_, rfl, ?_⟩
    rw [h]
    exact ⟨rfl, rfl, rfl, (List.append_nil _).symm, by rw [List.append_nil]⟩
  · have room : s.acq.pkNbits + 1 < 32 := hroom
    exact ⟨_, packBit_partial _ room.ne, rfl, rfl, rfl, partialBits_shiftIn (by omega) _ _,
      by rw [List.append_nil]⟩

/-- In a quiet environment a Sample is read as it stands, and joins the partial word (40_ring_consumer.md R110). -/
theorem takeSample_partialWord {o : Nat} (x : Word) {s : State} (hq : s.env.schedule = [])
    (hin : o % 4 = 0 ∧ o < capBytes s.cfg)
    (hroom : s.acq.pkNbits + (sampleBits s.cfg s.env [o]).length < 32) :
    ∃ t, takeSample o x s = .done (add32 x 4) t ∧
      PartialWordTakes s (sampleBits s.cfg s.env [o]) (sampleReads s.env [o]) t := by
  obtain ⟨t, hsample, taken⟩ :=
    rbSample_partialWord o x (s := s.logEvent (.memRead o (sharedWord s.env o))) hroom
  refine ⟨t, ?_, (logEvent_partialWord s _).trans taken⟩
  rw [takeSample, memRead_inside hin.1 hin.2, producerTurn_quiet hq, Micro.bind_done]
  exact congrArg (Micro.bind · _) hsample

/-- A data phase that completes no word is done, whatever the sink would answer (41_bit_packer_unpacker.md R140). -/
theorem takeSamples_partialWord {os : List Nat} (x : Word) {s : State} (hq : s.env.schedule = [])
    (hin : ∀ o ∈ os, o % 4 = 0 ∧ o < capBytes s.cfg)
    (hroom : s.acq.pkNbits + (sampleBits s.cfg s.env os).length < 32) :
    ∃ x' t, takeSamples os x s = .done x' t ∧
      PartialWordTakes s (sampleBits s.cfg s.env os) (sampleReads s.env os) t := by
  induction os generalizing x s with
  | nil =>
    have none : sampleBits s.cfg s.env [] = [] := by simp [sampleBits]
    rw [none]
    exact ⟨x, s, rfl, .refl s⟩
  | cons o os ih =>
    obtain ⟨hfirst, hothers⟩ := List.forall_mem_cons.mp hin
    rw [sampleBits_cons] at hroom ⊢
    rw [List.length_append] at hroom
    obtain ⟨u, htake, taken⟩ := takeSample_partialWord x hq hfirst (by omega)
    have bits : sampleBits u.cfg u.env os = sampleBits s.cfg s.env os := by rw [taken.cfg, taken.env]; rfl
    have reads : sampleReads u.env os = sampleReads s.env os := by rw [taken.env]; rfl
    obtain ⟨x', t, htakes, rest⟩ := ih (add32 x 4) (s := u) (by rw [taken.env]; exact hq)
      (by rw [taken.cfg]; exact hothers) (by rw [bits, taken.nbits]; omega)
    rw [bits, reads] at rest
    exact ⟨x', t, by rw [takeSamples, htake, Micro.bind_done, htakes], taken.trans rest⟩

/-- The Samples of a poll of a RUNNING unit lie inside the region (20_memory.md R66). -/
theorem AcqInv.pollOffset_inside {s : State} (h : AcqInv s) (hrun : s.acq.acqState = .running) (j : Nat) :
    pollOffset s j % 4 = 0 ∧ pollOffset s j < capBytes s.cfg := by
  obtain ⟨hdvd, hmin, -⟩ := acqCfgOk_capacity (h.runningCfg hrun)
  have aligned := h.lastReadAligned
  exact ⟨(Nat.mod_mod_of_dvd _ hdvd).trans (by omega), Nat.mod_lt _ (Nat.lt_of_lt_of_le (by decide) hmin)⟩

/-- A poll whose parts up to its look at BEFORE are done has looked, and only its overrun check is left
(40_ring_consumer.md R110). -/
theorem AcqInv.poll_of_look {s s1 s2 t : State} {w o b : Word} (h : AcqInv s) (hrun : s.acq.acqState = .running)
    (hcancel : s.acq.cancel = false) (h1 : ctrlRead .after s = .done w s1)
    (h2 : spanLoop (rbSpans (capBytes s1.cfg) s1.acq.lastRead w) s1.acq.lastRead (barrier s1) = .done o s2)
    (h3 : ctrlRead .before (pollChecked s1.cfg s1.acq.lastRead w s2) = .done b t) :
    Looked s w b t ∧ ∃ n, poll s = (rbOvrChk b t).bind fun _ u => .done n u :=
  ⟨h.looked hrun h1 h2 h3, _, by rw [poll_not_cancelled hcancel, h1, Micro.bind_done, pollFrom_looked h2 h3]⟩

/-- With aligned counters, a poll of a quiet environment whose Samples complete no word gets to its look at BEFORE
without a SinkWrite, and flags an overrun that it sees (40_ring_consumer.md R110, R120). -/
theorem AcqInv.poll_overrun_partialWord {s : State} {w b : Word} (h : AcqInv s)
    (hrun : s.acq.acqState = .running) (hcancel : s.acq.cancel = false) (hq : s.env.schedule = [])
    (hw : ctrlValue s.cfg s.env .after = w) (hb : ctrlValue s.cfg s.env .before = b)
    (hw4 : w.toNat % 4 = 0) (hb4 : b.toNat % 4 = 0) (hfar : s.cfg.capacity.toNat < (sub32 b w).toNat)
    {os : List Nat} (hos : os = (List.range (pollBytes s w / 4)).map (pollOffset s))
    (hroom : s.acq.pkNbits + (sampleBits s.cfg s.env os).length < 32) :
    ∃ t, Looked s w b t ∧ poll s = .raised .overrun (overrunFlagged b t) ∧
      PartialWordTakes s (sampleBits s.cfg s.env os) ([.ctrlRead .after w, .barrier] ++
        sampleReads s.env os ++ [.barrier, .ctrlRead .before b]) t := by
  have h1 := ctrlRead_aligned (w := .after) hq (by rwa [hw])
  rw [hw] at h1
  have inside : ∀ o ∈ os, o % 4 = 0 ∧ o < capBytes s.cfg := by
    rw [hos]
    exact List.forall_mem_map.mpr fun j _ => h.pollOffset_inside hrun j
  obtain ⟨x, s2, hdata, taken⟩ := takeSamples_partialWord s.acq.lastRead
    (s := barrier (s.logEvent (.ctrlRead .after w))) hq inside hroom
  have h2 : spanLoop (rbSpans (capBytes s.cfg) s.acq.lastRead w) s.acq.lastRead
      (barrier (s.logEvent (.ctrlRead .after w))) = .done x s2 := by
    rw [spanLoop_eq_takeSamples, (h.pollSpans hrun hw4).2.1, ← hos, hdata]
  have data : PartialWordTakes _ (sampleBits s.cfg s.env os) (sampleReads s.env os) s2 := taken
  have opened := (logEvent_partialWord s (.ctrlRead .after w)).trans (logEvent_partialWord _ .barrier)
  have checked := (opened.trans data).trans (pollChecked_partialWord s.cfg s.acq.lastRead w s2)
  have same : ctrlValue (pollChecked s.cfg s.acq.lastRead w s2).cfg
      (pollChecked s.cfg s.acq.lastRead w s2).env .before = b := by
    rw [checked.cfg, checked.env]
    exact hb
  have h3 := ctrlRead_aligned (w := .before) (s := pollChecked s.cfg s.acq.lastRead w s2)
    (by rw [checked.env]; exact hq) (by rwa [same])
  rw [same] at h3
  obtain ⟨looked, n, hpoll⟩ := h.poll_of_look hrun hcancel h1 h2 h3
  refine ⟨_, looked, hpoll.trans ((rbOvrChk_of_looked looked).2 hfar), ?_⟩
  have all := checked.trans (logEvent_partialWord _ (.ctrlRead .before b))
  rwa [List.append_nil, List.append_nil, List.nil_append, List.nil_append, List.append_assoc] at all

/-- Settles O25: the poll gets to its look at BEFORE with the buffered words unwritten, the overrun check flags the
overrun, and the closing flush of its exit is the one write, which fails. -/
theorem overrunWithFailingSink : Obligations.OverrunWithFailingSink := by
  intro s k hinv hrun hcancel hq hw hb hfar w b n packed off checked hroom htape hk
  have bits := sampleBits_map_range s.cfg s.env (pollOffset s) (pollBytes s w / 4)
  have reads : sampleReads s.env ((List.range (pollBytes s w / 4)).map (pollOffset s)) =
      (List.range (n / 4)).map fun j => .memRead (off j) (sharedWord s.env (off j)) := List.map_map
  have count : (sampleBits s.cfg s.env ((List.range (pollBytes s w / 4)).map (pollOffset s))).length = packed := by
    rw [bits, List.length_map, List.length_range]
    rfl
  obtain ⟨u, looked, raised, taken⟩ := hinv.poll_overrun_partialWord hrun hcancel hq rfl rfl hw hb hfar rfl
    (by rw [count]; exact hroom)
  have running : (overrunFlagged b u).acq.acqState = .running := looked.frame.acqState.trans hrun
  have tape : (overrunFlagged b u).env.sinkTape.head? = some k := by
    rw [overrunFlagged, taken.env]
    exact htape
  have short : k < (overrunFlagged b u).acq.pkBatch.length := by
    rw [overrunFlagged, taken.batch]
    exact hk
  have acq := looked.acq
  rw [pollVerified_quiet hq] at acq
  refine ⟨exitedWithShortFlush k (overrunFlagged b u), ?_, ?_, looked.frame.cfg, looked.frame.dec, ?_, ?_, ?_, ?_⟩
  · rw [exec, execAcqPoll, if_pos hrun, raised]
    exact exitAcq_shortFlush (.inr rfl) running tape short
  · rw [exec, execAcqRun, if_pos hrun, acqRunPoll, raised]
    exact exitAcq_shortFlush (s := endAcqRun (overrunFlagged b u)) (.inr rfl) running tape short
  · have nbits : u.acq.pkNbits = s.acq.pkNbits + packed := count ▸ taken.nbits
    rw [← nbits, exitedWithShortFlush, overrunFlagged, looked.lastRead, acq]
    rfl
  · exact taken.bits.trans (congrArg (_ ++ ·) bits)
  · rw [exitedWithShortFlush, overrunFlagged, taken.batch, taken.env, reads]
    simp only [List.append_assoc, List.cons_append, List.nil_append]
    rfl
  · rw [exitedWithShortFlush, overrunFlagged, looked.frame.port]

end Sys2Proof.Machine

/-! Reset and hazards (statements O11, O31): the next state of RESET, and the signal context's one register, which no
rule of a poll looks at after its cancellation check. -/

namespace Sys2Proof.Machine

/-! ### RESET -/

/-- Settles O11: only whether the unit was RUNNING decides what becomes of the producer; the runs are those that were
in progress (log 14). -/
theorem resetCommand : Obligations.ResetCommand := by
  intro s
  refine ⟨s.acq.runActive, s.dec.run, ?_⟩
  rw [exec, execReset]
  by_cases hrun : s.acq.acqState = .running
  case pos =>
    have stopped : prodStop (barrier s) = { s with env := { s.env with
        producer := .stopped, trace := s.env.trace ++ [.barrier, .prodStop] } } := by
      simp only [prodStop, barrier, State.logEvent, List.append_assoc, List.cons_append, List.nil_append]
    rw [if_pos hrun, if_pos hrun, stopped]
    rfl
  case neg =>
    rw [if_neg hrun, if_neg hrun]
    rfl

/-! ### Rules that do not look at `cancel` -/

/-- The step of the signal context on the registers (42_acquisition_loop.md R161). -/
def setCancel (s : State) : State := { s with acq := { s.acq with cancel := true } }

/-- A result or a raised cause, with its state changed by `g`; a stop has no state to change. -/
def Micro.mapState {α : Type} (g : State → State) : Micro α → Micro α
  | .done a s => .done a (g s)
  | .raised c s => .raised c (g s)
  | .fault r => .fault r
  | .refused r => .refused r

/-- The micro-operation commutes with the signal context: `cancel` set before it or after it is the same
(70_reset_and_hazards.md R258). -/
def IgnoresCancel {α : Type} (m : State → Micro α) : Prop :=
  ∀ s, m (setCancel s) = (m s).mapState setCancel

theorem IgnoresCancel.done {α : Type} {a : α} {f : State → State} (h : ∀ s, f (setCancel s) = setCancel (f s)) :
    IgnoresCancel fun s => .done a (f s) :=
  fun s => congrArg (Micro.done a) (h s)

theorem IgnoresCancel.bind {α β : Type} {m : State → Micro α} {f : α → State → Micro β} (hm : IgnoresCancel m)
    (hf : ∀ a, IgnoresCancel (f a)) : IgnoresCancel fun s => (m s).bind f := by
  intro s
  dsimp only
  rw [hm s]
  cases m s with
  | done a t => exact hf a t
  | raised c t => rfl
  | fault r => rfl
  | refused r => rfl

/-- A branch on what `cancel` has no part in. -/
theorem IgnoresCancel.ite {α : Type} {p : State → Prop} [DecidablePred p] {m m' : State → Micro α}
    (hp : ∀ s, p (setCancel s) ↔ p s) (hm : IgnoresCancel m) (hm' : IgnoresCancel m') :
    IgnoresCancel fun s => if p s then m s else m' s := by
  intro s
  dsimp only
  by_cases h : p s
  · rw [if_pos h, if_pos ((hp s).mpr h), hm s]
  · rw [if_neg h, if_neg (mt (hp s).mp h), hm' s]

theorem IgnoresCancel.comp {α : Type} {m : State → Micro α} {f : State → State} (hm : IgnoresCancel m)
    (hf : ∀ s, f (setCancel s) = setCancel (f s)) : IgnoresCancel fun s => m (f s) := by
  intro s
  dsimp only
  rw [hf, hm]

/-! ### The accesses -/

/-- The producer's writes depend on the configuration and the environment only (20_memory.md R70). -/
theorem producerTurn_setCancel (s : State) : producerTurn (setCancel s) = setCancel (producerTurn s) := by
  cases s with
  | mk cfg acq dec env port =>
    unfold producerTurn setCancel
    dsimp only
    cases env.schedule <;> rfl

theorem memRead_ignoresCancel (off : Nat) : IgnoresCancel (memRead off) := by
  refine .ite (fun _ => .rfl) ?_ fun _ => rfl
  exact .comp (m := fun s => .done (sharedWord s.env off) (s.logEvent (.memRead off (sharedWord s.env off))))
    (fun _ => rfl) producerTurn_setCancel

theorem ctrlRead_ignoresCancel (w : CtrlWord) : IgnoresCancel (ctrlRead w) := by
  have checked : IgnoresCancel fun s => if (ctrlValue s.cfg s.env w).toNat % 4 = 0
      then .done (ctrlValue s.cfg s.env w) (s.logEvent (.ctrlRead w (ctrlValue s.cfg s.env w)))
      else .refused (.counterMisaligned w (ctrlValue s.cfg s.env w)) :=
    .ite (fun _ => .rfl) (fun _ => rfl) fun _ => rfl
  exact checked.comp producerTurn_setCancel

theorem sinkWrite_ignoresCancel (ws : List Word) : IgnoresCancel (sinkWrite ws) :=
  .ite (fun _ => .rfl) (fun _ => rfl) fun _ => rfl

/-! ### The Samples -/

theorem packFlush_ignoresCancel : IgnoresCancel packFlush := by
  refine .ite (fun _ => .rfl) (fun _ => rfl) fun s => ?_
  refine (sinkWrite_ignoresCancel s.acq.pkBatch).bind (fun n => ?_) s
  exact .ite (fun _ => .rfl) (fun _ => rfl) fun _ => rfl

theorem packBit_ignoresCancel (b : Bool) : IgnoresCancel (packBit b) := by
  refine .ite (fun _ => .rfl) (.ite (fun _ => .rfl) ?_ fun _ => rfl) fun _ => rfl
  exact packFlush_ignoresCancel.comp fun _ => rfl

theorem verifyCheck_setCancel (v off : Word) (s : State) :
    verifyCheck v off (setCancel s) = setCancel (verifyCheck v off s) := by
  unfold verifyCheck
  rw [apply_ite setCancel]
  rfl

theorem rbSample_ignoresCancel (v off : Word) : IgnoresCancel (rbSample v off) := by
  refine .ite (fun _ => .rfl) (.done (verifyCheck_setCancel v off)) fun s => ?_
  exact packBit_ignoresCancel (v.getLsbD s.cfg.signalBit) s

theorem sampleLoop_ignoresCancel (n o : Nat) (x : Word) : IgnoresCancel (sampleLoop n o x) := by
  induction n generalizing o x with
  | zero => exact fun _ => rfl
  | succ n ih => exact (memRead_ignoresCancel o).bind fun v => (rbSample_ignoresCancel v x).bind fun _ => ih _ _

theorem spanLoop_ignoresCancel (spans : List (Nat × Nat)) (x : Word) : IgnoresCancel (spanLoop spans x) := by
  induction spans generalizing x with
  | nil => exact fun _ => rfl
  | cons sp rest ih => exact (sampleLoop_ignoresCancel _ _ x).bind ih

/-! ### The rest of the poll -/

theorem rbOvrChk_ignoresCancel (b : Word) : IgnoresCancel (rbOvrChk b) :=
  .ite (fun _ => .rfl) (fun _ => rfl) fun _ => rfl

/-- The poll looks at `cancel` in its cancellation check only (40_ring_consumer.md R111). -/
theorem pollFrom_ignoresCancel (w : Word) : IgnoresCancel (pollFrom w) := by
  have data : ∀ spans x, IgnoresCancel fun u => spanLoop spans x (barrier u) :=
    fun spans x => (spanLoop_ignoresCancel spans x).comp fun _ => rfl
  have look : ∀ n unread, IgnoresCancel fun u => ctrlRead .before (barrier (rbStats n unread (rbAdvance w u))) :=
    fun _ _ => (ctrlRead_ignoresCancel .before).comp fun _ => rfl
  intro s
  refine (data (rbSpans (capBytes s.cfg) s.acq.lastRead w) s.acq.lastRead).bind (fun _ => ?_) s
  refine (look _ (sub32 w s.acq.lastRead)).bind fun b => ?_
  exact (rbOvrChk_ignoresCancel b).bind fun _ _ => rfl

/-- Settles O31: the rest of the poll ignores `cancel`, in each of its four outcomes. -/
theorem cancelCommutesWithThePoll : Obligations.CancelCommutesWithThePoll := by
  intro w s
  have commutes {m : Micro Nat} (h : pollFrom w s = m) : pollFrom w (setCancel s) = m.mapState setCancel :=
    (pollFrom_ignoresCancel w s).trans (congrArg (Micro.mapState setCancel) h)
  exact ⟨fun _ _ => commutes, fun _ _ => commutes, fun _ => commutes, fun _ => commutes⟩

end Sys2Proof.Machine
